-- ==== Sys2Proof/Word.lean ====
section
/-! DEFINITION. The word types of the block (00_scope.md R6, 30_encoding.md R100). -/

namespace Sys2Proof

/-- A byte: 8 bits, a value `0..255` (R6). -/
abbrev Byte := BitVec 8

/-- A command word or a response word: 64 numbered bits (R100). -/
abbrev Word := BitVec 64

/-- The 56 bits below the opcode of a command word, or below the status of a response word (R100). -/
abbrev Payload := BitVec 56

end Sys2Proof
end

