-- ==== Sys2Proof/Syntax.lean ====
section
/-! DEFINITION. The command set OBC-CMD version 1 (30_encoding.md R104), the value types that cross the host
interface (10_state.md R40 to R43), and the names of the registers and of the error kinds. -/

namespace Sys2Proof

/-- `ClockState` (10_state.md R40): `Stopped = 0`, `Running = 1`. -/
inductive ClockState where
  | stopped
  | running
  deriving DecidableEq, Repr

/-- `BatteryState` (10_state.md R40): `Off = 0`, `On = 1`. -/
inductive BatteryState where
  | off
  | on
  deriving DecidableEq, Repr

/-- `DateTime` (10_state.md R42): six unsigned fields, as mathematical integers; the widths they have in a command
word (16 bits for the year, 8 for each other field) are checked in WellFormed. -/
structure DateTime where
  year : Nat
  month : Nat
  day : Nat
  hour : Nat
  minute : Nat
  second : Nat
  deriving DecidableEq, Repr

/-- The 18 commands, one constructor per row of 30_encoding.md R104, in the table's order. A T16 operand is the
signed integer of 10_state.md R43; BCD.ENC's operand is unsigned (R106). -/
inductive Instr where
  | bcdEnc (value : Nat)
  | bcdDec (byte : Byte)
  | tempDec (hi lo : Byte)
  | tempEnc (t : Int)
  | rtcGclk
  | rtcSclk (d : ClockState)
  | rtcGbat
  | rtcSbat (b : BatteryState)
  | rtcGdt
  | rtcSdt (dt : DateTime)
  | rtcRst
  | tmpGamb
  | tmpGupr
  | tmpSupr (t : Int)
  | tmpGlwr
  | tmpSlwr (t : Int)
  | tmpGcrt
  | tmpScrt (t : Int)
  deriving DecidableEq, Repr

/-- The seven byte registers of the RTC device (10_state.md R28 to R34). -/
inductive RtcReg where
  | sec
  | min
  | hour
  | wkday
  | day
  | month
  | year
  deriving DecidableEq, Repr

/-- The four register pairs of the temperature sensor (10_state.md R36 to R38). -/
inductive TmpPair where
  | upper
  | lower
  | crit
  | amb
  deriving DecidableEq, Repr

/-- The six date-time fields of 42_rtc.md R151. -/
inductive TimeField where
  | second
  | minute
  | hour
  | day
  | month
  | year
  deriving DecidableEq, Repr

/-- `RegisterAddress` (10_state.md R44): an opaque pair of a device address and a register offset. -/
structure RegAddr where
  device : Nat
  offset : Byte
  deriving DecidableEq, Repr

/-- The status codes of 60_exceptions.md R200. `channelDisabledError` is reserved: no rule produces it (R204). -/
inductive Status where
  | ok
  | rangeError
  | formatError
  | hardwareFault
  | channelDisabledError
  | illegalCommand
  deriving DecidableEq, Repr

/-- The details of `RangeError` (60_exceptions.md R201). -/
inductive RangeDetail where
  | bcdValue
  | tempValue
  | dtYear
  | dtMonth
  | dtDay
  | dtHour
  | dtMinute
  | dtSecond
  deriving DecidableEq, Repr

/-- The details of `FormatError` (60_exceptions.md R202): the operand of BCD.DEC, or the field of RTC.GDT. -/
inductive FormatDetail where
  | bcdNibble
  | field (f : TimeField)
  deriving DecidableEq, Repr

/-- The details of `HardwareFault` (60_exceptions.md R203). -/
inductive FaultDetail where
  | bus
  | tickVerify
  deriving DecidableEq, Repr

/-- The details of `IllegalCommand` (60_exceptions.md R205). -/
inductive IllegalDetail where
  | badOpcode
  | badMbz
  deriving DecidableEq, Repr

/-- An error kind with its detail: what a command raises (60_exceptions.md R201 to R205). `ChannelDisabledError`
is no constructor, since nothing raises it (R204). -/
inductive Err where
  | range (d : RangeDetail)
  | format (d : FormatDetail)
  | hardware (d : FaultDetail)
  | illegal (d : IllegalDetail)
  deriving DecidableEq, Repr

end Sys2Proof
end

