-- ==== Sys2Proof/WellFormed.lean ====
section
/-! DEFINITION. Which instructions a command word can carry: every operand within the width and the signedness of its
field (30_encoding.md R101, R106). Whether an operand lies in the command's DOMAIN is not asked here: a word with an
operand outside its domain is legal and is answered with `RangeError` (R107). -/

namespace Sys2Proof

/-- A 16-bit unsigned operand, `zext_16` (R106). -/
def fitsU16 (v : Nat) : Bool := decide (v < 65536)

/-- An 8-bit unsigned operand (R106). -/
def fitsU8 (v : Nat) : Bool := decide (v < 256)

/-- A T16 operand, `sext_16` (R106; 10_state.md R43). -/
def fitsT16 (t : Int) : Bool := decide (-32768 ≤ t ∧ t ≤ 32767)

/-- The six fields of format DT (R101). -/
def DateTime.fits (dt : DateTime) : Bool :=
  fitsU16 dt.year && fitsU8 dt.month && fitsU8 dt.day && fitsU8 dt.hour && fitsU8 dt.minute && fitsU8 dt.second

/-- The instruction has a command word. -/
def Instr.wellFormed : Instr → Bool
  | .bcdEnc v => fitsU16 v
  | .bcdDec _ => true
  | .tempDec _ _ => true
  | .tempEnc t => fitsT16 t
  | .rtcGclk => true
  | .rtcSclk _ => true
  | .rtcGbat => true
  | .rtcSbat _ => true
  | .rtcGdt => true
  | .rtcSdt dt => dt.fits
  | .rtcRst => true
  | .tmpGamb => true
  | .tmpGupr => true
  | .tmpSupr t => fitsT16 t
  | .tmpGlwr => true
  | .tmpSlwr t => fitsT16 t
  | .tmpGcrt => true
  | .tmpScrt t => fitsT16 t

end Sys2Proof
end

