-- ==== Sys2Proof/Decode.lean ====
section
/-! DEFINITION. The opcode map of 30_encoding.md R104 as a table, the decoder that reads a command word by it, and the
encoder. -/

namespace Sys2Proof

/-! ### Fields of a command word (R101) -/

/-- `CMD[63:56]`, the opcode (R100). -/
def opcodeOf (w : Word) : Byte := w.extractLsb' 56 8

/-- `CMD[55:0]`, the payload (R100). -/
def payloadOf (w : Word) : Payload := w.extractLsb' 0 56

/-- The word with this opcode and this payload (R100). -/
def commandWord (op : Byte) (p : Payload) : Word := op ++ p

/-- Format S1: `state`, bit 0. -/
def stateBit (p : Payload) : Bool := p.getLsbD 0

/-- Formats B8 and HL: bits 7:0. -/
def lowByte (p : Payload) : Byte := p.extractLsb' 0 8

/-- Format HL: `hi`, bits 15:8. -/
def highByte (p : Payload) : Byte := p.extractLsb' 8 8

/-- Format V16: `value`, bits 15:0. -/
def value16 (p : Payload) : BitVec 16 := p.extractLsb' 0 16

/-- Format DT: the six fields, unsigned (R101, R106). -/
def dateTimeOf (p : Payload) : DateTime where
  year := (p.extractLsb' 40 16).toNat
  month := (p.extractLsb' 32 8).toNat
  day := (p.extractLsb' 24 8).toNat
  hour := (p.extractLsb' 16 8).toNat
  minute := (p.extractLsb' 8 8).toNat
  second := (p.extractLsb' 0 8).toNat

/-- The clock state of a `state` bit (R106; 10_state.md R40). -/
def clockStateOf (b : Bool) : ClockState := if b then .running else .stopped

/-- The battery state of a `state` bit (R106; 10_state.md R40). -/
def batteryStateOf (b : Bool) : BatteryState := if b then .on else .off

/-! ### The opcode map (R104) -/

/-- One row of R104: a command word `w` selects it if and only if `w &&& mask = pattern`. `operands` reads the
fields of the row's format (R106). -/
structure Row where
  mnemonic : String
  opcode : Byte
  pattern : Word
  mask : Word
  operands : Payload → Instr

/-- The rows of R104, columns Mnemonic, Opcode, Match and Mask as the table has them. -/
def opcodeMap : List Row := [
  ⟨"BCD.ENC", 0x01, 0x0100000000000000, 0xFFFFFFFFFFFF0000, fun p => .bcdEnc (value16 p).toNat⟩,
  ⟨"BCD.DEC", 0x02, 0x0200000000000000, 0xFFFFFFFFFFFFFF00, fun p => .bcdDec (lowByte p)⟩,
  ⟨"TEMP.DEC", 0x11, 0x1100000000000000, 0xFFFFFFFFFFFF0000, fun p => .tempDec (highByte p) (lowByte p)⟩,
  ⟨"TEMP.ENC", 0x12, 0x1200000000000000, 0xFFFFFFFFFFFF0000, fun p => .tempEnc (value16 p).toInt⟩,
  ⟨"RTC.GCLK", 0x20, 0x2000000000000000, 0xFFFFFFFFFFFFFFFF, fun _ => .rtcGclk⟩,
  ⟨"RTC.SCLK", 0x21, 0x2100000000000000, 0xFFFFFFFFFFFFFFFE, fun p => .rtcSclk (clockStateOf (stateBit p))⟩,
  ⟨"RTC.GBAT", 0x22, 0x2200000000000000, 0xFFFFFFFFFFFFFFFF, fun _ => .rtcGbat⟩,
  ⟨"RTC.SBAT", 0x23, 0x2300000000000000, 0xFFFFFFFFFFFFFFFE, fun p => .rtcSbat (batteryStateOf (stateBit p))⟩,
  ⟨"RTC.GDT", 0x24, 0x2400000000000000, 0xFFFFFFFFFFFFFFFF, fun _ => .rtcGdt⟩,
  ⟨"RTC.SDT", 0x25, 0x2500000000000000, 0xFF00000000000000, fun p => .rtcSdt (dateTimeOf p)⟩,
  ⟨"RTC.RST", 0x26, 0x2600000000000000, 0xFFFFFFFFFFFFFFFF, fun _ => .rtcRst⟩,
  ⟨"TMP.GAMB", 0x30, 0x3000000000000000, 0xFFFFFFFFFFFFFFFF, fun _ => .tmpGamb⟩,
  ⟨"TMP.GUPR", 0x32, 0x3200000000000000, 0xFFFFFFFFFFFFFFFF, fun _ => .tmpGupr⟩,
  ⟨"TMP.SUPR", 0x33, 0x3300000000000000, 0xFFFFFFFFFFFF0000, fun p => .tmpSupr (value16 p).toInt⟩,
  ⟨"TMP.GLWR", 0x34, 0x3400000000000000, 0xFFFFFFFFFFFFFFFF, fun _ => .tmpGlwr⟩,
  ⟨"TMP.SLWR", 0x35, 0x3500000000000000, 0xFFFFFFFFFFFF0000, fun p => .tmpSlwr (value16 p).toInt⟩,
  ⟨"TMP.GCRT", 0x36, 0x3600000000000000, 0xFFFFFFFFFFFFFFFF, fun _ => .tmpGcrt⟩,
  ⟨"TMP.SCRT", 0x37, 0x3700000000000000, 0xFFFFFFFFFFFF0000, fun p => .tmpScrt (value16 p).toInt⟩]

/-- The row whose opcode is `op`, if `op` is one of the 18. -/
def rowOf (op : Byte) : Option Row := opcodeMap.find? (fun r => r.opcode == op)

/-- Decoding (R108): take `CMD[63:56]`, find the row, check the mask, read the fields of the row's format. A word that
selects no row is illegal, for its opcode or for a must-be-zero bit (R105; 60_exceptions.md R205). -/
def decode (w : Word) : Except IllegalDetail Instr :=
  match rowOf (opcodeOf w) with
  | none => .error .badOpcode
  | some r => if w &&& r.mask = r.pattern then .ok (r.operands (payloadOf w)) else .error .badMbz

/-- The decoder on an instruction given as its `nbits` low bits, the bits above them zero. -/
def decodeTableWord (nbits w : Nat) : Option Instr :=
  match decode (BitVec.ofNat 64 (w % 2 ^ nbits)) with
  | .ok i => some i
  | .error _ => none

/-! ### The encoder -/

/-- The opcode of each command (R104). -/
def Instr.opcode : Instr → Byte
  | .bcdEnc _ => 0x01
  | .bcdDec _ => 0x02
  | .tempDec _ _ => 0x11
  | .tempEnc _ => 0x12
  | .rtcGclk => 0x20
  | .rtcSclk _ => 0x21
  | .rtcGbat => 0x22
  | .rtcSbat _ => 0x23
  | .rtcGdt => 0x24
  | .rtcSdt _ => 0x25
  | .rtcRst => 0x26
  | .tmpGamb => 0x30
  | .tmpGupr => 0x32
  | .tmpSupr _ => 0x33
  | .tmpGlwr => 0x34
  | .tmpSlwr _ => 0x35
  | .tmpGcrt => 0x36
  | .tmpScrt _ => 0x37

/-- Format S1, and result format RS1: one bit in bit 0 (R101, R102). -/
def payloadS1 (b : Bool) : Payload := if b then 1 else 0

/-- Format B8, and result format RB8. -/
def payloadB8 (b : Byte) : Payload := (0 : BitVec 48) ++ b

/-- Format V16, and result format RV16. -/
def payloadV16 (v : BitVec 16) : Payload := (0 : BitVec 40) ++ v

/-- Format HL, and result format RHL: the high byte above the low byte. -/
def payloadHL (hi lo : Byte) : Payload := (0 : BitVec 40) ++ hi ++ lo

/-- Format DT, and result format RDT: the six fields from the high bits down. -/
def payloadDT (dt : DateTime) : Payload :=
  BitVec.ofNat 16 dt.year ++ BitVec.ofNat 8 dt.month ++ BitVec.ofNat 8 dt.day ++
    BitVec.ofNat 8 dt.hour ++ BitVec.ofNat 8 dt.minute ++ BitVec.ofNat 8 dt.second

/-- The 16-bit two's complement of a T16, `t & 0xFFFF` (R106; 10_state.md R43). -/
def t16Bits (t : Int) : BitVec 16 := BitVec.ofInt 16 t

/-- The bit of a clock state (10_state.md R40). -/
def ClockState.bit : ClockState → Bool
  | .stopped => false
  | .running => true

/-- The bit of a battery state (10_state.md R40). -/
def BatteryState.bit : BatteryState → Bool
  | .off => false
  | .on => true

/-- The operand payload of each command, in its format (R101, R104). -/
def Instr.payload : Instr → Payload
  | .bcdEnc v => payloadV16 (BitVec.ofNat 16 v)
  | .bcdDec b => payloadB8 b
  | .tempDec hi lo => payloadHL hi lo
  | .tempEnc t => payloadV16 (t16Bits t)
  | .rtcGclk => 0
  | .rtcSclk d => payloadS1 d.bit
  | .rtcGbat => 0
  | .rtcSbat b => payloadS1 b.bit
  | .rtcGdt => 0
  | .rtcSdt dt => payloadDT dt
  | .rtcRst => 0
  | .tmpGamb => 0
  | .tmpGupr => 0
  | .tmpSupr t => payloadV16 (t16Bits t)
  | .tmpGlwr => 0
  | .tmpSlwr t => payloadV16 (t16Bits t)
  | .tmpGcrt => 0
  | .tmpScrt t => payloadV16 (t16Bits t)

/-- The command word of an instruction (R100, R104). -/
def encode (i : Instr) : Word := commandWord i.opcode i.payload

end Sys2Proof
end

