-- ==== Sys2Proof/Config.lean ====
section
/-! DEFINITION. What an implementation fixes (00_scope.md R5), the shape of the environment's draws, and the
free values: opaque constants with no body, so that nothing can be proved of what they are. -/

namespace Sys2Proof

/-- The implementation parameters of 00_scope.md R5. `BUS_TIMEOUT` is not here: R5 says of it "not modelled
(no rule reads it)". The field masks `MASK_x` are fixed by the spec and stand in Machine/Operands.lean. -/
structure Config where
  /-- `RTC_DEV`, an opaque device address. -/
  rtcDev : Nat
  /-- `REG_SEC` and so on: register offsets, 8 bits each. -/
  regSec : Byte
  regMin : Byte
  regHour : Byte
  regWkday : Byte
  regDay : Byte
  regMonth : Byte
  regYear : Byte
  /-- `TMP_DEV`, an opaque device address. -/
  tmpDev : Nat
  regTupper : Byte
  regTlower : Byte
  regTcrit : Byte
  regTamb : Byte
  /-- `TEMP_MIN16` and `TEMP_MAX16`, sixteenths of a degree Celsius. -/
  tempMin16 : Int
  tempMax16 : Int
  /-- `SETTLE_TICKS_MIN` and `SETTLE_TICKS_MAX`. -/
  settleTicksMin : Nat
  settleTicksMax : Nat
  /-- `GAP_TICKS_MAX`. -/
  gapTicksMax : Nat
  deriving DecidableEq, Repr

/-- The defaults of 00_scope.md R5. The addresses among them are the spec's "from general knowledge, not in
source"; a claim proved for the defaults says nothing of another configuration (log entry 1). -/
def Config.standard : Config where
  rtcDev := 0x6F
  regSec := 0x00
  regMin := 0x01
  regHour := 0x02
  regWkday := 0x03
  regDay := 0x04
  regMonth := 0x05
  regYear := 0x06
  tmpDev := 0x18
  regTupper := 0x02
  regTlower := 0x03
  regTcrit := 0x04
  regTamb := 0x05
  tempMin16 := -640
  tempMax16 := 2000
  settleTicksMin := 2
  settleTicksMax := 4
  gapTicksMax := 1

/-- The constraints every legal configuration meets (00_scope.md R5; launch premise (a) of
70_reset_and_hazards.md R244). -/
abbrev Config.Legal (c : Config) : Prop :=
  c.rtcDev ≠ c.tmpDev ∧
  [c.regSec, c.regMin, c.regHour, c.regWkday, c.regDay, c.regMonth, c.regYear].Nodup ∧
  [c.regTupper, c.regTlower, c.regTcrit, c.regTamb].Nodup ∧
  -4096 ≤ c.tempMin16 ∧ c.tempMin16 ≤ c.tempMax16 ∧ c.tempMax16 ≤ 4095 ∧
  1 ≤ c.settleTicksMin ∧ c.settleTicksMin ≤ c.settleTicksMax ∧ c.settleTicksMax ≤ 59

/-- The six time registers of the RTC device (10_state.md R28 to R34, less `WKDAY`), taken together. -/
structure ClockRegs where
  sec : Byte
  min : Byte
  hour : Byte
  day : Byte
  month : Byte
  year : Byte
  deriving DecidableEq, Repr, Inhabited

/-- What the environment draws for one bus transaction. -/
structure BusDraw where
  /-- Ticks of the device in the gap before the transaction, before the bound of 60_exceptions.md R220. -/
  gap : Nat
  /-- Does the transport fail the transaction (20_memory.md R62)? -/
  fails : Bool
  /-- The high byte a failed pair write leaves (R63), or of the ambient sample (60_exceptions.md R222). -/
  hi : Byte
  /-- The byte a failed byte write leaves, or the low byte of a pair (R63, R222). -/
  lo : Byte
  /-- Register cells that something other than the block and a conforming device writes in the gap: empty under
  the premise `NoOtherBusMaster` (20_memory.md R72, 93_implementation_defined.md U12, U13). -/
  foreign : List (Nat × Byte)
  deriving DecidableEq, Repr, Inhabited

/-- What the environment draws for one settle wait (60_exceptions.md R220). -/
structure SettleDraw where
  /-- The ticks the oscillator makes during the wait, before the bound `SETTLE_TICKS_MAX`. -/
  ticks : Nat
  /-- As `BusDraw.foreign`, during the wait. -/
  foreign : List (Nat × Byte)
  deriving DecidableEq, Repr, Inhabited

/-- FREE VALUE: the `n`-th bus draw the machine makes, where State lists no draw for it (log entry 3). -/
opaque Config.freeBus : Nat → BusDraw

/-- FREE VALUE: the `n`-th settle draw, where State lists no draw for it (log entry 3). -/
opaque Config.freeSettle : Nat → SettleDraw

/-- FREE VALUE: the values the `n`-th tick leaves in malformed time fields (60_exceptions.md R219; log entry 3). -/
opaque Config.freeTick : Nat → ClockRegs

end Sys2Proof
end

