-- ==== Sys2Proof/Machine/State.lean ====
section
/-! DEFINITION. The state of the machine (10_state.md R20 to R45): the block's registers, the register space of the two
devices, and the model's own fields (the configuration, the environment's draws, the host's actions); its value after
power-on reset. -/

namespace Sys2Proof.Machine

/-- Why the machine stops with a fault: it never does. Every one of the 2^64 command words has a defined outcome
(30_encoding.md R105), every bus transaction completes (20_memory.md R83), and an error kind ends a command with a
response, after which the block is idle (60_exceptions.md R208, R210). No constructor: safe. -/
inductive Fault where
  deriving DecidableEq, Repr

/-- Why the machine refuses an instruction. No arm of `exec` raises it: every command has its meaning. Safe. -/
inductive Refusal where
  /-- Raised by an arm of `exec` whose instruction has no meaning yet (there is none). Safe: the machine stops. -/
  | notModelled (mnemonic : String)
  deriving DecidableEq, Repr

/-- The register space behind the bus (20_memory.md R60), as (address, byte) pairs in canonical form: addresses
strictly rising, no entry equal to what an unlisted address reads as (`Memory.wf`, Machine/Memory.lean). -/
structure Memory where
  cells : List Host.Cell
  deriving DecidableEq, Repr

/-- A stream of environment draws of one kind: the draws still listed, and how many have been taken so far, listed or
not. Where no draw is listed, the machine takes the free value of that number (log entry 3). -/
structure Draws (α : Type) where
  listed : List α
  taken : Nat
  deriving DecidableEq, Repr

/-- The environment's draws (00_scope.md R8; 93_implementation_defined.md U5, U7 to U11). -/
structure Env where
  /-- One draw for each bus transaction. -/
  bus : Draws BusDraw
  /-- One draw for each settle wait. -/
  settle : Draws SettleDraw
  /-- One draw for each tick of the device: the values malformed time fields take. -/
  tick : Draws ClockRegs
  deriving DecidableEq, Repr

/-- `SEQ` (10_state.md R25): `Idle`, or `Busy(op, n)` with the opcode being executed and the number of bus
transactions and settle waits completed so far. -/
inductive Seq where
  | idle
  | busy (op : Byte) (n : Nat)
  deriving DecidableEq, Repr

/-- What the host does (00_scope.md R8, R9; 60_exceptions.md R220), one action a step. -/
inductive HostAct where
  /-- The blocking call: the host presents a command word and waits for `BUSY = 0` (R9; 10_state.md R24). -/
  | call (w : Word)
  /-- The host presents a command word and does not wait. -/
  | present (w : Word)
  /-- The host does nothing. If a command runs, the sequencer makes its next step; if the block is idle, time passes
  between commands and a running clock makes this many ticks (60_exceptions.md R220). -/
  | wait (ticks : Nat)
  /-- The block is reset, as at power-on; the devices are not (70_reset_and_hazards.md R240, R241). -/
  | reset
  deriving DecidableEq, Repr

/-- The machine's state. Plain data. -/
structure State where
  /-- `CMD`, the command register (10_state.md R21). -/
  cmd : Word
  /-- `RSP`, the response register (10_state.md R22). -/
  rsp : Word
  /-- `BUSY`, the block's only flag (10_state.md R24). -/
  busy : Bool
  /-- `SEQ`, the sequencer's position (10_state.md R25). -/
  seq : Seq
  /-- `OLD`, the byte read by the read half of a read-modify-write (10_state.md R26). DESIGN CHOICE: it keeps its last value
  between commands, and so do `S1` and `S2` (log entry 15). -/
  old : Byte
  /-- `S1`, the first sample of tick verification (10_state.md R26; between commands as `OLD`, log entry 15). -/
  s1 : BitVec 7
  /-- `S2`, the second sample of tick verification (10_state.md R26; between commands as `OLD`, log entry 15). -/
  s2 : BitVec 7
  /-- `ACC`, the result payload while a command runs (10_state.md R26; log entry 6). -/
  acc : Payload
  /-- The register space: the RTC device's seven bytes and the sensor's four pairs (10_state.md R28 to R38). -/
  mem : Memory
  /-- MODEL'S OWN: the configuration of 00_scope.md R5, which no step changes (log entry 2). -/
  cfg : Config
  /-- MODEL'S OWN: the environment's draws to come (log entry 3). -/
  env : Env
  /-- MODEL'S OWN: what the host does next, first action first (log entry 4). -/
  agenda : List HostAct
  deriving DecidableEq, Repr

/-- No draw listed and none taken: every draw to come is a free value. -/
def Env.unlisted : Env where
  bus := ⟨[], 0⟩
  settle := ⟨[], 0⟩
  tick := ⟨[], 0⟩

/-- Power-on reset of the block (70_reset_and_hazards.md R240): `CMD = 0`, `RSP = 0`, `BUSY = 0`, `SEQ = Idle`. The
devices keep whatever they hold and no transaction is issued (R241, R242), so the register space is an argument, as
are the configuration, the draws and the host's actions. The scratch registers, which R240 leaves unspecified, are
zero (log entry 5). -/
def State.powerOn (c : Config) (m : Memory) (e : Env) (a : List HostAct) : State where
  cmd := 0
  rsp := 0
  busy := false
  seq := .idle
  old := 0
  s1 := 0
  s2 := 0
  acc := 0
  mem := m
  cfg := c
  env := e
  agenda := a

/-- The machine right after reset: the default configuration (log entry 1), no device register listed (log entry 5),
no draw listed, no host action. -/
def State.reset : State := State.powerOn Config.standard ⟨[]⟩ Env.unlisted []

end Sys2Proof.Machine
end

