-- ==== Sys2Proof/Machine/Memory.lean ====
section
/-! DEFINITION. The register space: its cells, the addresses of the eleven register cells, and the registers by name
(20_memory.md R60, R64, R67). -/

namespace Sys2Proof.Machine

/-! ### Cells -/

/-- What an address that is not listed reads as (log entry 5). -/
def Memory.unlisted : Byte := 0

/-- The byte of an address in a list of cells. -/
def Memory.lookup : List Host.Cell → Nat → Byte
  | [], _ => Memory.unlisted
  | c :: cs, a => if c.1 = a then c.2 else Memory.lookup cs a

/-- Put a cell into a list of cells with rising addresses. -/
def Memory.place : List Host.Cell → Host.Cell → List Host.Cell
  | [], c => [c]
  | d :: ds, c => if c.1 < d.1 then c :: d :: ds else d :: Memory.place ds c

/-- A list of cells with the byte of one address replaced; the byte an unlisted address reads as is not listed. -/
def Memory.insert (cs : List Host.Cell) (a : Nat) (b : Byte) : List Host.Cell :=
  let rest := cs.filter (fun c => c.1 != a)
  if b = Memory.unlisted then rest else Memory.place rest (a, b)

/-- Read one byte. -/
def Memory.read (m : Memory) (a : Nat) : Byte := Memory.lookup m.cells a

/-- Write one byte. -/
def Memory.write (m : Memory) (a : Nat) (b : Byte) : Memory := ⟨Memory.insert m.cells a b⟩

/-- Write a list of cells, the first first. -/
def Memory.writeAll (m : Memory) (l : List Host.Cell) : Memory := l.foldl (fun m c => m.write c.1 c.2) m

/-- The addresses are at least `lo` and strictly rising, and no byte is the unlisted one. -/
def Memory.sortedAbove : Nat → List Host.Cell → Bool
  | _, [] => true
  | lo, c :: cs => decide (lo ≤ c.1) && decide (c.2 ≠ Memory.unlisted) && Memory.sortedAbove (c.1 + 1) cs

/-- The canonical form: addresses strictly rising, no entry equal to what an unlisted address reads as. -/
def Memory.wf (m : Memory) : Bool := Memory.sortedAbove 0 m.cells

/-! ### Addresses -/

/-- The memory key of the first byte of a register address. A register of the RTC device is the byte at its key; a pair
of the sensor is the byte `HI` at its key and the byte `LO` at the key after it (20_memory.md R60, R64; log entry 7). -/
def regKey (a : RegAddr) : Nat := (a.device * 256 + a.offset.toNat) * 2

/-- The register offset of an RTC register (00_scope.md R5). -/
def rtcOffset (c : Config) : RtcReg → Byte
  | .sec => c.regSec
  | .min => c.regMin
  | .hour => c.regHour
  | .wkday => c.regWkday
  | .day => c.regDay
  | .month => c.regMonth
  | .year => c.regYear

/-- `(RTC_DEV, REG_x)` (20_memory.md R60). -/
def rtcAddr (c : Config) (r : RtcReg) : RegAddr := ⟨c.rtcDev, rtcOffset c r⟩

/-- The register offset of a temperature pair (00_scope.md R5). -/
def tmpOffset (c : Config) : TmpPair → Byte
  | .upper => c.regTupper
  | .lower => c.regTlower
  | .crit => c.regTcrit
  | .amb => c.regTamb

/-- `(TMP_DEV, REG_q)` (20_memory.md R60). -/
def tmpAddr (c : Config) (q : TmpPair) : RegAddr := ⟨c.tmpDev, tmpOffset c q⟩

/-- The memory key of an RTC register. -/
def rtcKey (c : Config) (r : RtcReg) : Nat := regKey (rtcAddr c r)

/-- The memory key of the high byte of a temperature pair. -/
def tmpKey (c : Config) (q : TmpPair) : Nat := regKey (tmpAddr c q)

/-! ### Registers by name -/

/-- The byte an RTC register holds. -/
def State.rtc (s : State) (r : RtcReg) : Byte := s.mem.read (rtcKey s.cfg r)

/-- The high byte a temperature pair holds. -/
def State.tmpHi (s : State) (q : TmpPair) : Byte := s.mem.read (tmpKey s.cfg q)

/-- The low byte a temperature pair holds. -/
def State.tmpLo (s : State) (q : TmpPair) : Byte := s.mem.read (tmpKey s.cfg q + 1)

/-- `OSC_EN`, bit 7 of `SEC` (10_state.md R28): the clock is enabled. -/
def State.oscEn (s : State) : Bool := (s.rtc .sec).getLsbD 7

/-- `BAT_EN`, bit 3 of `WKDAY` (10_state.md R31). -/
def State.batEn (s : State) : Bool := (s.rtc .wkday).getLsbD 3

/-- A memory with a pair written at a key, `HI` first (20_memory.md R64). -/
def Memory.writePair (m : Memory) (k : Nat) (hi lo : Byte) : Memory := (m.write k hi).write (k + 1) lo

end Sys2Proof.Machine
end

