-- ==== Sys2Proof/Machine/Operands.lean ====
section
/-! DEFINITION. The codecs and the operand checks: BCD (40_bcd_codec.md R130, R131), the 13-bit temperature word
(41_temperature_codec.md R140 to R143), the field table and the calendar (42_rtc.md R151, R155, R156). -/

namespace Sys2Proof.Machine

/-! ### BCD -/

/-- The packed BCD byte of a value in `0..99`: high nibble tens, low nibble ones (40_bcd_codec.md R130). -/
def bcdByte (v : Nat) : Byte := BitVec.ofNat 8 ((v / 10) <<< 4 ||| v % 10)

/-- `BcdEncode` (40_bcd_codec.md R130). A negative operand cannot be expressed (10_state.md R41). -/
def bcdEncode (v : Nat) : Except Err Byte :=
  if v > 99 then .error (.range .bcdValue) else .ok (bcdByte v)

/-- Both nibbles are decimal digits (40_bcd_codec.md R131). -/
def isBcd (b : Byte) : Bool := decide ((b >>> 4).toNat ≤ 9) && decide ((b &&& 0x0F).toNat ≤ 9)

/-- `(b >> 4) * 10 + (b & 0xF)` (40_bcd_codec.md R131). -/
def bcdValue (b : Byte) : Nat := (b >>> 4).toNat * 10 + (b &&& 0x0F).toNat

/-- `BcdDecode`, with the detail its caller reports (40_bcd_codec.md R131; 42_rtc.md R152). -/
def bcdDecode (k : FormatDetail) (b : Byte) : Except Err Nat :=
  if isBcd b then .ok (bcdValue b) else .error (.format k)

/-! ### Temperature -/

/-- `TempDecode` (41_temperature_codec.md R141): the three high bits of the high byte are masked off; total. -/
def tempDecode (h l : Byte) : Int :=
  if (h &&& 0x1F).getLsbD 4 then ((h &&& 0x0F).toNat * 256 + l.toNat : Int) - 4096
  else ((h &&& 0x1F).toNat * 256 + l.toNat : Int)

/-- `W`, the 13-bit two's complement of a T16 (41_temperature_codec.md R142). -/
def tempWord (t : Int) : Nat := (t % 8192).toNat

/-- `W >> 8` (41_temperature_codec.md R142). -/
def tempHigh (t : Int) : Byte := BitVec.ofNat 8 (tempWord t >>> 8)

/-- `W & 0xFF` (41_temperature_codec.md R142). -/
def tempLow (t : Int) : Byte := BitVec.ofNat 8 (tempWord t &&& 0xFF)

/-- `TempEncode`, with the bounds of the configuration, both inclusive (41_temperature_codec.md R142, R143). -/
def tempEncode (c : Config) (t : Int) : Except Err (Byte × Byte) :=
  if t < c.tempMin16 ∨ t > c.tempMax16 then .error (.range .tempValue) else .ok (tempHigh t, tempLow t)

/-! ### The field table (42_rtc.md R151; 10_state.md R35) -/

/-- The register of a date-time field. -/
def fieldReg : TimeField → RtcReg
  | .second => .sec
  | .minute => .min
  | .hour => .hour
  | .day => .day
  | .month => .month
  | .year => .year

/-- `MASK_x`, the bits of the register the field holds. -/
def fieldMask : TimeField → Byte
  | .second => 0x7F
  | .minute => 0xFF
  | .hour => 0x3F
  | .day => 0xFF
  | .month => 0x1F
  | .year => 0xFF

/-- The mask of `OSC_EN` (42_rtc.md R151). -/
def maskOsc : Byte := 0x80

/-- `MASK_BAT`, the mask of `BAT_EN` (42_rtc.md R151). -/
def maskBat : Byte := 0x08

/-- `state << 7` (42_rtc.md R151). -/
def oscByte (d : ClockState) : Byte := if d.bit then 0x80 else 0x00

/-- `state << 3` (42_rtc.md R151). -/
def batByte (b : BatteryState) : Byte := if b.bit then 0x08 else 0x00

/-- The byte with the bits of `v` where the mask is 1 and the bits of `old` where it is 0 (20_memory.md R68). -/
def mergeBits (old m v : Byte) : Byte := (old &&& ~~~m) ||| (v &&& m)

/-- The result payload with a field's value at the field's place in format RDT (30_encoding.md R102); the year is the
full year, `2000 + yy` (42_rtc.md R151). -/
def fieldResult (f : TimeField) (v : Nat) : Payload :=
  match f with
  | .second => BitVec.ofNat 56 v
  | .minute => BitVec.ofNat 56 v <<< 8
  | .hour => BitVec.ofNat 56 v <<< 16
  | .day => BitVec.ofNat 56 v <<< 24
  | .month => BitVec.ofNat 56 v <<< 32
  | .year => BitVec.ofNat 56 (2000 + v) <<< 40

/-! ### The calendar -/

/-- A leap year, in `2000..2099` (42_rtc.md R156). -/
def isLeap (year : Nat) : Bool := year % 4 == 0

/-- `DaysInMonth` (42_rtc.md R156); no month but 1 to 12 has days. -/
def daysInMonth (year month : Nat) : Nat :=
  match month with
  | 1 => 31
  | 2 => if isLeap year then 29 else 28
  | 3 => 31
  | 4 => 30
  | 5 => 31
  | 6 => 30
  | 7 => 31
  | 8 => 31
  | 9 => 30
  | 10 => 31
  | 11 => 30
  | 12 => 31
  | _ => 0

/-- `CheckDateTime` (42_rtc.md R155): six checks in this order, the first failure reported. -/
def checkDateTime (dt : DateTime) : Except Err Unit :=
  if dt.year < 2000 ∨ dt.year > 2099 then .error (.range .dtYear)
  else if dt.month < 1 ∨ dt.month > 12 then .error (.range .dtMonth)
  else if dt.day < 1 ∨ dt.day > daysInMonth dt.year dt.month then .error (.range .dtDay)
  else if dt.hour > 23 then .error (.range .dtHour)
  else if dt.minute > 59 then .error (.range .dtMinute)
  else if dt.second > 59 then .error (.range .dtSecond)
  else .ok ()

/-- The integer RTC.SDT writes for each field: the year less 2000 (42_rtc.md R151). -/
def dateTimeField (dt : DateTime) : TimeField → Nat
  | .second => dt.second
  | .minute => dt.minute
  | .hour => dt.hour
  | .day => dt.day
  | .month => dt.month
  | .year => dt.year - 2000

/-- The epoch of RTC.RST, 2000-01-01 00:00:00 (42_rtc.md R163). -/
def epoch : DateTime := ⟨2000, 1, 1, 0, 0, 0⟩

end Sys2Proof.Machine
end

