-- ==== Sys2Proof/Machine/Device.lean ====
section
/-! DEFINITION. The environment behind the bus: the draws, the tick of the RTC device with its calendar carry
(60_exceptions.md R216 to R219), the gap between two transactions and the settle wait (R220), and the sensor's ambient
sample (R222). -/

namespace Sys2Proof.Machine

/-! ### Draws (log entry 3) -/

/-- The `k`-th draw to come: the listed one, or the free value of its number. -/
def drawAt {α : Type} (free : Nat → α) (d : Draws α) (k : Nat) : α :=
  match d.listed[k]? with
  | some x => x
  | none => free (d.taken + k)

/-- The stream after its next draw is taken. -/
def drawNext {α : Type} (d : Draws α) : Draws α := ⟨d.listed.tail, d.taken + 1⟩

/-- The draw of the `k`-th bus transaction to come. -/
def State.busDraw (s : State) (k : Nat) : BusDraw := drawAt Config.freeBus s.env.bus k

/-- The draw of the `k`-th settle wait to come. -/
def State.settleDraw (s : State) (k : Nat) : SettleDraw := drawAt Config.freeSettle s.env.settle k

/-- The draw of the `k`-th tick to come. -/
def State.tickDraw (s : State) (k : Nat) : ClockRegs := drawAt Config.freeTick s.env.tick k

/-- The draw of the next bus transaction is taken. -/
def State.takeBus (s : State) : State := { s with env := { s.env with bus := drawNext s.env.bus } }

/-- The draw of the next settle wait is taken. -/
def State.takeSettle (s : State) : State := { s with env := { s.env with settle := drawNext s.env.settle } }

/-- The draw of the next tick is taken. -/
def State.takeTick (s : State) : State := { s with env := { s.env with tick := drawNext s.env.tick } }

/-! ### A tick on a malformed field (60_exceptions.md R219)

`j` is the draw. Every field from the named one on takes the draw's field bits; preserved bits are kept. -/

/-- `YEAR` takes any value. -/
def scrambleYear (j c : ClockRegs) : ClockRegs := { c with year := mergeBits c.year (fieldMask .year) j.year }

/-- The field bits of `MONTH`, and `YEAR`, take any values. -/
def scrambleMonth (j c : ClockRegs) : ClockRegs :=
  scrambleYear j { c with month := mergeBits c.month (fieldMask .month) j.month }

/-- `DAY` and the fields after it take any values. -/
def scrambleDay (j c : ClockRegs) : ClockRegs :=
  scrambleMonth j { c with day := mergeBits c.day (fieldMask .day) j.day }

/-- The field bits of `HOUR` and of the registers after it take any values. -/
def scrambleHour (j c : ClockRegs) : ClockRegs :=
  scrambleDay j { c with hour := mergeBits c.hour (fieldMask .hour) j.hour }

/-- `MIN` and the fields after it take any values. -/
def scrambleMinute (j c : ClockRegs) : ClockRegs :=
  scrambleHour j { c with min := mergeBits c.min (fieldMask .minute) j.min }

/-- The field bits of `SEC` and of the registers after it take any values; `OSC_EN` is kept. -/
def scrambleSecond (j c : ClockRegs) : ClockRegs :=
  scrambleMinute j { c with sec := mergeBits c.sec (fieldMask .second) j.sec }

/-! ### The carry chain (60_exceptions.md R218) -/

/-- A field of a register holds BCD and its value lies within the two bounds (10_state.md R35). -/
def fieldWithin (f : TimeField) (b : Byte) (lo hi : Nat) : Bool :=
  isBcd (b &&& fieldMask f) && decide (lo ≤ bcdValue (b &&& fieldMask f)) && decide (bcdValue (b &&& fieldMask f) ≤ hi)

/-- The value of a field of a register. -/
def fieldOf (f : TimeField) (b : Byte) : Nat := bcdValue (b &&& fieldMask f)

/-- A register with a new value in its field, the preserved bits kept. -/
def putField (f : TimeField) (b : Byte) (v : Nat) : Byte := mergeBits b (fieldMask f) (bcdByte v)

/-- `CarryYear`. -/
def carryYear (j c : ClockRegs) : ClockRegs :=
  if fieldWithin .year c.year 0 99 then
    (if fieldOf .year c.year ≤ 98 then { c with year := putField .year c.year (fieldOf .year c.year + 1) }
    else { c with year := putField .year c.year 0 })
  else scrambleYear j c

/-- `CarryMonth`. -/
def carryMonth (j c : ClockRegs) : ClockRegs :=
  if fieldWithin .month c.month 1 12 then
    (if fieldOf .month c.month ≤ 11 then { c with month := putField .month c.month (fieldOf .month c.month + 1) }
    else carryYear j { c with month := putField .month c.month 1 })
  else scrambleMonth j c

/-- The length of the month the registers show. -/
def monthLength (c : ClockRegs) : Nat := daysInMonth (2000 + fieldOf .year c.year) (fieldOf .month c.month)

/-- `CarryDay`. Its input fields are `DAY`, `MONTH` and `YEAR`; where one of them is malformed, all three take any values
(R219; log entry 8). -/
def carryDay (j c : ClockRegs) : ClockRegs :=
  if fieldWithin .year c.year 0 99 && fieldWithin .month c.month 1 12 && fieldWithin .day c.day 1 (monthLength c) then
    (if fieldOf .day c.day < monthLength c then { c with day := putField .day c.day (fieldOf .day c.day + 1) }
    else carryMonth j { c with day := putField .day c.day 1 })
  else scrambleDay j c

/-- `CarryHour`. -/
def carryHour (j c : ClockRegs) : ClockRegs :=
  if fieldWithin .hour c.hour 0 23 then
    (if fieldOf .hour c.hour ≤ 22 then { c with hour := putField .hour c.hour (fieldOf .hour c.hour + 1) }
    else carryDay j { c with hour := putField .hour c.hour 0 })
  else scrambleHour j c

/-- `CarryMinute`. -/
def carryMinute (j c : ClockRegs) : ClockRegs :=
  if fieldWithin .minute c.min 0 59 then
    (if fieldOf .minute c.min ≤ 58 then { c with min := putField .minute c.min (fieldOf .minute c.min + 1) }
    else carryHour j { c with min := putField .minute c.min 0 })
  else scrambleMinute j c

/-- `Tick` on the six time registers, `OSC_EN` being set (60_exceptions.md R217). -/
def tickRegs (j c : ClockRegs) : ClockRegs :=
  if fieldWithin .second c.sec 0 59 then
    (if fieldOf .second c.sec ≤ 58 then { c with sec := putField .second c.sec (fieldOf .second c.sec + 1) }
    else carryMinute j { c with sec := putField .second c.sec 0 })
  else scrambleSecond j c

/-! ### The device's steps -/

/-- The six time registers. -/
def State.clock (s : State) : ClockRegs where
  sec := s.rtc .sec
  min := s.rtc .min
  hour := s.rtc .hour
  day := s.rtc .day
  month := s.rtc .month
  year := s.rtc .year

/-- The six time registers written back; `WKDAY` is never touched (60_exceptions.md R218). -/
def Memory.writeClock (m : Memory) (c : Config) (r : ClockRegs) : Memory :=
  (((((m.write (rtcKey c .sec) r.sec).write (rtcKey c .min) r.min).write (rtcKey c .hour) r.hour).write
    (rtcKey c .day) r.day).write (rtcKey c .month) r.month).write (rtcKey c .year) r.year

/-- `Tick`, enabled only while `SEC[7] = 1`: while it is 0 the device makes no step (60_exceptions.md R217). -/
def State.tick (s : State) : State :=
  if s.oscEn then { s.takeTick with mem := s.mem.writeClock s.cfg (tickRegs (s.tickDraw 0) s.clock) } else s

/-- So many ticks, one after the other. -/
def State.ticks : Nat → State → State
  | 0, s => s
  | k + 1, s => State.ticks k s.tick

/-- What the environment does in the gap before a bus transaction: up to `GAP_TICKS_MAX` ticks (60_exceptions.md R220;
20_memory.md R73), then what something other than the block and the device writes (none under `NoOtherBusMaster`). -/
def State.gap (s : State) : State :=
  let t := State.ticks (min (s.busDraw 0).gap s.cfg.gapTicksMax) s
  { t with mem := t.mem.writeAll (s.busDraw 0).foreign }

/-- What the environment does during one settle wait: `K` ticks, `K = 0` if the clock is stopped at the start and at most
`SETTLE_TICKS_MAX` otherwise (60_exceptions.md R220). -/
def State.settle (s : State) : State :=
  let k := if s.oscEn then min (s.settleDraw 0).ticks s.cfg.settleTicksMax else 0
  let t := State.ticks k s
  { t.takeSettle with mem := t.mem.writeAll (s.settleDraw 0).foreign }

/-- The sensor measures: `TAMB` takes the sample (60_exceptions.md R222). -/
def State.sample (s : State) (hi lo : Byte) : State := { s with mem := s.mem.writePair (tmpKey s.cfg .amb) hi lo }

end Sys2Proof.Machine
end

