-- ==== Sys2Proof/Machine/Flags.lean ====
section
/-! DEFINITION. The outcome of a command as the host sees it: the status and detail codes (60_exceptions.md R200 to
R205), the response words (30_encoding.md R102, R103), and the flag `BUSY` with `SEQ` (10_state.md R24, R25). -/

namespace Sys2Proof.Machine

/-- `RSP[63:56]` (60_exceptions.md R200). -/
def statusCode : Status → Byte
  | .ok => 0x00
  | .rangeError => 0x01
  | .formatError => 0x02
  | .hardwareFault => 0x03
  | .channelDisabledError => 0x04
  | .illegalCommand => 0x05

/-- The details of `RangeError` (60_exceptions.md R201). -/
def rangeCode : RangeDetail → Byte
  | .bcdValue => 0x01
  | .tempValue => 0x02
  | .dtYear => 0x10
  | .dtMonth => 0x11
  | .dtDay => 0x12
  | .dtHour => 0x13
  | .dtMinute => 0x14
  | .dtSecond => 0x15

/-- The details of `FormatError` (60_exceptions.md R202; the column of 42_rtc.md R151). -/
def formatCode : FormatDetail → Byte
  | .bcdNibble => 0x01
  | .field .second => 0x10
  | .field .minute => 0x11
  | .field .hour => 0x12
  | .field .day => 0x13
  | .field .month => 0x14
  | .field .year => 0x15

/-- The details of `HardwareFault` (60_exceptions.md R203). -/
def faultCode : FaultDetail → Byte
  | .bus => 0x01
  | .tickVerify => 0x02

/-- The details of `IllegalCommand` (60_exceptions.md R205). -/
def illegalCode : IllegalDetail → Byte
  | .badOpcode => 0x01
  | .badMbz => 0x02

/-- The status of an error kind. -/
def errStatus : Err → Status
  | .range _ => .rangeError
  | .format _ => .formatError
  | .hardware _ => .hardwareFault
  | .illegal _ => .illegalCommand

/-- The detail code of an error. -/
def errDetail : Err → Byte
  | .range d => rangeCode d
  | .format d => formatCode d
  | .hardware d => faultCode d
  | .illegal d => illegalCode d

/-- A response word: the status above the result payload (30_encoding.md R100). -/
def responseWord (st : Status) (p : Payload) : Word := statusCode st ++ p

/-- The response of a command that ends with `OK` (30_encoding.md R102). -/
def okResponse (p : Payload) : Word := responseWord .ok p

/-- The response of a command that ends with an error: `RSP[55:8]` zero, `RSP[7:0]` the detail (30_encoding.md
R103; 60_exceptions.md R208). -/
def errResponse (e : Err) : Word := responseWord (errStatus e) (payloadB8 (errDetail e))

/-- `RSP.status` (30_encoding.md R100). -/
def statusOf (w : Word) : Byte := w.extractLsb' 56 8

/-- `RSP[55:0]`, the result payload (30_encoding.md R100). -/
def resultOf (w : Word) : Payload := w.extractLsb' 0 56

/-- A command begins: `BUSY = 1`, `SEQ = Busy(op, 0)` (10_state.md R24, R25). -/
def State.begin (s : State) (op : Byte) : State := { s with busy := true, seq := .busy op 0 }

/-- The sequencer has completed one more transaction or settle wait (10_state.md R25). -/
def State.advance (s : State) : State :=
  match s.seq with
  | .idle => s
  | .busy op n => { s with seq := .busy op (n + 1) }

/-- A command ends: `RSP` is written, and in the same step `BUSY = 0` and `SEQ = Idle` (10_state.md R22, R24, R25).
DESIGN CHOICE: the scratch registers keep their last values (93_implementation_defined.md U4 allows any; log entries 6
and 15). -/
def State.respond (s : State) (r : Word) : State := { s with rsp := r, busy := false, seq := .idle }

end Sys2Proof.Machine
end

