-- ==== Sys2Proof/Machine/Ops.lean ====
section
/-! DEFINITION. The shared operations of the sequencer: the bus primitives (20_memory.md R61 to R63), the
read-modify-write (R68, R70), the helpers of 42_rtc.md and 43_temperature_registers.md, the abort
(60_exceptions.md R208), the acceptance of a command (10_state.md R24), and the run of a command's steps. -/

namespace Sys2Proof.Machine

/-! ### One step of the sequencer -/

/-- What a step of the sequencer gives: the state, and the error it raises, if it raises one. -/
abbrev StepOut := State × Option Err

/-- A step of a running command: one bus transaction or one settle wait (10_state.md R25). -/
abbrev SeqStep := State → StepOut

/-- A command: what it does before its first transaction (its operand check, and a pure result if it has one), its bus
transactions and settle waits in the order of its pseudocode, and whether it catches a `HardwareFault` (only RTC.RST
does, 60_exceptions.md R211). -/
structure Command where
  start : Config → Except Err Payload
  steps : List SeqStep
  catches : Bool

/-! ### Bus primitives (20_memory.md R61, R62, R63) -/

/-- The error of a failed transaction. -/
def busFault : Err := .hardware .bus

/-- The environment before a transaction. The second sample of tick verification follows the settle wait and has no gap
of its own (70_reset_and_hazards.md R251); of its draw only what does not happen in a gap is used. -/
def State.beforeBus (gap : Bool) (s : State) : State := (if gap then s.gap else s).takeBus

/-- `MemRead(a, 1)`: the byte read is handed to `use`, in the same step. A failed read changes nothing and hands on no
value (R62, R63). -/
def readByte (gap : Bool) (a : RegAddr) (use : Byte → State → StepOut) : SeqStep := fun s =>
  let t := s.beforeBus gap
  if (s.busDraw 0).fails then (t, some busFault) else use (t.mem.read (regKey a)) t

/-- `MemWrite(a, 1, b)`. A failed write leaves the drawn byte, any byte (R63). -/
def writeByte (a : RegAddr) (b : Byte) : SeqStep := fun s =>
  let t := s.beforeBus true
  if (s.busDraw 0).fails then ({ t with mem := t.mem.write (regKey a) (s.busDraw 0).lo }, some busFault)
  else ({ t with mem := t.mem.write (regKey a) b }, none)

/-- `MemRead(q, 2)`, high byte first (R61, R64). A successful read of `TAMB` returns the sensor's sample at that moment, a
draw (60_exceptions.md R222). -/
def readPair (q : TmpPair) (use : Byte → Byte → State → StepOut) : SeqStep := fun s =>
  let t := s.beforeBus true
  if (s.busDraw 0).fails then (t, some busFault)
  else
    let u := if q = .amb then t.sample (s.busDraw 0).hi (s.busDraw 0).lo else t
    use (u.tmpHi q) (u.tmpLo q) u

/-- `MemWrite(q, 2, (hi, lo))`, high byte first (R61, R64). A failed write leaves any two bytes (R63). -/
def writePair (q : TmpPair) (hi lo : Byte) : SeqStep := fun s =>
  let t := s.beforeBus true
  if (s.busDraw 0).fails then
    ({ t with mem := t.mem.writePair (tmpKey t.cfg q) (s.busDraw 0).hi (s.busDraw 0).lo }, some busFault)
  else ({ t with mem := t.mem.writePair (tmpKey t.cfg q) hi lo }, none)

/-! ### Steps on the RTC registers -/

/-- Read an RTC register and hand its byte on. -/
def readReg (r : RtcReg) (use : Byte → State → StepOut) : SeqStep := fun s =>
  readByte true (rtcAddr s.cfg r) use s

/-- Write an RTC register. -/
def writeReg (r : RtcReg) (b : Byte) : SeqStep := fun s => writeByte (rtcAddr s.cfg r) b s

/-- The read half of `RmwBits`: `OLD <- MemRead(a, 1)` (20_memory.md R68). -/
def rmwRead (r : RtcReg) : SeqStep := readReg r (fun b t => ({ t with old := b }, none))

/-- The write half of `RmwBits`: the bits of `v` where the mask is 1, the bits of `OLD` where it is 0. The write is
always issued (20_memory.md R68). -/
def rmwWrite (r : RtcReg) (m v : Byte) : SeqStep := fun s => writeReg r (mergeBits s.old m v) s

/-- `RmwBits(a, m, v)`: two transactions (20_memory.md R68). -/
def rmwBits (r : RtcReg) (m v : Byte) : List SeqStep := [rmwRead r, rmwWrite r m v]

/-- `WriteField(a, m, v)`: a whole-byte field is written plainly (20_memory.md R70). -/
def writeField (r : RtcReg) (m v : Byte) : List SeqStep := if m = 0xFF then [writeReg r v] else rmwBits r m v

/-- `WriteFieldBcd` for a field of the table and a value in `0..99` (42_rtc.md R153). -/
def writeFieldBcd (f : TimeField) (v : Nat) : List SeqStep := writeField (fieldReg f) (fieldMask f) (bcdByte v)

/-- `ReadField`: read, mask, check the BCD, and put the value in its place of `ACC` (42_rtc.md R152, R161). -/
def readField (f : TimeField) : SeqStep :=
  readReg (fieldReg f) (fun b t =>
    match bcdDecode (.field f) (b &&& fieldMask f) with
    | .ok v => ({ t with acc := t.acc ||| fieldResult f v }, none)
    | .error e => (t, some e))

/-- Read a register and answer one bit of it (42_rtc.md R157, R159). -/
def readBit (r : RtcReg) (i : Nat) : SeqStep :=
  readReg r (fun b t => ({ t with acc := payloadS1 (b.getLsbD i) }, none))

/-! ### Tick verification (42_rtc.md R154) -/

/-- The seconds field as a sample: seven raw bits, not decoded. -/
def secondsSample (b : Byte) : BitVec 7 := b.extractLsb' 0 7

/-- The first sample. -/
def sampleFirst : SeqStep := readReg .sec (fun b t => ({ t with s1 := secondsSample b }, none))

/-- `Wait(SETTLE)`: no bus transaction. -/
def waitSettle : SeqStep := fun s => (s.settle, none)

/-- The samples confirm the desired state: they differ if it is `Running`, they are equal if it is `Stopped`. -/
def confirms (d : ClockState) (a b : BitVec 7) : Bool :=
  match d with
  | .running => a != b
  | .stopped => a == b

/-- The second sample and the comparison. -/
def sampleSecond (d : ClockState) : SeqStep := fun s =>
  readByte false (rtcAddr s.cfg .sec) (fun b t =>
    let u := { t with s2 := secondsSample b }
    (u, if confirms d u.s1 u.s2 then none else some (.hardware .tickVerify))) s

/-- `TickVerify(d)`: two transactions with the settle wait between them. -/
def tickVerify (d : ClockState) : List SeqStep := [sampleFirst, waitSettle, sampleSecond d]

/-! ### Steps on the temperature pairs (43_temperature_registers.md R180) -/

/-- `GetTemp(q)`, and `RSP.value <- t & 0xFFFF`. -/
def getTemp (q : TmpPair) : SeqStep :=
  readPair q (fun h l t => ({ t with acc := payloadV16 (t16Bits (tempDecode h l)) }, none))

/-- The check of `SetTemp`: the temperature is encoded before the bus is touched. -/
def setTempStart (t : Int) (c : Config) : Except Err Payload :=
  match tempEncode c t with
  | .ok _ => .ok 0
  | .error e => .error e

/-- The write of `SetTemp(q, t)`: both bytes whole, no preceding read. -/
def setTemp (q : TmpPair) (t : Int) : SeqStep := writePair q (tempHigh t) (tempLow t)

/-! ### Ends of a command -/

/-- The completion: status `OK` and the result payload of `ACC`. -/
def complete (s : State) : State := s.respond (okResponse s.acc)

/-- `Abort(E, k)`: the one way a command ends early. The response is written, the block is idle, and nothing else happens;
no state is saved and nothing is rolled back (60_exceptions.md R208, R209). There is no return from it: the block
accepts the next command as after any other (R210). -/
def abort (e : Err) (s : State) : State := s.respond (errResponse e)

/-- What follows a `raise`: RTC.RST catches every `HardwareFault` and answers `OK` with `success = 0` (42_rtc.md R163;
60_exceptions.md R211); everything else aborts. -/
def raised (catches : Bool) (e : Err) (s : State) : State :=
  match e with
  | .hardware _ => if catches then s.respond (okResponse 0) else abort e s
  | _ => abort e s

/-- One step of a running command, and what follows it. -/
def takeStep (c : Command) (f : SeqStep) (s : State) : State :=
  match (f s).2 with
  | none => (f s).1.advance
  | some e => raised c.catches e (f s).1

/-! ### The run of a command -/

/-- The steps in order; the first error ends them, and no later step runs (60_exceptions.md R208, R209). -/
def doSteps : List SeqStep → State → StepOut
  | [], s => (s, none)
  | f :: fs, s =>
    match (f s).2 with
    | none => doSteps fs (f s).1.advance
    | some e => ((f s).1, some e)

/-- What follows the steps: the completion, or what an error brings. -/
def finish (catches : Bool) (r : StepOut) : State :=
  match r.2 with
  | none => complete r.1
  | some e => raised catches e r.1

/-- A whole command, from its acceptance to its response: the operand check, then the steps (60_exceptions.md R207). -/
def runCommand (op : Byte) (c : Command) (s : State) : State :=
  match c.start s.cfg with
  | .error e => raised c.catches e (s.begin op)
  | .ok p => finish c.catches (doSteps c.steps { s.begin op with acc := p })

/-! ### Acceptance (10_state.md R24; 70_reset_and_hazards.md R254) -/

/-- The host presents a command word. While `BUSY = 1` it is not accepted and changes nothing; while `BUSY = 0` it is
written to `CMD` and the command begins. -/
def present (w : Word) (s : State) : State :=
  if s.busy then s else { s with cmd := w }.begin (opcodeOf w)

end Sys2Proof.Machine
end

