-- ==== Sys2Proof/Machine/Bcd.lean ====
section
/-! DEFINITION. The BCD codec commands (40_bcd_codec.md R133, R134). -/

namespace Sys2Proof.Machine

/-- BCD.ENC (R133): no transaction; `RSP.byte <- BcdEncode(value)`. -/
def bcdEnc (value : Nat) : Command where
  start := fun _ =>
    match bcdEncode value with
    | .ok b => .ok (payloadB8 b)
    | .error e => .error e
  steps := []
  catches := false

/-- BCD.DEC (R134): no transaction; `RSP.byte <- BcdDecode(byte)`, a plain binary integer. -/
def bcdDec (byte : Byte) : Command where
  start := fun _ =>
    match bcdDecode .bcdNibble byte with
    | .ok v => .ok (payloadB8 (BitVec.ofNat 8 v))
    | .error e => .error e
  steps := []
  catches := false

/-- The meaning of BCD.ENC. -/
def execBcdEnc (value : Nat) (s : State) : Host.Outcome State Fault Refusal :=
  .next (runCommand 0x01 (bcdEnc value) s)

/-- The meaning of BCD.DEC. -/
def execBcdDec (byte : Byte) (s : State) : Host.Outcome State Fault Refusal :=
  .next (runCommand 0x02 (bcdDec byte) s)

end Sys2Proof.Machine
end

