-- ==== Sys2Proof/Machine/Rtc.lean ====
section
/-! DEFINITION. The RTC commands (42_rtc.md R157 to R163). -/

namespace Sys2Proof.Machine

/-- A command with no operand check and no result before its transactions. -/
def noCheck : Config → Except Err Payload := fun _ => .ok 0

/-- RTC.GCLK (R157): read `SEC`; `RSP.state <- b[7]`, the enable bit. -/
def rtcGclk : Command where
  start := noCheck
  steps := [readBit .sec 7]
  catches := false

/-- RTC.SCLK (R158): write `OSC_EN` by read-modify-write, also where it already has the value, then verify. -/
def rtcSclk (d : ClockState) : Command where
  start := noCheck
  steps := rmwBits .sec maskOsc (oscByte d) ++ tickVerify d
  catches := false

/-- RTC.GBAT (R159): read `WKDAY`; `RSP.state <- b[3]`. -/
def rtcGbat : Command where
  start := noCheck
  steps := [readBit .wkday 3]
  catches := false

/-- RTC.SBAT (R160): write `BAT_EN` by read-modify-write; no verification read. -/
def rtcSbat (b : BatteryState) : Command where
  start := noCheck
  steps := rmwBits .wkday maskBat (batByte b)
  catches := false

/-- RTC.GDT (R161): six reads, each checked as it is read; no range check; `WKDAY` is not read. -/
def rtcGdt : Command where
  start := noCheck
  steps := [readField .second, readField .minute, readField .hour, readField .day, readField .month, readField .year]
  catches := false

/-- The six field writes of a date-time, in the fixed order (R162). -/
def dateTimeSteps (dt : DateTime) : List SeqStep :=
  writeFieldBcd .second (dateTimeField dt .second) ++ writeFieldBcd .minute (dateTimeField dt .minute) ++
    writeFieldBcd .hour (dateTimeField dt .hour) ++ writeFieldBcd .day (dateTimeField dt .day) ++
    writeFieldBcd .month (dateTimeField dt .month) ++ writeFieldBcd .year (dateTimeField dt .year)

/-- RTC.SDT (R162): all six checks before any transaction (R155), then nine transactions. -/
def rtcSdt (dt : DateTime) : Command where
  start := fun _ =>
    match checkDateTime dt with
    | .ok _ => .ok 0
    | .error e => .error e
  steps := dateTimeSteps dt
  catches := false

/-- RTC.RST (R163): the body of RTC.SDT for the epoch, the body of RTC.SBAT off, the body of RTC.SCLK stopped; every
`HardwareFault` is caught, at the first one the remaining steps are skipped. The result 1 stands in `ACC` from the start
and is answered only if all steps succeed. -/
def rtcRst : Command where
  start := fun _ => .ok (payloadS1 true)
  steps := dateTimeSteps epoch ++ rmwBits .wkday maskBat (batByte .off) ++ rmwBits .sec maskOsc (oscByte .stopped) ++
    tickVerify .stopped
  catches := true

/-- The meaning of RTC.GCLK. -/
def execRtcGclk (s : State) : Host.Outcome State Fault Refusal := .next (runCommand 0x20 rtcGclk s)

/-- The meaning of RTC.SCLK. -/
def execRtcSclk (d : ClockState) (s : State) : Host.Outcome State Fault Refusal :=
  .next (runCommand 0x21 (rtcSclk d) s)

/-- The meaning of RTC.GBAT. -/
def execRtcGbat (s : State) : Host.Outcome State Fault Refusal := .next (runCommand 0x22 rtcGbat s)

/-- The meaning of RTC.SBAT. -/
def execRtcSbat (b : BatteryState) (s : State) : Host.Outcome State Fault Refusal :=
  .next (runCommand 0x23 (rtcSbat b) s)

/-- The meaning of RTC.GDT. -/
def execRtcGdt (s : State) : Host.Outcome State Fault Refusal := .next (runCommand 0x24 rtcGdt s)

/-- The meaning of RTC.SDT. -/
def execRtcSdt (dt : DateTime) (s : State) : Host.Outcome State Fault Refusal :=
  .next (runCommand 0x25 (rtcSdt dt) s)

/-- The meaning of RTC.RST. -/
def execRtcRst (s : State) : Host.Outcome State Fault Refusal := .next (runCommand 0x26 rtcRst s)

end Sys2Proof.Machine
end

