-- ==== Sys2Proof/Machine/TempRegs.lean ====
section
/-! DEFINITION. The temperature register commands (43_temperature_registers.md R180 to R187). -/

namespace Sys2Proof.Machine

/-- `GetTemp(q)` as a command: one two-byte read, no range check (R180). -/
def getCommand (q : TmpPair) : Command where
  start := fun _ => .ok 0
  steps := [getTemp q]
  catches := false

/-- `SetTemp(q, t)` as a command: the encoding first, then one two-byte write (R180). -/
def setCommand (q : TmpPair) (t : Int) : Command where
  start := setTempStart t
  steps := [setTemp q t]
  catches := false

/-- TMP.GAMB (R181): get the ambient temperature, the sensor's value at that moment. -/
def tmpGamb : Command := getCommand .amb

/-- TMP.GUPR (R182): get the upper threshold. -/
def tmpGupr : Command := getCommand .upper

/-- TMP.GLWR (R184): get the lower threshold. -/
def tmpGlwr : Command := getCommand .lower

/-- TMP.GCRT (R186): get the critical threshold. -/
def tmpGcrt : Command := getCommand .crit

/-- TMP.SUPR (R183): set the upper threshold. -/
def tmpSupr (t : Int) : Command := setCommand .upper t

/-- TMP.SLWR (R185): set the lower threshold. -/
def tmpSlwr (t : Int) : Command := setCommand .lower t

/-- TMP.SCRT (R187): set the critical threshold. -/
def tmpScrt (t : Int) : Command := setCommand .crit t

/-- The meaning of TMP.GAMB. -/
def execTmpGamb (s : State) : Host.Outcome State Fault Refusal := .next (runCommand 0x30 tmpGamb s)

/-- The meaning of TMP.GUPR. -/
def execTmpGupr (s : State) : Host.Outcome State Fault Refusal := .next (runCommand 0x32 tmpGupr s)

/-- The meaning of TMP.GLWR. -/
def execTmpGlwr (s : State) : Host.Outcome State Fault Refusal := .next (runCommand 0x34 tmpGlwr s)

/-- The meaning of TMP.GCRT. -/
def execTmpGcrt (s : State) : Host.Outcome State Fault Refusal := .next (runCommand 0x36 tmpGcrt s)

/-- The meaning of TMP.SUPR. -/
def execTmpSupr (t : Int) (s : State) : Host.Outcome State Fault Refusal := .next (runCommand 0x33 (tmpSupr t) s)

/-- The meaning of TMP.SLWR. -/
def execTmpSlwr (t : Int) (s : State) : Host.Outcome State Fault Refusal := .next (runCommand 0x35 (tmpSlwr t) s)

/-- The meaning of TMP.SCRT. -/
def execTmpScrt (t : Int) (s : State) : Host.Outcome State Fault Refusal := .next (runCommand 0x37 (tmpScrt t) s)

end Sys2Proof.Machine
end

