-- ==== Sys2Proof/Machine/Temperature.lean ====
section
/-! DEFINITION. The temperature codec commands (41_temperature_codec.md R145, R146). -/

namespace Sys2Proof.Machine

/-- TEMP.DEC (R145): no transaction, no error; `RSP.value <- TempDecode(hi, lo) & 0xFFFF`. -/
def tempDec (hi lo : Byte) : Command where
  start := fun _ => .ok (payloadV16 (t16Bits (tempDecode hi lo)))
  steps := []
  catches := false

/-- TEMP.ENC (R146): no transaction; `RSP.hi` and `RSP.lo` from `TempEncode(t)`. -/
def tempEnc (t : Int) : Command where
  start := fun c =>
    match tempEncode c t with
    | .ok (h, l) => .ok (payloadHL h l)
    | .error e => .error e
  steps := []
  catches := false

/-- The meaning of TEMP.DEC. -/
def execTempDec (hi lo : Byte) (s : State) : Host.Outcome State Fault Refusal :=
  .next (runCommand 0x11 (tempDec hi lo) s)

/-- The meaning of TEMP.ENC. -/
def execTempEnc (t : Int) (s : State) : Host.Outcome State Fault Refusal :=
  .next (runCommand 0x12 (tempEnc t) s)

end Sys2Proof.Machine
end

