-- ==== Sys2Proof/Machine/Dispatch.lean ====
section
/-! DEFINITION. One arm per command: its meaning. -/

namespace Sys2Proof.Machine

/-- The meaning of each command, from its acceptance to its response. -/
def exec (i : Instr) (s : State) : Host.Outcome State Fault Refusal :=
  match i with
  | .bcdEnc value => Sys2Proof.Machine.execBcdEnc value s
  | .bcdDec byte => Sys2Proof.Machine.execBcdDec byte s
  | .tempDec hi lo => Sys2Proof.Machine.execTempDec hi lo s
  | .tempEnc t => Sys2Proof.Machine.execTempEnc t s
  | .rtcGclk => Sys2Proof.Machine.execRtcGclk s
  | .rtcSclk d => Sys2Proof.Machine.execRtcSclk d s
  | .rtcGbat => Sys2Proof.Machine.execRtcGbat s
  | .rtcSbat b => Sys2Proof.Machine.execRtcSbat b s
  | .rtcGdt => Sys2Proof.Machine.execRtcGdt s
  | .rtcSdt dt => Sys2Proof.Machine.execRtcSdt dt s
  | .rtcRst => Sys2Proof.Machine.execRtcRst s
  | .tmpGamb => Sys2Proof.Machine.execTmpGamb s
  | .tmpGupr => Sys2Proof.Machine.execTmpGupr s
  | .tmpSupr t => Sys2Proof.Machine.execTmpSupr t s
  | .tmpGlwr => Sys2Proof.Machine.execTmpGlwr s
  | .tmpSlwr t => Sys2Proof.Machine.execTmpSlwr t s
  | .tmpGcrt => Sys2Proof.Machine.execTmpGcrt s
  | .tmpScrt t => Sys2Proof.Machine.execTmpScrt t s

end Sys2Proof.Machine
end

