-- ==== Sys2Proof/Machine/Sequencer.lean ====
section
/-! DEFINITION. The sequencer one step at a time (00_scope.md R8; 10_state.md R25): the command in `CMD` at the position
`SEQ`, one bus transaction or one settle wait or the completion a step. The meanings of Dispatch.lean run the same
commands to their end. -/

namespace Sys2Proof.Machine

/-- The command of each instruction. -/
def commandOf : Instr → Command
  | .bcdEnc value => bcdEnc value
  | .bcdDec byte => bcdDec byte
  | .tempDec hi lo => tempDec hi lo
  | .tempEnc t => tempEnc t
  | .rtcGclk => rtcGclk
  | .rtcSclk d => rtcSclk d
  | .rtcGbat => rtcGbat
  | .rtcSbat b => rtcSbat b
  | .rtcGdt => rtcGdt
  | .rtcSdt dt => rtcSdt dt
  | .rtcRst => rtcRst
  | .tmpGamb => tmpGamb
  | .tmpGupr => tmpGupr
  | .tmpSupr t => tmpSupr t
  | .tmpGlwr => tmpGlwr
  | .tmpSlwr t => tmpSlwr t
  | .tmpGcrt => tmpGcrt
  | .tmpScrt t => tmpScrt t

/-- The step at position `n`: the `n`-th transaction or wait, or the completion after the last. -/
def stepAt (c : Command) (n : Nat) (s : State) : State :=
  match c.steps[n]? with
  | some f => takeStep c f s
  | none => complete s

/-- One step of the sequencer. The first step of a command decodes, then checks the operands, then makes the first
transaction (60_exceptions.md R207); an idle sequencer does nothing. -/
def sequencerStep (s : State) : State :=
  match s.seq with
  | .idle => s
  | .busy op n =>
    match decode (commandWord op (payloadOf s.cmd)) with
    | .error d => abort (.illegal d) s
    | .ok i =>
      match n with
      | 0 =>
        match (commandOf i).start s.cfg with
        | .error e => raised (commandOf i).catches e s
        | .ok p => stepAt (commandOf i) 0 { s with acc := p }
      | k + 1 => stepAt (commandOf i) (k + 1) s

end Sys2Proof.Machine
end

