-- ==== Sys2Proof/Machine/HostActs.lean ====
section
/-! DEFINITION. What each action of the host does (00_scope.md R8, R9; log entry 4), on the state from whose agenda it has
been taken. -/

namespace Sys2Proof.Machine

/-- The host's action is done. -/
def State.pop (s : State) : State := { s with agenda := s.agenda.tail }

/-- A blocking call. An idle block accepts the word and runs its command to the response; a word that selects no row is
answered with `IllegalCommand` (30_encoding.md R105). A word presented while `BUSY = 1` is not accepted
(70_reset_and_hazards.md R254). -/
def blockingCall (w : Word) (s : State) : Host.Outcome State Fault Refusal :=
  if s.busy then .next s
  else
    match decode w with
    | .ok i => exec i (present w s)
    | .error d => .next (abort (.illegal d) (present w s))

/-- The host does nothing: a running command makes its next step, and an idle block lets time pass
(60_exceptions.md R220). -/
def hostWaits (k : Nat) (s : State) : State := if s.busy then sequencerStep s else State.ticks k s

/-- The block's reset: its registers take their reset values, the running command is gone, and no transaction is issued; the
devices keep what they hold (70_reset_and_hazards.md R240 to R242). -/
def resetBlock (s : State) : State := State.powerOn s.cfg s.mem s.env s.agenda

/-- The word of an instruction given as its `nbits` low bits, the bits above them zero. -/
def tableWord (nbits w : Nat) : Word := BitVec.ofNat 64 (w % 2 ^ nbits)

end Sys2Proof.Machine
end

