-- ==== Sys2Proof/Machine/Step.lean ====
section
/-! DEFINITION. One step of the machine: the host's next action (00_scope.md R8, R9), or, where it has none, the
sequencer's next step. -/

namespace Sys2Proof.Machine

/-- One step. With no host action left the sequencer goes on by itself, and an idle block waits (70_reset_and_hazards.md
R240). -/
def step (s : State) : Host.Outcome State Fault Refusal :=
  match s.agenda with
  | [] => .next (sequencerStep s)
  | .wait k :: _ => .next (hostWaits k s.pop)
  | .present w :: _ => .next (present w s.pop)
  | .call w :: _ => blockingCall w s.pop
  | .reset :: _ => .next (resetBlock s.pop)

/-- `s` with the instruction `w` placed where `step` takes its next instruction: the host's next action is the blocking
call of it, and the block is idle, so that it is accepted. -/
def State.withFetchWord (s : State) (nbits w : Nat) : State :=
  { s with agenda := .call (tableWord nbits w) :: s.agenda, busy := false, seq := .idle }

end Sys2Proof.Machine
end

