-- ==== Sys2Proof/Safety.lean ====
section
/-! DEFINITION. The terms the statements use: the launch premises of 70_reset_and_hazards.md R244 by name, the machine's
invariant, what a command may store to and how many transactions it makes, and the calendar reading of the clock
registers. No step of the machine stops (Machine/State.lean, `Fault`), so every run is safe in that sense; what a
statement asks of a run beyond that is one of the premises below. -/

namespace Sys2Proof.Machine

/-! ### Premises -/

/-- None of the next `n` bus transactions fails (20_memory.md R62). -/
abbrev State.NoFailure (n : Nat) (s : State) : Prop := ∀ k < n, (s.busDraw k).fails = false

/-- Launch premise `NoOtherBusMaster` (20_memory.md R72), for the next `n` bus transactions and the next settle wait: only
the block and a conforming device write the registers. -/
abbrev State.NoOtherBusMaster (n : Nat) (s : State) : Prop :=
  (∀ k < n, (s.busDraw k).foreign = []) ∧ (s.settleDraw 0).foreign = []

/-- The host's next action issues a command: it presents a word, waiting for the response or not. -/
def State.issues (s : State) : Bool :=
  match s.agenda with
  | [] => false
  | .call _ :: _ => true
  | .present _ :: _ => true
  | .wait _ :: _ => false
  | .reset :: _ => false

/-- Launch premise (c) of 70_reset_and_hazards.md R244, for the host's next action: a command is issued only when `BUSY = 0`
(R254). -/
abbrev State.HostIssuesOnlyWhenIdle (s : State) : Prop := s.issues = true → s.busy = false

/-- Premise `OscillatorHealthy` (60_exceptions.md R220), for the next settle wait: an enabled clock makes at least
`SETTLE_TICKS_MIN` ticks in it. -/
abbrev State.OscillatorHealthy (s : State) : Prop := s.cfg.settleTicksMin ≤ (s.settleDraw 0).ticks

/-- The device makes no tick in the gap before the `k`-th transaction to come, for `lo ≤ k < hi`. -/
abbrev State.NoGapTick (lo hi : Nat) (s : State) : Prop := ∀ k < hi, lo ≤ k → (s.busDraw k).gap = 0

/-! ### What a run keeps -/

/-- The response register holds a response some command can give: a status that is produced, and with an error status
zeros above the detail code (60_exceptions.md R200, R204; 30_encoding.md R103). -/
abbrev RspLegal (w : Word) : Prop :=
  statusOf w ∈ [(0x00 : Byte), 0x01, 0x02, 0x03, 0x05] ∧ (statusOf w ≠ 0x00 → resultOf w >>> 8 = 0)

/-- `SEQ` is a position of the command in `CMD` (10_state.md R25): the opcode is that of `CMD`, and no more transactions
and waits are counted than the command has. -/
def seqLegal (s : State) : Bool :=
  match s.seq with
  | .idle => true
  | .busy op n =>
    decide (op = opcodeOf s.cmd) &&
      (match decode s.cmd with
      | .ok i => decide (n ≤ (commandOf i).steps.length)
      | .error _ => n == 0)

/-- The machine's invariant: the register space is in canonical form, `BUSY` says whether the sequencer is busy, `SEQ` is a
position of the command in `CMD`, and `RSP` is a response. -/
abbrev State.Inv (s : State) : Prop :=
  s.mem.wf = true ∧ (s.busy = true ↔ s.seq ≠ .idle) ∧ seqLegal s = true ∧ RspLegal s.rsp

/-- What every command leaves of the block: `CMD`, the configuration and the host's actions as they were, and the block
idle (10_state.md R21, R24, R25). -/
abbrev State.BlockFrame (s t : State) : Prop :=
  t.cmd = s.cmd ∧ t.cfg = s.cfg ∧ t.agenda = s.agenda ∧ t.busy = false ∧ t.seq = .idle

/-- Every cell outside a list of keys reads as before. -/
abbrev State.SameOutside (s t : State) (ks : List Nat) : Prop := ∀ a, a ∉ ks → t.mem.read a = s.mem.read a

/-- What a register holds after transaction number `k` has failed and ended the command, where transaction number `n` writes
it: the old byte if the command never came to the write, the draw if the write is what failed, else the byte written
(60_exceptions.md R209; 20_memory.md R63). -/
def State.afterFailure (s : State) (k n : Nat) (old new : Byte) : Byte :=
  if k < n then old else if k = n then (s.busDraw k).lo else new

/-- So many steps, one after the other: `Host.Core.run` at this machine. -/
def runSteps : Nat → State → Host.Outcome State Fault Refusal
  | 0, s => .next s
  | k + 1, s =>
    match step s with
    | .next t => runSteps k t
    | .fault r => .fault r
    | .refused r => .refused r

/-! ### Cells -/

/-- The six time registers, which a tick may change (60_exceptions.md R217, R218). -/
def timeKeys (c : Config) : List Nat :=
  [rtcKey c .sec, rtcKey c .min, rtcKey c .hour, rtcKey c .day, rtcKey c .month, rtcKey c .year]

/-- The two bytes of a temperature pair. -/
def pairKeys (c : Config) (q : TmpPair) : List Nat := [tmpKey c q, tmpKey c q + 1]

/-- The cells a command itself stores to: the "Accesses" lines of 42_rtc.md and 43_temperature_registers.md. TMP.GAMB
stores nothing; the cells of `TAMB` are listed for it because the sensor's sample stands there after it. -/
def storedKeys (c : Config) : Instr → List Nat
  | .bcdEnc _ => []
  | .bcdDec _ => []
  | .tempDec _ _ => []
  | .tempEnc _ => []
  | .rtcGclk => []
  | .rtcSclk _ => [rtcKey c .sec]
  | .rtcGbat => []
  | .rtcSbat _ => [rtcKey c .wkday]
  | .rtcGdt => []
  | .rtcSdt _ => timeKeys c
  | .rtcRst => rtcKey c .wkday :: timeKeys c
  | .tmpGamb => pairKeys c .amb
  | .tmpGupr => []
  | .tmpSupr _ => pairKeys c .upper
  | .tmpGlwr => []
  | .tmpSlwr _ => pairKeys c .lower
  | .tmpGcrt => []
  | .tmpScrt _ => pairKeys c .crit

/-! ### The lengths of the commands (70_reset_and_hazards.md R260) -/

/-- Bus transactions of a command that meets no error. -/
def busCount : Instr → Nat
  | .bcdEnc _ => 0
  | .bcdDec _ => 0
  | .tempDec _ _ => 0
  | .tempEnc _ => 0
  | .rtcGclk => 1
  | .rtcSclk _ => 4
  | .rtcGbat => 1
  | .rtcSbat _ => 2
  | .rtcGdt => 6
  | .rtcSdt _ => 9
  | .rtcRst => 15
  | .tmpGamb => 1
  | .tmpGupr => 1
  | .tmpSupr _ => 1
  | .tmpGlwr => 1
  | .tmpSlwr _ => 1
  | .tmpGcrt => 1
  | .tmpScrt _ => 1

/-- Settle waits of a command that meets no error. -/
def settleCount : Instr → Nat
  | .rtcSclk _ => 1
  | .rtcRst => 1
  | .bcdEnc _ => 0
  | .bcdDec _ => 0
  | .tempDec _ _ => 0
  | .tempEnc _ => 0
  | .rtcGclk => 0
  | .rtcGbat => 0
  | .rtcSbat _ => 0
  | .rtcGdt => 0
  | .rtcSdt _ => 0
  | .tmpGamb => 0
  | .tmpGupr => 0
  | .tmpSupr _ => 0
  | .tmpGlwr => 0
  | .tmpSlwr _ => 0
  | .tmpGcrt => 0
  | .tmpScrt _ => 0

/-! ### Dates -/

/-- A date-time RTC.SDT accepts (42_rtc.md R155). -/
abbrev DateTimeLegal (dt : DateTime) : Prop :=
  2000 ≤ dt.year ∧ dt.year ≤ 2099 ∧ 1 ≤ dt.month ∧ dt.month ≤ 12 ∧ 1 ≤ dt.day ∧
    dt.day ≤ daysInMonth dt.year dt.month ∧ dt.hour ≤ 23 ∧ dt.minute ≤ 59 ∧ dt.second ≤ 59

/-- The date-time the six time registers show, preserved bits masked off. -/
def shownDateTime (c : ClockRegs) : DateTime where
  year := 2000 + fieldOf .year c.year
  month := fieldOf .month c.month
  day := fieldOf .day c.day
  hour := fieldOf .hour c.hour
  minute := fieldOf .minute c.min
  second := fieldOf .second c.sec

/-- All six fields hold BCD and show a legal date-time (10_state.md R35; the opposite of 60_exceptions.md R219). -/
abbrev ClockValid (c : ClockRegs) : Prop :=
  isBcd (c.sec &&& 0x7F) = true ∧ isBcd c.min = true ∧ isBcd (c.hour &&& 0x3F) = true ∧ isBcd c.day = true ∧
    isBcd (c.month &&& 0x1F) = true ∧ isBcd c.year = true ∧ DateTimeLegal (shownDateTime c)

/-- Days from 2000-01-01 to a date in `2000..2099`, a leap year being a multiple of four (42_rtc.md R156). -/
def dayNumber (dt : DateTime) : Nat :=
  365 * (dt.year - 2000) + (dt.year - 2000 + 3) / 4 +
    ((List.range (dt.month - 1)).map (fun m => daysInMonth dt.year (m + 1))).sum + (dt.day - 1)

/-- Seconds from 2000-01-01 00:00:00 to a date-time in `2000..2099`. -/
def secondNumber (dt : DateTime) : Nat :=
  ((dayNumber dt * 24 + dt.hour) * 60 + dt.minute) * 60 + dt.second

/-- The bits of a register that no command and no tick changes (10_state.md R35, column "Preserved mask"); of `SEC` the
preserved bit is `OSC_EN`, which has rules of its own (42_rtc.md R164). -/
def preservedMask : RtcReg → Byte
  | .sec => 0x80
  | .min => 0x00
  | .hour => 0xC0
  | .wkday => 0xF7
  | .day => 0x00
  | .month => 0xE0
  | .year => 0x00

end Sys2Proof.Machine
end

