-- ==== Sys2Proof/Certificates/Slice0/Obligations.lean ====
section
/-! DEFINITION. The statements for the provers, from the numbered rules of spec/. A response word is written as a numeral or
as a status byte above a payload (30_encoding.md R100, R103). Where a statement speaks of the environment, it speaks of
the draws to come: `busDraw k` of the `k`-th bus transaction, `settleDraw 0` of the settle wait. Where a statement gives a
whole next state, that the scratch registers are in it as before, or as the command left them, is the model's choice (log entry
15; log entry 6 for `ACC`), and no rule is cited for it. Where a frame says that the cells of TAMB are as before, that the
sensor's rewriting of them shows at a read of TAMB only is log entry 9. -/

open Sys2Proof Sys2Proof.Machine

/-! ### BCD codec -/

/-- BCD.ENC (40_bcd_codec.md R133, R130): its word, its result on every operand, and that it changes nothing else but the
hidden `ACC` (log entry 6). That `OLD`, `S1` and `S2` are as before is the model's choice (log entry 15). -/
def Obligations.BcdEncAnswersPackedByteOrRangeError : Prop :=
  ∀ (s : State) (v : Nat),
    (v < 65536 → decode (0x0100000000000000 ||| BitVec.ofNat 64 v) = .ok (.bcdEnc v)) ∧
    ∃ a, exec (.bcdEnc v) s = .next { s with
      rsp := if v ≤ 99 then BitVec.ofNat 64 (v / 10 * 16 + v % 10) else 0x0100000000000001
      busy := false
      seq := .idle
      acc := a }

/-- BCD.DEC (40_bcd_codec.md R134, R131). `ACC` is left open (log entry 6); that `OLD`, `S1` and `S2` are as before is the
model's choice (log entry 15). -/
def Obligations.BcdDecAnswersValueOrFormatError : Prop :=
  ∀ (s : State) (b : Byte),
    decode (0x0200000000000000 ||| b.setWidth 64) = .ok (.bcdDec b) ∧
    ∃ a, exec (.bcdDec b) s = .next { s with
      rsp := if b.toNat / 16 ≤ 9 ∧ b.toNat % 16 ≤ 9 then BitVec.ofNat 64 (b.toNat / 16 * 10 + b.toNat % 16)
        else 0x0200000000000001
      busy := false
      seq := .idle
      acc := a }

/-- `BcdEncode` and `BcdDecode` are exact inverses (40_bcd_codec.md R132). -/
def Obligations.BcdCodecsAreInverse : Prop :=
  (∀ v : Nat, v ≤ 99 → ∃ b, bcdEncode v = .ok b ∧ bcdDecode .bcdNibble b = .ok v) ∧
  (∀ b : Byte, b.toNat / 16 ≤ 9 → b.toNat % 16 ≤ 9 →
    ∃ v, bcdDecode .bcdNibble b = .ok v ∧ bcdEncode v = .ok b)

/-! ### Temperature codec -/

/-- TEMP.DEC (41_temperature_codec.md R145, R140, R141): the result is the 13-bit word sign-extended to 16 bits. `ACC` is left
open (log entry 6); that `OLD`, `S1` and `S2` are as before is the model's choice (log entry 15). -/
def Obligations.TempDecSignExtendsThirteenBits : Prop :=
  ∀ (s : State) (hi lo : Byte),
    decode (0x1100000000000000 ||| (hi ++ lo).setWidth 64) = .ok (.tempDec hi lo) ∧
    ∃ a, exec (.tempDec hi lo) s = .next { s with
      rsp := ((hi.extractLsb' 0 5 ++ lo).signExtend 16).setWidth 64
      busy := false
      seq := .idle
      acc := a }

/-- TEMP.ENC (41_temperature_codec.md R146, R142, R143): the result is the low 13 bits of the two's complement. `ACC` is left
open (log entry 6); that `OLD`, `S1` and `S2` are as before is the model's choice (log entry 15). -/
def Obligations.TempEncAnswersThirteenBitsOrRangeError : Prop :=
  ∀ (s : State),
    (∀ v : BitVec 16, decode (0x1200000000000000 ||| v.setWidth 64) = .ok (.tempEnc v.toInt)) ∧
    ∀ t : Int, ∃ a, exec (.tempEnc t) s = .next { s with
      rsp := if s.cfg.tempMin16 ≤ t ∧ t ≤ s.cfg.tempMax16 then (BitVec.ofInt 13 t).setWidth 64
        else 0x0100000000000002
      busy := false
      seq := .idle
      acc := a }

/-- `TempDecode` inverts `TempEncode` on the accepted range, and back (41_temperature_codec.md R144). -/
def Obligations.TempCodecsAreInverse : Prop :=
  ∀ c : Config, c.Legal →
    (∀ t : Int, c.tempMin16 ≤ t → t ≤ c.tempMax16 → ∃ h l, tempEncode c t = .ok (h, l) ∧ tempDecode h l = t) ∧
    (∀ h l : Byte, c.tempMin16 ≤ tempDecode h l → tempDecode h l ≤ c.tempMax16 →
      tempEncode c (tempDecode h l) = .ok (h &&& 0x1F, l))

/-! ### Clock state -/

/-- RTC.GCLK (42_rtc.md R157): one read; the answer is the enable bit whatever the seconds hold and whether or not the
clock ticks. Nothing is written: every cell is as the gap before the read left it. -/
def Obligations.GclkAnswersEnableBit : Prop :=
  decode 0x2000000000000000 = .ok .rtcGclk ∧
  ∀ s : State, s.cfg.Legal → s.NoOtherBusMaster 1 →
    ∃ t, exec .rtcGclk s = .next t ∧ s.BlockFrame t ∧
      t.rsp = (if (s.busDraw 0).fails then 0x0300000000000001 else if (s.rtc .sec).getLsbD 7 then 1 else 0) ∧
      t.env.bus.taken = s.env.bus.taken + 1 ∧
      s.SameOutside t (timeKeys s.cfg) ∧ (s.oscEn = false → s.SameOutside t []) ∧ s.gap.SameOutside t []

/-- RTC.SCLK running on a clock that oscillates (42_rtc.md R158, R154; 60_exceptions.md R220; 70_reset_and_hazards.md
R251): the verification confirms it, whatever the clock did before. The seconds value is left untouched but for the
device's own ticks: with none before the first sample, it is the one read plus the ticks of the wait. -/
def Obligations.SclkRunningConfirmedWhenOscillatorHealthy : Prop :=
  ∀ s : State, s.cfg.Legal → s.NoFailure 4 → s.NoOtherBusMaster 4 → s.OscillatorHealthy →
    fieldWithin .second (s.rtc .sec) 0 59 = true →
    ∃ t, exec (.rtcSclk .running) s = .next t ∧ s.BlockFrame t ∧ t.rsp = 0 ∧ t.oscEn = true ∧
      t.env.bus.taken = s.env.bus.taken + 4 ∧ t.env.settle.taken = s.env.settle.taken + 1 ∧
      s.SameOutside t (timeKeys s.cfg) ∧
      (s.NoGapTick 2 3 →
        fieldOf .second (t.rtc .sec) =
          (fieldOf .second (s.gap.rtc .sec) + min (s.settleDraw 0).ticks s.cfg.settleTicksMax) % 60 ∧
        ((s.oscEn = false ∨ s.NoGapTick 0 2) →
          fieldOf .second (s.rtc .sec) + min (s.settleDraw 0).ticks s.cfg.settleTicksMax ≤ 59 →
          s.SameOutside t [rtcKey s.cfg .sec]))

/-- RTC.SCLK whose verification does not confirm (42_rtc.md R154, R165, R158 corner case (b)): `HardwareFault(tick_verify)`.
First, running with a dead oscillator: the enable bit stays as written; no roll-back; the
seconds are those of the first read. Then the whole comparison, whatever
the devices and other masters do: with no failed transaction the answer is decided by the two samples, the second being
the seconds field as it then stands. Last, stopped on a device that writes `SEC` during the wait, which does not conform
(93_implementation_defined.md U12; that the draws may hold such a write is log entry 10): the samples are the seconds
written back and the byte it wrote. -/
def Obligations.SclkUnconfirmedFaultsWithoutRollback : Prop :=
  (∀ s : State, s.cfg.Legal → s.NoFailure 4 → s.NoOtherBusMaster 4 → (s.settleDraw 0).ticks = 0 →
    ∃ t, exec (.rtcSclk .running) s = .next t ∧ s.BlockFrame t ∧ t.rsp = 0x0300000000000002 ∧ t.oscEn = true ∧
      s.SameOutside t (timeKeys s.cfg) ∧
      (s.NoGapTick 2 3 → t.rtc .sec = (s.gap.rtc .sec &&& 0x7F) ||| 0x80 ∧
        (s.oscEn = false ∨ s.NoGapTick 0 2 → s.SameOutside t [rtcKey s.cfg .sec]))) ∧
  (∀ (s : State) (d : ClockState), s.NoFailure 4 →
    ∃ t, exec (.rtcSclk d) s = .next t ∧ s.BlockFrame t ∧ t.s2 = (t.rtc .sec).extractLsb' 0 7 ∧
      t.rsp = (if (d = .running ∧ t.s1 = t.s2) ∨ (d = .stopped ∧ t.s1 ≠ t.s2) then 0x0300000000000002 else 0)) ∧
  ∀ (s : State) (b : Byte), s.cfg.Legal → s.NoFailure 4 → (∀ k < 4, (s.busDraw k).foreign = []) →
    (s.settleDraw 0).foreign = [(rtcKey s.cfg .sec, b)] →
    ∃ t, exec (.rtcSclk .stopped) s = .next t ∧ s.BlockFrame t ∧
      t.rsp = (if b &&& 0x7F = s.gap.rtc .sec &&& 0x7F then 0 else 0x0300000000000002)

/-- RTC.SCLK when a transaction fails (42_rtc.md R158 corner case (c)): at the first read nothing is written
(every cell is as before where no tick falls in the gap), at the write `SEC` takes any byte, at a sample the enable bit
stands as written, beside the seconds read first; no other cell is written. -/
def Obligations.SclkBusFailureLeavesWhatWasWritten : Prop :=
  ∀ (s : State) (d : ClockState) (k : Nat), s.cfg.Legal → s.NoOtherBusMaster 4 → k < 4 → s.NoFailure k →
    (s.busDraw k).fails = true →
    ∃ t, exec (.rtcSclk d) s = .next t ∧ s.BlockFrame t ∧ t.rsp = 0x0300000000000001 ∧
      t.env.bus.taken = s.env.bus.taken + (k + 1) ∧
      (k = 0 → t.rtc .sec &&& 0x80 = s.rtc .sec &&& 0x80 ∧ (s.oscEn = false ∨ s.NoGapTick 0 1 → s.SameOutside t [])) ∧
      (k = 1 → t.rtc .sec = (s.busDraw 1).lo ∧
        (s.oscEn = false ∨ s.NoGapTick 0 2 → s.SameOutside t [rtcKey s.cfg .sec])) ∧
      (2 ≤ k → (t.oscEn = true ↔ d = .running) ∧
        (d = .stopped ∨ (s.NoGapTick 2 3 ∧ (k = 2 ∨ (s.settleDraw 0).ticks = 0)) →
          t.rtc .sec = (s.gap.rtc .sec &&& 0x7F) ||| (if d = .running then 0x80 else 0x00) ∧
          (s.oscEn = false ∨ s.NoGapTick 0 2 → s.SameOutside t [rtcKey s.cfg .sec]))) ∧
      s.SameOutside t (timeKeys s.cfg)

/-- RTC.SCLK stopped (42_rtc.md R158, R165): confirmed on every conforming device. The seconds written back are the ones
read after the first gap; a tick between the read and the write is undone (70_reset_and_hazards.md R247). -/
def Obligations.SclkStoppedConfirmedAndWritesBackSecondsRead : Prop :=
  decode 0x2100000000000000 = .ok (.rtcSclk .stopped) ∧
  ∀ s : State, s.cfg.Legal → s.NoFailure 4 → s.NoOtherBusMaster 4 →
    ∃ t, exec (.rtcSclk .stopped) s = .next t ∧ s.BlockFrame t ∧ t.rsp = 0 ∧ t.oscEn = false ∧
      t.rtc .sec = s.gap.rtc .sec &&& 0x7F ∧ t.env.bus.taken = s.env.bus.taken + 4 ∧
      t.env.settle.taken = s.env.settle.taken + 1 ∧
      s.SameOutside t (timeKeys s.cfg) ∧ (s.oscEn = false → s.SameOutside t []) ∧
      (s.NoGapTick 0 2 → s.SameOutside t [rtcKey s.cfg .sec])

/-! ### Battery state -/

/-- RTC.GBAT (42_rtc.md R159): one read; nothing is written, every cell is as the gap before the read left it. -/
def Obligations.GbatAnswersBatteryBit : Prop :=
  decode 0x2200000000000000 = .ok .rtcGbat ∧
  ∀ s : State, s.cfg.Legal → s.NoOtherBusMaster 1 →
    ∃ t, exec .rtcGbat s = .next t ∧ s.BlockFrame t ∧
      t.rsp = (if (s.busDraw 0).fails then 0x0300000000000001 else if (s.rtc .wkday).getLsbD 3 then 1 else 0) ∧
      t.env.bus.taken = s.env.bus.taken + 1 ∧
      s.SameOutside t (timeKeys s.cfg) ∧ (s.oscEn = false → s.SameOutside t []) ∧ s.gap.SameOutside t []

/-- RTC.SBAT (42_rtc.md R160): bit 3 of `WKDAY` takes the operand and every other bit is kept; failures of the read and of
the write as 20_memory.md R62, R63 and R68 say. -/
def Obligations.SbatWritesBatteryBitOnly : Prop :=
  decode 0x2300000000000000 = .ok (.rtcSbat .off) ∧ decode 0x2300000000000001 = .ok (.rtcSbat .on) ∧
  ∀ (s : State) (b : BatteryState), s.cfg.Legal → s.NoOtherBusMaster 2 →
    ∃ t, exec (.rtcSbat b) s = .next t ∧ s.BlockFrame t ∧
      t.rsp = (if (s.busDraw 0).fails ∨ (s.busDraw 1).fails then 0x0300000000000001 else 0) ∧
      t.rtc .wkday = (if (s.busDraw 0).fails then s.rtc .wkday else if (s.busDraw 1).fails then (s.busDraw 1).lo
        else (s.rtc .wkday &&& 0xF7) ||| (if b = .on then 0x08 else 0x00)) ∧
      t.env.bus.taken = s.env.bus.taken + (if (s.busDraw 0).fails then 1 else 2) ∧
      s.SameOutside t (rtcKey s.cfg .wkday :: timeKeys s.cfg) ∧
      (s.oscEn = false ∨ s.NoGapTick 0 2 → s.SameOutside t [rtcKey s.cfg .wkday])

/-- The source's property of the battery bit: set it, read it back (42_rtc.md R160; 20_memory.md R69). -/
def Obligations.BatteryStateReadsBackAsSet : Prop :=
  ∀ (s t : State) (b : BatteryState), s.cfg.Legal → s.NoFailure 3 → s.NoOtherBusMaster 3 →
    exec (.rtcSbat b) s = .next t →
    ∃ u, exec .rtcGbat t = .next u ∧ u.rsp = (if b = .on then 1 else 0) ∧
      u.rtc .wkday &&& 0xF7 = s.rtc .wkday &&& 0xF7

/-! ### Date and time -/

/-- RTC.GDT with no tick before its last read (42_rtc.md R161, R152; 60_exceptions.md R207): each field is checked as soon as
it is read, and the first read that fails or field that is not BCD ends the command, later registers not read; else the
six decoded fields, with no range check; nothing is written. -/
def Obligations.GdtAnswersFieldsOrFirstError : Prop :=
  decode 0x2400000000000000 = .ok .rtcGdt ∧
  ∀ s : State, s.cfg.Legal → s.NoOtherBusMaster 6 → (s.oscEn = false ∨ s.NoGapTick 0 6) →
    ∃ t, exec .rtcGdt s = .next t ∧ s.BlockFrame t ∧ s.SameOutside t [] ∧
      t.rsp =
        (if (s.busDraw 0).fails then 0x0300000000000001
        else if ¬ isBcd (s.rtc .sec &&& 0x7F) then 0x0200000000000010
        else if (s.busDraw 1).fails then 0x0300000000000001
        else if ¬ isBcd (s.rtc .min) then 0x0200000000000011
        else if (s.busDraw 2).fails then 0x0300000000000001
        else if ¬ isBcd (s.rtc .hour &&& 0x3F) then 0x0200000000000012
        else if (s.busDraw 3).fails then 0x0300000000000001
        else if ¬ isBcd (s.rtc .day) then 0x0200000000000013
        else if (s.busDraw 4).fails then 0x0300000000000001
        else if ¬ isBcd (s.rtc .month &&& 0x1F) then 0x0200000000000014
        else if (s.busDraw 5).fails then 0x0300000000000001
        else if ¬ isBcd (s.rtc .year) then 0x0200000000000015
        else (0 : Byte) ++ BitVec.ofNat 16 (2000 + bcdValue (s.rtc .year)) ++
          BitVec.ofNat 8 (bcdValue (s.rtc .month &&& 0x1F)) ++ BitVec.ofNat 8 (bcdValue (s.rtc .day)) ++
          BitVec.ofNat 8 (bcdValue (s.rtc .hour &&& 0x3F)) ++ BitVec.ofNat 8 (bcdValue (s.rtc .min)) ++
          BitVec.ofNat 8 (bcdValue (s.rtc .sec &&& 0x7F))) ∧
      t.env.bus.taken = s.env.bus.taken +
        (if (s.busDraw 0).fails ∨ ¬ isBcd (s.rtc .sec &&& 0x7F) then 1
        else if (s.busDraw 1).fails ∨ ¬ isBcd (s.rtc .min) then 2
        else if (s.busDraw 2).fails ∨ ¬ isBcd (s.rtc .hour &&& 0x3F) then 3
        else if (s.busDraw 3).fails ∨ ¬ isBcd (s.rtc .day) then 4
        else if (s.busDraw 4).fails ∨ ¬ isBcd (s.rtc .month &&& 0x1F) then 5
        else 6)

/-- RTC.SDT refuses an operand outside the calendar before any transaction (42_rtc.md R155; 60_exceptions.md R201): six
checks in this order, the first failure reported, nothing else changed. That the scratch registers are as before is the
model's choice (log entries 6 and 15); the day check rests on the calendar of log entry 13 (PRESUMED). -/
def Obligations.SdtReportsFirstRangeErrorAndTouchesNothing : Prop :=
  ∀ (s : State) (dt : DateTime) (k : Byte),
    (if dt.year < 2000 ∨ dt.year > 2099 then some 0x10
      else if dt.month < 1 ∨ dt.month > 12 then some 0x11
      else if dt.day < 1 ∨ dt.day > daysInMonth dt.year dt.month then some 0x12
      else if dt.hour > 23 then some 0x13
      else if dt.minute > 59 then some 0x14
      else if dt.second > 59 then some 0x15
      else none) = some k →
    exec (.rtcSdt dt) s = .next { s with
      rsp := (0x01 : Byte) ++ (0 : BitVec 48) ++ k
      busy := false
      seq := .idle }

/-- RTC.SDT with a legal operand (42_rtc.md R162): `OK` on every clock; where no tick falls after the first write, each
register holds its field's BCD byte with its preserved bits as they were.
Which date-times are legal rests on the calendar of log entry 13 (PRESUMED). -/
def Obligations.SdtWritesSixFieldsPreservingBits : Prop :=
  ∀ (s : State) (dt : DateTime), s.cfg.Legal → DateTimeLegal dt → s.NoFailure 9 → s.NoOtherBusMaster 9 →
    ∃ t, exec (.rtcSdt dt) s = .next t ∧ s.BlockFrame t ∧ t.rsp = 0 ∧
      t.env.bus.taken = s.env.bus.taken + 9 ∧ s.SameOutside t (timeKeys s.cfg) ∧ t.oscEn = s.oscEn ∧
      (s.oscEn = false ∨ s.NoGapTick 2 9 →
        t.rtc .sec = (s.rtc .sec &&& 0x80) ||| BitVec.ofNat 8 (dt.second / 10 * 16 + dt.second % 10) ∧
        t.rtc .min = BitVec.ofNat 8 (dt.minute / 10 * 16 + dt.minute % 10) ∧
        t.rtc .hour = (s.rtc .hour &&& 0xC0) ||| BitVec.ofNat 8 (dt.hour / 10 * 16 + dt.hour % 10) ∧
        t.rtc .day = BitVec.ofNat 8 (dt.day / 10 * 16 + dt.day % 10) ∧
        t.rtc .month = (s.rtc .month &&& 0xE0) ||| BitVec.ofNat 8 (dt.month / 10 * 16 + dt.month % 10) ∧
        t.rtc .year = BitVec.ofNat 8 ((dt.year - 2000) / 10 * 16 + (dt.year - 2000) % 10))

/-- The end-to-end property (42_rtc.md R166): RTC.SDT, then RTC.GDT, with no failure and no tick from the first write on,
returns the same six integers.
Which date-times are legal rests on the calendar of log entry 13 (PRESUMED). -/
def Obligations.SdtThenGdtReturnsSameDateTime : Prop :=
  ∀ (s t : State) (dt : DateTime), s.cfg.Legal → DateTimeLegal dt → s.NoFailure 15 → s.NoOtherBusMaster 15 →
    (s.oscEn = false ∨ s.NoGapTick 2 15) → exec (.rtcSdt dt) s = .next t →
    ∃ u, exec .rtcGdt t = .next u ∧
      u.rsp = (0 : Byte) ++ BitVec.ofNat 16 dt.year ++ BitVec.ofNat 8 dt.month ++ BitVec.ofNat 8 dt.day ++
        BitVec.ofNat 8 dt.hour ++ BitVec.ofNat 8 dt.minute ++ BitVec.ofNat 8 dt.second

/-- RTC.SDT aborted at any of its nine transactions (60_exceptions.md R209; 42_rtc.md R162; 20_memory.md R62, R63): the earlier
writes stand, the register of a failed write holds the draw, and nothing later is done. What the registers hold is stated
where no tick falls in the gaps.
Which date-times are legal rests on the calendar of log entry 13 (PRESUMED). -/
def Obligations.SdtAbortedByFailureLeavesMixture : Prop :=
  ∀ (s : State) (dt : DateTime) (k : Nat), s.cfg.Legal → DateTimeLegal dt → s.NoOtherBusMaster 9 → k < 9 →
    s.NoFailure k → (s.busDraw k).fails = true →
    ∃ t, exec (.rtcSdt dt) s = .next t ∧ s.BlockFrame t ∧ t.rsp = 0x0300000000000001 ∧
      t.env.bus.taken = s.env.bus.taken + (k + 1) ∧ s.SameOutside t (timeKeys s.cfg) ∧
      (s.oscEn = false ∨ s.NoGapTick 0 9 →
        t.rtc .sec = s.afterFailure k 1 (s.rtc .sec)
          ((s.rtc .sec &&& 0x80) ||| BitVec.ofNat 8 (dt.second / 10 * 16 + dt.second % 10)) ∧
        t.rtc .min = s.afterFailure k 2 (s.rtc .min) (BitVec.ofNat 8 (dt.minute / 10 * 16 + dt.minute % 10)) ∧
        t.rtc .hour = s.afterFailure k 4 (s.rtc .hour)
          ((s.rtc .hour &&& 0xC0) ||| BitVec.ofNat 8 (dt.hour / 10 * 16 + dt.hour % 10)) ∧
        t.rtc .day = s.afterFailure k 5 (s.rtc .day) (BitVec.ofNat 8 (dt.day / 10 * 16 + dt.day % 10)) ∧
        t.rtc .month = s.afterFailure k 7 (s.rtc .month)
          ((s.rtc .month &&& 0xE0) ||| BitVec.ofNat 8 (dt.month / 10 * 16 + dt.month % 10)) ∧
        t.rtc .year = s.afterFailure k 8 (s.rtc .year)
          (BitVec.ofNat 8 ((dt.year - 2000) / 10 * 16 + (dt.year - 2000) % 10)))

/-! ### Reset of the device -/

/-- RTC.RST on a stopped clock (42_rtc.md R163 corner case (c)): exactly the epoch, battery off, preserved bits kept. -/
def Obligations.RstOnStoppedClockEndsAtEpoch : Prop :=
  decode 0x2600000000000000 = .ok .rtcRst ∧
  ∀ s : State, s.cfg.Legal → s.NoFailure 15 → s.NoOtherBusMaster 15 → s.oscEn = false →
    ∃ t, exec .rtcRst s = .next t ∧ s.BlockFrame t ∧ t.rsp = 1 ∧
      t.rtc .sec = 0x00 ∧ t.rtc .min = 0x00 ∧ t.rtc .hour = s.rtc .hour &&& 0xC0 ∧
      t.rtc .wkday = s.rtc .wkday &&& 0xF7 ∧ t.rtc .day = 0x01 ∧
      t.rtc .month = (s.rtc .month &&& 0xE0) ||| 0x01 ∧ t.rtc .year = 0x00 ∧
      s.SameOutside t (rtcKey s.cfg .wkday :: timeKeys s.cfg)

/-- RTC.RST on any clock (70_reset_and_hazards.md R250): it succeeds and the clock is stopped; where the gaps are short, the
seconds are at most ten gaps' ticks and the other fields are the epoch's. -/
def Obligations.RstOnRunningClockEndsNearEpoch : Prop :=
  ∀ s : State, s.cfg.Legal → s.NoFailure 15 → s.NoOtherBusMaster 15 → 11 * s.cfg.gapTicksMax ≤ 59 →
    ∃ t, exec .rtcRst s = .next t ∧ s.BlockFrame t ∧ t.rsp = 1 ∧ t.oscEn = false ∧
      isBcd (t.rtc .sec) = true ∧ bcdValue (t.rtc .sec) ≤ 10 * s.cfg.gapTicksMax ∧
      t.rtc .min = 0x00 ∧ t.rtc .hour = s.rtc .hour &&& 0xC0 ∧ t.rtc .wkday = s.rtc .wkday &&& 0xF7 ∧
      t.rtc .day = 0x01 ∧ t.rtc .month = (s.rtc .month &&& 0xE0) ||| 0x01 ∧ t.rtc .year = 0x00 ∧
      s.SameOutside t (rtcKey s.cfg .wkday :: timeKeys s.cfg)

/-- RTC.RST swallows every fault (42_rtc.md R163; 60_exceptions.md R211): the status is `OK` always, the success bit is 0 if
a transaction failed. With no failed transaction it is 1 if and only if the two samples of the verification are equal, and
a device that writes `SEC` during the wait makes it 0 unless the seconds are still those of the epoch (such a device does
not conform, log entry 10). At the first fault the remaining steps are skipped (R163 corner case (a)): the failed
transaction is the last one made, the earlier writes stand, and the registers of later steps are as before. What the time
registers hold is stated where no tick falls in the gaps before the clock is stopped. -/
def Obligations.RstAlwaysOkAndFirstFaultSkipsTheRest : Prop :=
  ∀ s : State, ∃ t, exec .rtcRst s = .next t ∧ s.BlockFrame t ∧ (t.rsp = 0 ∨ t.rsp = 1) ∧
    ((∃ k < 15, (s.busDraw k).fails = true) → t.rsp = 0) ∧
    (s.NoFailure 15 → t.s2 = (t.rtc .sec).extractLsb' 0 7 ∧ (t.rsp = 1 ↔ t.s1 = t.s2)) ∧
    (∀ b : Byte, s.cfg.Legal → s.NoFailure 15 → (∀ k < 15, (s.busDraw k).foreign = []) →
      (s.oscEn = false ∨ s.NoGapTick 0 13) → (s.settleDraw 0).foreign = [(rtcKey s.cfg .sec, b)] →
      t.rsp = if b &&& 0x7F = 0 then 1 else 0) ∧
    ∀ k < 15, s.NoFailure k → (s.busDraw k).fails = true →
      t.env.bus.taken = s.env.bus.taken + (k + 1) ∧
      (s.cfg.Legal → s.NoOtherBusMaster 15 →
        s.SameOutside t (rtcKey s.cfg .wkday :: timeKeys s.cfg) ∧
        t.rtc .wkday = s.afterFailure k 10 (s.rtc .wkday) (s.rtc .wkday &&& 0xF7) ∧
        (s.oscEn = false ∨ s.NoGapTick 0 13 →
          t.rtc .sec = (if k < 12 then s.afterFailure k 1 (s.rtc .sec) (s.rtc .sec &&& 0x80)
            else s.afterFailure k 12 (s.rtc .sec &&& 0x80) 0x00) ∧
          t.rtc .min = s.afterFailure k 2 (s.rtc .min) 0x00 ∧
          t.rtc .hour = s.afterFailure k 4 (s.rtc .hour) (s.rtc .hour &&& 0xC0) ∧
          t.rtc .day = s.afterFailure k 5 (s.rtc .day) 0x01 ∧
          t.rtc .month = s.afterFailure k 7 (s.rtc .month) ((s.rtc .month &&& 0xE0) ||| 0x01) ∧
          t.rtc .year = s.afterFailure k 8 (s.rtc .year) 0x00))

/-! ### Temperature registers -/

/-- TMP.GUPR, TMP.GLWR, TMP.GCRT (43_temperature_registers.md R182, R184, R186): one read of the pair, decoded, with no range
check; nothing is written, every cell is as the gap before the read left it. -/
def Obligations.ThresholdGetsDecodeTheirPair : Prop :=
  decode 0x3200000000000000 = .ok .tmpGupr ∧ decode 0x3400000000000000 = .ok .tmpGlwr ∧
  decode 0x3600000000000000 = .ok .tmpGcrt ∧
  ∀ (s : State), s.cfg.Legal → s.NoOtherBusMaster 1 →
    ∀ p ∈ [(Instr.tmpGupr, TmpPair.upper), (.tmpGlwr, .lower), (.tmpGcrt, .crit)],
      ∃ t, exec p.1 s = .next t ∧ s.BlockFrame t ∧
        t.rsp = (if (s.busDraw 0).fails then 0x0300000000000001
          else ((s.tmpHi p.2).extractLsb' 0 5 ++ s.tmpLo p.2).signExtend 16 |>.setWidth 64) ∧
        t.env.bus.taken = s.env.bus.taken + 1 ∧
        s.SameOutside t (timeKeys s.cfg) ∧ (s.oscEn = false → s.SameOutside t []) ∧ s.gap.SameOutside t []

/-- TMP.GAMB (43_temperature_registers.md R181; 60_exceptions.md R222): the answer decodes the sensor's sample, a draw.
A failed read leaves the cells of TAMB as before (20_memory.md R63); every other cell is as the gap before the read left
it. -/
def Obligations.GambDecodesTheSensorsSample : Prop :=
  decode 0x3000000000000000 = .ok .tmpGamb ∧
  ∀ s : State, s.cfg.Legal → s.NoOtherBusMaster 1 →
    ∃ t, exec .tmpGamb s = .next t ∧ s.BlockFrame t ∧
      t.rsp = (if (s.busDraw 0).fails then 0x0300000000000001
        else ((s.busDraw 0).hi.extractLsb' 0 5 ++ (s.busDraw 0).lo).signExtend 16 |>.setWidth 64) ∧
      t.env.bus.taken = s.env.bus.taken + 1 ∧
      s.SameOutside t (pairKeys s.cfg .amb ++ timeKeys s.cfg) ∧
      (s.oscEn = false → s.SameOutside t (pairKeys s.cfg .amb)) ∧
      s.gap.SameOutside t (if (s.busDraw 0).fails then [] else pairKeys s.cfg .amb) ∧
      ((s.busDraw 0).fails = true → s.SameOutside t (timeKeys s.cfg))

/-- TMP.SUPR, TMP.SLWR, TMP.SCRT (43_temperature_registers.md R183, R185, R187, R180): out of range, no transaction (that the
scratch registers are then as before is the model's choice, log entries 6 and 15); in range, the pair takes the 13-bit word
with zeros above it, or on a failed write any two bytes. -/
def Obligations.ThresholdSetsWriteTheirPair : Prop :=
  (∀ v : BitVec 16, decode (0x3300000000000000 ||| v.setWidth 64) = .ok (.tmpSupr v.toInt) ∧
    decode (0x3500000000000000 ||| v.setWidth 64) = .ok (.tmpSlwr v.toInt) ∧
    decode (0x3700000000000000 ||| v.setWidth 64) = .ok (.tmpScrt v.toInt)) ∧
  ∀ (s : State) (x : Int), ∀ p ∈ [(Instr.tmpSupr x, TmpPair.upper), (.tmpSlwr x, .lower), (.tmpScrt x, .crit)],
    (x < s.cfg.tempMin16 ∨ x > s.cfg.tempMax16 →
      exec p.1 s = .next { s with rsp := 0x0100000000000002, busy := false, seq := .idle }) ∧
    (s.cfg.Legal → s.NoOtherBusMaster 1 → s.cfg.tempMin16 ≤ x → x ≤ s.cfg.tempMax16 →
      ∃ t, exec p.1 s = .next t ∧ s.BlockFrame t ∧
        t.rsp = (if (s.busDraw 0).fails then 0x0300000000000001 else 0) ∧
        (t.tmpHi p.2, t.tmpLo p.2) = (if (s.busDraw 0).fails then ((s.busDraw 0).hi, (s.busDraw 0).lo)
          else (((BitVec.ofInt 13 x).extractLsb' 8 5).setWidth 8, (BitVec.ofInt 13 x).extractLsb' 0 8)) ∧
        t.env.bus.taken = s.env.bus.taken + 1 ∧
        s.SameOutside t (pairKeys s.cfg p.2 ++ timeKeys s.cfg) ∧
        (s.oscEn = false → s.SameOutside t (pairKeys s.cfg p.2)) ∧ s.gap.SameOutside t (pairKeys s.cfg p.2))

/-- The round trip through a threshold register (43_temperature_registers.md R190). -/
def Obligations.ThresholdReadsBackAsSet : Prop :=
  ∀ (s t : State) (x : Int), s.cfg.Legal → s.NoFailure 2 → s.NoOtherBusMaster 2 →
    s.cfg.tempMin16 ≤ x → x ≤ s.cfg.tempMax16 →
    ∀ p ∈ [(Instr.tmpSupr x, Instr.tmpGupr), (.tmpSlwr x, .tmpGlwr), (.tmpScrt x, .tmpGcrt)],
      exec p.1 s = .next t → ∃ u, exec p.2 t = .next u ∧ u.rsp = (BitVec.ofInt 16 x).setWidth 64

/-! ### Encoding -/

/-- The worked encodings of 30_encoding.md R110, and illegal words of R105, decode as written. -/
def Obligations.WorkedEncodingsDecode : Prop :=
  decode 0x010000000000002A = .ok (.bcdEnc 42) ∧ decode 0x0200000000000059 = .ok (.bcdDec 0x59) ∧
  decode 0x1100000000000194 = .ok (.tempDec 0x01 0x94) ∧ decode 0x120000000000FE70 = .ok (.tempEnc (-400)) ∧
  decode 0x2000000000000000 = .ok .rtcGclk ∧ decode 0x2100000000000001 = .ok (.rtcSclk .running) ∧
  decode 0x2300000000000000 = .ok (.rtcSbat .off) ∧
  decode 0x2507E8030F0D2D1E = .ok (.rtcSdt ⟨2024, 3, 15, 13, 45, 30⟩) ∧
  decode 0x2507D00101000000 = .ok (.rtcSdt ⟨2000, 1, 1, 0, 0, 0⟩) ∧ decode 0x2600000000000000 = .ok .rtcRst ∧
  decode 0x3300000000000194 = .ok (.tmpSupr 404) ∧ decode 0x370000000000FD80 = .ok (.tmpScrt (-640)) ∧
  decode 0x0000000000000000 = .error .badOpcode ∧ decode 0x3100000000000000 = .error .badOpcode ∧
  decode 0x4000000000000003 = .error .badOpcode ∧ decode 0x2300000000000003 = .error .badMbz

/-- A word is legal exactly if it selects a row of the opcode map, and an illegal one is told by its opcode or by a
must-be-zero bit (30_encoding.md R104, R105; 60_exceptions.md R205). The list holds the columns Match and Mask of R104. -/
def Obligations.DecodeFollowsTheOpcodeMap : Prop :=
  let rows : List (Word × Word) := [
    (0x0100000000000000, 0xFFFFFFFFFFFF0000), (0x0200000000000000, 0xFFFFFFFFFFFFFF00),
    (0x1100000000000000, 0xFFFFFFFFFFFF0000), (0x1200000000000000, 0xFFFFFFFFFFFF0000),
    (0x2000000000000000, 0xFFFFFFFFFFFFFFFF), (0x2100000000000000, 0xFFFFFFFFFFFFFFFE),
    (0x2200000000000000, 0xFFFFFFFFFFFFFFFF), (0x2300000000000000, 0xFFFFFFFFFFFFFFFE),
    (0x2400000000000000, 0xFFFFFFFFFFFFFFFF), (0x2500000000000000, 0xFF00000000000000),
    (0x2600000000000000, 0xFFFFFFFFFFFFFFFF), (0x3000000000000000, 0xFFFFFFFFFFFFFFFF),
    (0x3200000000000000, 0xFFFFFFFFFFFFFFFF), (0x3300000000000000, 0xFFFFFFFFFFFF0000),
    (0x3400000000000000, 0xFFFFFFFFFFFFFFFF), (0x3500000000000000, 0xFFFFFFFFFFFF0000),
    (0x3600000000000000, 0xFFFFFFFFFFFFFFFF), (0x3700000000000000, 0xFFFFFFFFFFFF0000)]
  ∀ w : Word,
    ((∃ i, decode w = .ok i) ↔ ∃ r ∈ rows, w &&& r.2 = r.1) ∧
    (decode w = .error .badOpcode ↔ ∀ r ∈ rows, w.extractLsb' 56 8 ≠ r.1.extractLsb' 56 8) ∧
    (decode w = .error .badMbz ↔ ∃ r ∈ rows, w.extractLsb' 56 8 = r.1.extractLsb' 56 8 ∧ w &&& r.2 ≠ r.1)

/-- Decoding the word of a well-formed instruction gives it back, every operand at every value (30_encoding.md R101,
R106). -/
def Obligations.DecodeInvertsEncode : Prop :=
  ∀ i : Instr, i.wellFormed = true → decode (encode i) = .ok i

/-- A word that decodes is the word of the instruction it decodes to: no bit of a legal word is dropped, and no two words
mean the same (30_encoding.md R104, R105). -/
def Obligations.EncodeInvertsDecode : Prop :=
  ∀ (w : Word) (i : Instr), decode w = .ok i → i.wellFormed = true ∧ encode i = w

/-! ### The host interface and the sequencer -/

/-- A blocking call of an idle block (premise (c) of 70_reset_and_hazards.md R244) runs the decoded command on the state in
which it was accepted: `CMD` written, `BUSY` set, `SEQ` at the start (00_scope.md R9; 10_state.md R21, R24, R25). -/
def Obligations.StepRunsTheDecodedCommand : Prop :=
  ∀ (s : State) (w : Word) (rest : List HostAct) (i : Instr),
    s.agenda = .call w :: rest → s.HostIssuesOnlyWhenIdle → decode w = .ok i →
    step s = exec i { s with
      cmd := w
      busy := true
      seq := .busy (w.extractLsb' 56 8) 0
      agenda := rest }

/-- An illegal word, issued while `BUSY = 0`, is answered with `IllegalCommand` and its detail; no transaction, no device
state changed (30_encoding.md R105; 60_exceptions.md R205). That the scratch registers are as before is the model's choice
(log entries 6 and 15). -/
def Obligations.IllegalWordAnsweredWithoutTransaction : Prop :=
  ∀ (s : State) (w : Word) (rest : List HostAct) (d : IllegalDetail),
    s.agenda = .call w :: rest → s.HostIssuesOnlyWhenIdle → decode w = .error d →
    step s = .next { s with
      cmd := w
      rsp := if d = .badOpcode then 0x0500000000000001 else 0x0500000000000002
      busy := false
      seq := .idle
      agenda := rest }

/-- A word presented while `BUSY = 1` is not accepted and disturbs nothing (70_reset_and_hazards.md R254). -/
def Obligations.WordPresentedWhileBusyIsNotAccepted : Prop :=
  ∀ (s : State) (w : Word) (rest : List HostAct),
    s.agenda = .present w :: rest ∨ s.agenda = .call w :: rest → s.busy = true →
    step s = .next { s with agenda := rest }

/-- A word presented while `BUSY = 0` is accepted: `CMD` takes it, `BUSY = 1`, `SEQ = Busy(op, 0)`, and nothing else changes
(10_state.md R21, R24, R25). -/
def Obligations.WordPresentedWhileIdleIsAccepted : Prop :=
  ∀ (s : State) (w : Word) (rest : List HostAct),
    s.agenda = .present w :: rest → s.HostIssuesOnlyWhenIdle →
    step s = .next { s with
      cmd := w
      busy := true
      seq := .busy (w.extractLsb' 56 8) 0
      agenda := rest }

/-- One step of a busy sequencer either makes one transaction or wait, `SEQ` counting it and `RSP`, `CMD` and `BUSY` as
before, or ends the command: `BUSY = 0`, `SEQ = Idle` (10_state.md R22, R24, R25). The sequencer steps where the host has
no action left, and where the host does nothing while a command runs, which is the same step (that the host's actions
stand in a list is the model's choice, log entry 4). -/
def Obligations.SequencerCountsOneOrCompletes : Prop :=
  (∀ (s t : State) (op : Byte) (n : Nat),
    s.agenda = [] ∨ (s.busy = true ∧ ∃ k rest, s.agenda = .wait k :: rest) → s.seq = .busy op n → step s = .next t →
    t.cmd = s.cmd ∧ t.cfg = s.cfg ∧ t.agenda = s.agenda.tail ∧
    ((t.seq = .busy op (n + 1) ∧ t.busy = s.busy ∧ t.rsp = s.rsp ∧
        t.env.bus.taken + t.env.settle.taken = s.env.bus.taken + s.env.settle.taken + 1) ∨
      (t.seq = .idle ∧ t.busy = false))) ∧
  ∀ (s : State) (k : Nat), s.busy = true → step { s with agenda := [.wait k] } = step { s with agenda := [] }

/-- The blocking call is what the sequencer does one step at a time: presenting a word and letting the sequencer run to
completion gives the state of the call, for every word and every environment, in at most 18 steps (00_scope.md R8, R9;
10_state.md R25; 20_memory.md R83). The call as one step, and the host's list, are the model's choice (log entry 4). -/
def Obligations.SequencerStepsRefineTheBlockingCall : Prop :=
  ∀ (s : State) (w : Word), s.busy = false → s.seq = .idle →
    runSteps 18 { s with agenda := [.present w] } = step { s with agenda := [.call w] }

/-- The machine never stops: every state has a next state (30_encoding.md R105; 20_memory.md R83). -/
def Obligations.EveryStateHasANextState : Prop :=
  ∀ s : State, ∃ t, step s = .next t

/-! ### Every command -/

/-- Every command ends with the block idle and leaves `CMD`, the configuration and the host's actions alone (10_state.md R21,
R24, R25). -/
def Obligations.EveryCommandEndsIdle : Prop :=
  ∀ (i : Instr) (s : State), ∃ t, exec i s = .next t ∧ s.BlockFrame t

/-- Which error each command can end with (60_exceptions.md R201 to R205), and the form of every response (30_encoding.md
R103; 60_exceptions.md R200): a legal command never answers `IllegalCommand`, nothing ever answers
`ChannelDisabledError`. -/
def Obligations.ErrorKindsByCommand : Prop :=
  ∀ (i : Instr) (s t : State), exec i s = .next t →
    t.rsp.extractLsb' 56 8 ∈ [(0x00 : Byte), 0x01, 0x02, 0x03] ∧
    (t.rsp.extractLsb' 56 8 ≠ 0x00 → t.rsp.extractLsb' 8 48 = 0) ∧
    (t.rsp.extractLsb' 56 8 = 0x01 →
      match i with
      | .bcdEnc _ => t.rsp.extractLsb' 0 8 = 0x01
      | .tempEnc _ | .tmpSupr _ | .tmpSlwr _ | .tmpScrt _ => t.rsp.extractLsb' 0 8 = 0x02
      | .rtcSdt _ => t.rsp.extractLsb' 0 8 ∈ [(0x10 : Byte), 0x11, 0x12, 0x13, 0x14, 0x15]
      | _ => False) ∧
    (t.rsp.extractLsb' 56 8 = 0x02 →
      match i with
      | .bcdDec _ => t.rsp.extractLsb' 0 8 = 0x01
      | .rtcGdt => t.rsp.extractLsb' 0 8 ∈ [(0x10 : Byte), 0x11, 0x12, 0x13, 0x14, 0x15]
      | _ => False) ∧
    (t.rsp.extractLsb' 56 8 = 0x03 →
      t.rsp.extractLsb' 0 8 = 0x01 ∧ 0 < busCount i ∧ i ≠ .rtcRst ∨
      t.rsp.extractLsb' 0 8 = 0x02 ∧ ∃ d, i = .rtcSclk d)

/-- A `RangeError` is raised before any transaction: nothing changes but `RSP` (60_exceptions.md R201). That the scratch
registers are as before is the model's choice (log entries 6 and 15). -/
def Obligations.RangeErrorChangesOnlyTheResponse : Prop :=
  ∀ (i : Instr) (s t : State), exec i s = .next t → t.rsp.extractLsb' 56 8 = 0x01 →
    t = { s with rsp := t.rsp, busy := false, seq := .idle }

/-- A failed transaction is reported, not retried (20_memory.md R62; 60_exceptions.md R203, R207, R208). The first part names
the commands whose transactions are all reached unless one fails. The second part is about every command, RTC.GDT among
them, which a field that is not BCD may end before the failing read: a transaction that was made and failed was the last,
and the answer is `HardwareFault(bus)`, but for RTC.RST, which answers `OK` with success 0 (R211). -/
def Obligations.FailedTransactionIsReported : Prop :=
  ∀ (i : Instr) (s t : State), exec i s = .next t →
    (i ∈ [Instr.rtcGclk, .rtcGbat, .tmpGamb, .tmpGupr, .tmpGlwr, .tmpGcrt] ∨ (∃ d, i = .rtcSclk d) ∨
        (∃ b, i = .rtcSbat b) ∨ (∃ dt, i = .rtcSdt dt ∧ DateTimeLegal dt) ∨
        (∃ x, (i = .tmpSupr x ∨ i = .tmpSlwr x ∨ i = .tmpScrt x) ∧ s.cfg.tempMin16 ≤ x ∧ x ≤ s.cfg.tempMax16) →
      (∃ k < busCount i, (s.busDraw k).fails = true) → t.rsp = 0x0300000000000001) ∧
    ∀ k, (s.busDraw k).fails = true → s.env.bus.taken + k < t.env.bus.taken →
      t.env.bus.taken = s.env.bus.taken + (k + 1) ∧ t.rsp = if i = .rtcRst then 0 else 0x0300000000000001

/-- The lengths of the commands (70_reset_and_hazards.md R260; 20_memory.md R83): never more transactions and waits than the
table's, and exactly those when the command meets no error. -/
def Obligations.CommandsMakeTheTablesTransactions : Prop :=
  ∀ (i : Instr) (s t : State), exec i s = .next t →
    s.env.bus.taken ≤ t.env.bus.taken ∧ t.env.bus.taken ≤ s.env.bus.taken + busCount i ∧
    t.env.settle.taken ≤ s.env.settle.taken + settleCount i ∧
    (t.rsp.extractLsb' 56 8 = 0x00 → (i = .rtcRst → t.rsp = 1) →
      t.env.bus.taken = s.env.bus.taken + busCount i ∧ t.env.settle.taken = s.env.settle.taken + settleCount i)

/-- No state is sticky and no scratch register is read before it is written (60_exceptions.md R210; 10_state.md R26): what a
command answers and does to the devices does not depend on the previous response or on the scratch registers. -/
def Obligations.CommandsStartClean : Prop :=
  ∀ (i : Instr) (s t : State) (r : Word) (o : Byte) (x y : BitVec 7) (a : Payload), exec i s = .next t →
    ∃ u, exec i { s with rsp := r, old := o, s1 := x, s2 := y, acc := a } = .next u ∧
      u.rsp = t.rsp ∧ u.mem = t.mem ∧ u.env = t.env ∧ u.busy = t.busy ∧ u.seq = t.seq ∧ u.cmd = t.cmd

/-- The scratch registers change only where a command's steps use them (10_state.md R26; 20_memory.md R68; 42_rtc.md
R154). The rules say which steps write them; that they keep their values otherwise is the model's choice (log entry 15),
where 93_implementation_defined.md U4 allows any value. -/
def Obligations.ScratchRegistersChangeOnlyWhereUsed : Prop :=
  ∀ (i : Instr) (s t : State), exec i s = .next t →
    ((∀ d, i ≠ .rtcSclk d) → i ≠ .rtcRst → t.s1 = s.s1 ∧ t.s2 = s.s2) ∧
    ((∀ d, i ≠ .rtcSclk d) → (∀ b, i ≠ .rtcSbat b) → (∀ dt, i ≠ .rtcSdt dt) → i ≠ .rtcRst → t.old = s.old)

/-- The frame of every command on a running clock: outside the cells it stores to and the six time registers the device's
own ticks may change, every cell reads as before, whether or not a transaction fails (42_rtc.md and
43_temperature_registers.md, the "Accesses" lines; 20_memory.md R63; 60_exceptions.md R218). -/
def Obligations.CommandsStoreOnlyToTheirCells : Prop :=
  ∀ (i : Instr) (s t : State), s.cfg.Legal → s.NoOtherBusMaster 15 → exec i s = .next t →
    s.SameOutside t (storedKeys s.cfg i ++ timeKeys s.cfg)

/-- The frame of every command where no tick falls: on a stopped clock, or with no tick in the gaps and in the settle wait.
Outside the cells it stores to, every cell reads as before, whether or not a transaction fails. On a stopped clock RTC.SCLK
running is left to the second case, since it starts the clock. -/
def Obligations.CommandsWithoutTicksStoreOnlyToTheirCells : Prop :=
  ∀ (i : Instr) (s t : State), s.cfg.Legal → s.NoOtherBusMaster 15 →
    (s.oscEn = false ∧ i ≠ .rtcSclk .running) ∨ (s.NoGapTick 0 15 ∧ (s.settleDraw 0).ticks = 0) →
    exec i s = .next t → s.SameOutside t (storedKeys s.cfg i)

/-- The preservation invariant (20_memory.md R69): no command and no tick changes `HOUR[7:6]`, `MONTH[7:5]` or any bit of
`WKDAY` but bit 3, if no transaction fails. -/
def Obligations.PreservedBitsAreKept : Prop :=
  ∀ (i : Instr) (s t : State), s.cfg.Legal → s.NoFailure 15 → s.NoOtherBusMaster 15 → exec i s = .next t →
    t.rtc .hour &&& 0xC0 = s.rtc .hour &&& 0xC0 ∧ t.rtc .month &&& 0xE0 = s.rtc .month &&& 0xE0 ∧
    t.rtc .wkday &&& 0xF7 = s.rtc .wkday &&& 0xF7

/-- Write protection of `OSC_EN` (42_rtc.md R164; 60_exceptions.md R214): only RTC.SCLK and RTC.RST change it, if no
transaction fails. -/
def Obligations.OnlySclkAndRstChangeOscEn : Prop :=
  ∀ (i : Instr) (s t : State), s.cfg.Legal → s.NoFailure 15 → s.NoOtherBusMaster 15 → (∀ d, i ≠ .rtcSclk d) →
    i ≠ .rtcRst → exec i s = .next t → t.oscEn = s.oscEn

/-! ### The device -/

/-- A tick does nothing while `SEC[7] = 0` (60_exceptions.md R217). -/
def Obligations.StoppedClockDoesNotTick : Prop :=
  ∀ (s : State) (k : Nat), (s.rtc .sec).getLsbD 7 = false → State.ticks k s = s

/-- `Tick` on the seconds (60_exceptions.md R217): from 0 to 58 the seconds field goes up by one and no other cell changes;
from 59 it goes to 0, and the minute carries (R218); bit 7 is kept. The carry into the minute is the spec's own from general
knowledge (log entry 13, PRESUMED). -/
def Obligations.TickAdvancesTheSecondsRegister : Prop :=
  ∀ (s : State) (v : Nat), s.cfg.Legal →
    (v ≤ 58 → s.rtc .sec = 0x80 ||| BitVec.ofNat 8 (v / 10 * 16 + v % 10) →
      s.tick.rtc .sec = 0x80 ||| BitVec.ofNat 8 ((v + 1) / 10 * 16 + (v + 1) % 10) ∧
        s.SameOutside s.tick [rtcKey s.cfg .sec]) ∧
    (v ≤ 58 → s.rtc .sec = 0xD9 → s.rtc .min = BitVec.ofNat 8 (v / 10 * 16 + v % 10) →
      s.tick.rtc .sec = 0x80 ∧ s.tick.rtc .min = BitVec.ofNat 8 ((v + 1) / 10 * 16 + (v + 1) % 10) ∧
        s.SameOutside s.tick [rtcKey s.cfg .sec, rtcKey s.cfg .min])

/-- A tick of a well-formed running clock is one second of the calendar (60_exceptions.md R217, R218): the clock stays well
formed and shows the next second, or wraps from 2099-12-31 23:59:59 to 2000-01-01 00:00:00. -/
def Obligations.TickAdvancesTheCalendarByOneSecond : Prop :=
  ∀ s : State, s.cfg.Legal → s.oscEn = true → ClockValid s.clock →
    ClockValid s.tick.clock ∧
      (secondNumber (shownDateTime s.tick.clock) = secondNumber (shownDateTime s.clock) + 1 ∨
        shownDateTime s.clock = ⟨2099, 12, 31, 23, 59, 59⟩ ∧ shownDateTime s.tick.clock = ⟨2000, 1, 1, 0, 0, 0⟩)

/-- A tick, on well-formed and malformed fields alike, keeps every preserved bit, `OSC_EN`, `WKDAY` and every cell that is
not a time register (60_exceptions.md R217, R218, R219). -/
def Obligations.TickKeepsPreservedBits : Prop :=
  ∀ s : State, s.cfg.Legal →
    s.tick.oscEn = s.oscEn ∧ s.tick.rtc .hour &&& 0xC0 = s.rtc .hour &&& 0xC0 ∧
    s.tick.rtc .month &&& 0xE0 = s.rtc .month &&& 0xE0 ∧ s.tick.rtc .wkday = s.rtc .wkday ∧
    s.SameOutside s.tick (timeKeys s.cfg)

/-- One to 59 ticks never bring the seconds field back (42_rtc.md R154; 70_reset_and_hazards.md R251). -/
def Obligations.FewerThanSixtyTicksChangeTheSeconds : Prop :=
  ∀ (s : State) (k : Nat), s.cfg.Legal → s.oscEn = true → fieldWithin .second (s.rtc .sec) 0 59 = true →
    1 ≤ k → k ≤ 59 → (State.ticks k s).rtc .sec &&& 0x7F ≠ s.rtc .sec &&& 0x7F

/-- Time that passes between commands is ticks of the device and nothing else. The rule allows any number of ticks, and none
on a stopped clock (60_exceptions.md R220, R217). That idle time is a host action which carries its number of ticks is the
model's choice (log entry 4; log entry 12 for the gap before the next command), and that nothing else changes holds of
TAMB, which the sensor may rewrite at any time (R222; 20_memory.md R73), only by log entry 9. -/
def Obligations.IdleTimeIsTicks : Prop :=
  ∀ (s : State) (k : Nat) (rest : List HostAct), s.agenda = .wait k :: rest → s.busy = false →
    step s = .next (State.ticks k { s with agenda := rest }) ∧
    (s.oscEn = false → step s = .next { s with agenda := rest })

/-- The lengths of the months (42_rtc.md R156). -/
def Obligations.DaysInMonthFollowsTheTable : Prop :=
  ∀ y : Nat, 2000 ≤ y → y ≤ 2099 →
    (List.range 12).map (fun m => daysInMonth y (m + 1)) =
      [31, if y % 4 = 0 then 29 else 28, 31, 30, 31, 30, 31, 31, 30, 31, 30, 31]

/-! ### Reset and the invariant -/

/-- Power-on reset, whatever the devices hold (70_reset_and_hazards.md R240 to R242): the block's registers, the devices
untouched, no transaction, and a block that waits for its first command. The second part holds of every state, also while
a command runs: the spec speaks of power-on only, and a reset at any point is the model's inference (log entry 14,
DEDUCED). The scratch registers' values are left open (the model's are log entry 5). -/
def Obligations.PowerOnResetValues : Prop :=
  (∀ (c : Config) (m : Memory) (e : Env),
    let s := State.powerOn c m e []
    s.cmd = 0 ∧ s.rsp = 0 ∧ s.busy = false ∧ s.seq = .idle ∧ s.mem = m ∧ s.env = e ∧ s.cfg = c ∧ step s = .next s) ∧
  ∀ (s : State) (rest : List HostAct), s.agenda = .reset :: rest →
    ∃ o x y a, step s = .next { s with
      cmd := 0
      rsp := 0
      busy := false
      seq := .idle
      old := o
      s1 := x
      s2 := y
      acc := a
      agenda := rest }

/-- The invariant holds after reset, whatever the devices hold. -/
def Obligations.ResetMeetsTheInvariant : Prop :=
  State.reset.Inv ∧ ∀ (c : Config) (m : Memory) (e : Env) (a : List HostAct), m.wf = true → (State.powerOn c m e a).Inv

/-- Every step keeps the invariant, from every state that meets it. -/
def Obligations.EveryStepKeepsTheInvariant : Prop :=
  ∀ s t : State, s.Inv → step s = .next t → t.Inv

/-- No step changes the configuration, and a step takes exactly the host's next action (00_scope.md R5, R8; 10_state.md
R20). -/
def Obligations.NoStepChangesTheConfiguration : Prop :=
  ∀ s t : State, step s = .next t → t.cfg = s.cfg ∧ t.agenda = s.agenda.tail
end

