-- ==== Sys2Proof/Laws/Codec.lean ====
section
/-! SUPPORT. The codecs and the field arithmetic: what a merge keeps, what a BCD byte decodes to, and the values a field
of a register takes. -/

namespace Sys2Proof.Machine

/-! ### Merging bits under a mask (20_memory.md R68) -/

/-- The bits of the mask are the new value's. -/
@[simp] theorem mergeBits_field (o m v : Byte) : mergeBits o m v &&& m = v &&& m := by
  unfold mergeBits
  ext i hi
  simp only [BitVec.getElem_and, BitVec.getElem_or, BitVec.getElem_not]
  cases o[i] <;> cases m[i] <;> cases v[i] <;> rfl

/-- The bits outside the mask are the old byte's. -/
@[simp] theorem mergeBits_kept (o m v : Byte) : mergeBits o m v &&& ~~~m = o &&& ~~~m := by
  unfold mergeBits
  ext i hi
  simp only [BitVec.getElem_and, BitVec.getElem_or, BitVec.getElem_not]
  cases o[i] <;> cases m[i] <;> cases v[i] <;> rfl

/-- Bits kept under a smaller set of bits than the complement of the mask. -/
theorem mergeBits_and {o m v p : Byte} (h : p &&& m = 0) : mergeBits o m v &&& p = o &&& p := by
  unfold mergeBits
  ext i hi
  have hb : p[i] = false ∨ m[i] = false := by
    have h0 : (p &&& m)[i] = (0#8)[i] := by rw [h]; rfl
    simp only [BitVec.getElem_and, BitVec.getElem_zero] at h0
    cases hp : p[i] <;> simp_all
  simp only [BitVec.getElem_and, BitVec.getElem_or, BitVec.getElem_not]
  rcases hb with hb | hb <;> simp [hb]

/-- A mask of all ones takes the whole new byte. -/
@[simp] theorem mergeBits_full (o v : Byte) : mergeBits o 0xFF v = v := by
  have h : (0xFF : Byte) = BitVec.allOnes 8 := by decide
  rw [h]; simp [mergeBits, -BitVec.reduceAllOnes]

/-- A byte's bit 7 is what is left of it under the mask `0x80`. -/
theorem bit7_eq_of_and {a b : Byte} (h : a &&& 0x80 = b &&& 0x80) : a.getLsbD 7 = b.getLsbD 7 := by
  have h7 := congrArg (fun x : Byte => x.getLsbD 7) h
  simpa using h7

/-! ### BCD (40_bcd_codec.md R130 to R132) -/

theorem isBcd_bcdByte {v : Nat} (h : v ≤ 99) : isBcd (bcdByte v) = true := by
  have : ∀ v ≤ 99, isBcd (bcdByte v) = true := by decide
  exact this v h

theorem bcdValue_bcdByte {v : Nat} (h : v ≤ 99) : bcdValue (bcdByte v) = v := by
  have : ∀ v ≤ 99, bcdValue (bcdByte v) = v := by decide
  exact this v h

theorem bcdValue_le {b : Byte} (h : isBcd b = true) : bcdValue b ≤ 99 := by
  unfold isBcd at h
  unfold bcdValue
  simp only [Bool.and_eq_true, decide_eq_true_eq] at h
  omega

/-- The largest value whose BCD byte fits the field's mask. -/
def fieldMax : TimeField → Nat
  | .second => 79
  | .minute => 99
  | .hour => 39
  | .day => 99
  | .month => 19
  | .year => 99

theorem bcdByte_fits {f : TimeField} {v : Nat} (h : v ≤ fieldMax f) : bcdByte v &&& fieldMask f = bcdByte v := by
  have h1 : ∀ v ≤ 79, bcdByte v &&& 0x7F = bcdByte v := by decide
  have h2 : ∀ v ≤ 99, bcdByte v &&& 0xFF = bcdByte v := by decide
  have h3 : ∀ v ≤ 39, bcdByte v &&& 0x3F = bcdByte v := by decide
  have h4 : ∀ v ≤ 19, bcdByte v &&& 0x1F = bcdByte v := by decide
  cases f
  · exact h1 v h
  · exact h2 v h
  · exact h3 v h
  · exact h2 v h
  · exact h4 v h
  · exact h2 v h

theorem fieldMax_le (f : TimeField) : fieldMax f ≤ 99 := by cases f <;> decide

/-! ### Fields of a register -/

/-- The field bits of a register after its field is written. -/
theorem putField_field {f : TimeField} {v : Nat} (b : Byte) (h : v ≤ fieldMax f) :
    putField f b v &&& fieldMask f = bcdByte v := by
  simp [putField, bcdByte_fits h]

theorem fieldOf_putField {f : TimeField} {v : Nat} (b : Byte) (h : v ≤ fieldMax f) : fieldOf f (putField f b v) = v := by
  simp only [fieldOf, putField_field b h]
  exact bcdValue_bcdByte (le_trans h (fieldMax_le f))

theorem isBcd_putField {f : TimeField} {v : Nat} (b : Byte) (h : v ≤ fieldMax f) :
    isBcd (putField f b v &&& fieldMask f) = true := by
  rw [putField_field b h]; exact isBcd_bcdByte (le_trans h (fieldMax_le f))

theorem fieldWithin_iff {f : TimeField} {b : Byte} {lo hi : Nat} :
    fieldWithin f b lo hi = true ↔ isBcd (b &&& fieldMask f) = true ∧ lo ≤ fieldOf f b ∧ fieldOf f b ≤ hi := by
  simp [fieldWithin, fieldOf, and_assoc]

theorem fieldWithin_putField {f : TimeField} {v lo hi : Nat} (b : Byte) (h : v ≤ fieldMax f) (h1 : lo ≤ v)
    (h2 : v ≤ hi) : fieldWithin f (putField f b v) lo hi = true := by
  rw [fieldWithin_iff, fieldOf_putField b h]
  exact ⟨isBcd_putField b h, h1, h2⟩

/-- The preserved bits of a register after its field is written or scrambled. -/
theorem putField_kept (f : TimeField) (b : Byte) (v : Nat) :
    putField f b v &&& preservedMask (fieldReg f) = b &&& preservedMask (fieldReg f) := by
  apply mergeBits_and; cases f <;> decide

theorem scramble_kept (f : TimeField) (b j : Byte) :
    mergeBits b (fieldMask f) j &&& preservedMask (fieldReg f) = b &&& preservedMask (fieldReg f) := by
  apply mergeBits_and; cases f <;> decide

end Sys2Proof.Machine
end

