-- ==== Sys2Proof/Laws/PerInstr.lean ====
section
/-! SUPPORT. The family `EncodesRow`: the word of each instruction lies in its own row of the opcode map (30_encoding.md
R104), every must-be-zero bit zero (R101), whatever its operands. -/

namespace Sys2Proof.Laws.EncodesRow

/-- There is a row of the opcode map with the instruction's opcode, and the instruction's word selects it. -/
def Statement (i : Instr) : Prop :=
  ∃ r ∈ opcodeMap, r.opcode = i.opcode ∧ encode i &&& r.mask = r.pattern

/-! ### The masks of the formats -/

theorem word_b8 (op b : Byte) : commandWord op (payloadB8 b) &&& 0xFFFFFFFFFFFFFF00 = commandWord op 0 := by
  apply BitVec.eq_of_getLsbD_eq
  intro k hk
  simp only [commandWord, payloadB8, BitVec.getLsbD_and, BitVec.getLsbD_append]
  interval_cases k <;> simp

theorem word_v16 (op : Byte) (v : BitVec 16) :
    commandWord op (payloadV16 v) &&& 0xFFFFFFFFFFFF0000 = commandWord op 0 := by
  apply BitVec.eq_of_getLsbD_eq
  intro k hk
  simp only [commandWord, payloadV16, BitVec.getLsbD_and, BitVec.getLsbD_append]
  interval_cases k <;> simp

/-- A high and a low byte are one 16-bit value. -/
theorem payloadHL_eq (hi lo : Byte) : payloadHL hi lo = payloadV16 (hi ++ lo) := by
  apply BitVec.eq_of_getLsbD_eq
  intro k hk
  simp only [payloadHL, payloadV16, BitVec.getLsbD_append]
  interval_cases k <;> simp

theorem word_dt (op : Byte) (p : Payload) : commandWord op p &&& 0xFF00000000000000 = commandWord op 0 := by
  apply BitVec.eq_of_getLsbD_eq
  intro k hk
  simp only [commandWord, BitVec.getLsbD_and, BitVec.getLsbD_append]
  interval_cases k <;> simp

/-! ### One lemma per instruction -/

theorem bcdEnc (v : Nat) : Statement (.bcdEnc v) :=
  ⟨opcodeMap[0], List.getElem_mem _, rfl, (word_v16 0x01 (BitVec.ofNat 16 v)).trans (by decide)⟩

theorem bcdDec (b : Byte) : Statement (.bcdDec b) :=
  ⟨opcodeMap[1], List.getElem_mem _, rfl, (word_b8 0x02 b).trans (by decide)⟩

theorem tempDec (hi lo : Byte) : Statement (.tempDec hi lo) :=
  ⟨opcodeMap[2], List.getElem_mem _, rfl, by
    rw [encode, Instr.payload, payloadHL_eq]; exact (word_v16 0x11 (hi ++ lo)).trans (by decide)⟩

theorem tempEnc (t : Int) : Statement (.tempEnc t) :=
  ⟨opcodeMap[3], List.getElem_mem _, rfl, (word_v16 0x12 (t16Bits t)).trans (by decide)⟩

theorem rtcGclk : Statement (.rtcGclk) :=
  ⟨opcodeMap[4], List.getElem_mem _, rfl, by decide⟩

theorem rtcSclk (d : ClockState) : Statement (.rtcSclk d) :=
  ⟨opcodeMap[5], List.getElem_mem _, rfl, by cases d <;> decide⟩

theorem rtcGbat : Statement (.rtcGbat) :=
  ⟨opcodeMap[6], List.getElem_mem _, rfl, by decide⟩

theorem rtcSbat (b : BatteryState) : Statement (.rtcSbat b) :=
  ⟨opcodeMap[7], List.getElem_mem _, rfl, by cases b <;> decide⟩

theorem rtcGdt : Statement (.rtcGdt) :=
  ⟨opcodeMap[8], List.getElem_mem _, rfl, by decide⟩

theorem rtcSdt (dt : DateTime) : Statement (.rtcSdt dt) :=
  ⟨opcodeMap[9], List.getElem_mem _, rfl, (word_dt 0x25 (payloadDT dt)).trans (by decide)⟩

theorem rtcRst : Statement (.rtcRst) :=
  ⟨opcodeMap[10], List.getElem_mem _, rfl, by decide⟩

theorem tmpGamb : Statement (.tmpGamb) :=
  ⟨opcodeMap[11], List.getElem_mem _, rfl, by decide⟩

theorem tmpGupr : Statement (.tmpGupr) :=
  ⟨opcodeMap[12], List.getElem_mem _, rfl, by decide⟩

theorem tmpSupr (t : Int) : Statement (.tmpSupr t) :=
  ⟨opcodeMap[13], List.getElem_mem _, rfl, (word_v16 0x33 (t16Bits t)).trans (by decide)⟩

theorem tmpGlwr : Statement (.tmpGlwr) :=
  ⟨opcodeMap[14], List.getElem_mem _, rfl, by decide⟩

theorem tmpSlwr (t : Int) : Statement (.tmpSlwr t) :=
  ⟨opcodeMap[15], List.getElem_mem _, rfl, (word_v16 0x35 (t16Bits t)).trans (by decide)⟩

theorem tmpGcrt : Statement (.tmpGcrt) :=
  ⟨opcodeMap[16], List.getElem_mem _, rfl, by decide⟩

theorem tmpScrt (t : Int) : Statement (.tmpScrt t) :=
  ⟨opcodeMap[17], List.getElem_mem _, rfl, (word_v16 0x37 (t16Bits t)).trans (by decide)⟩

end Sys2Proof.Laws.EncodesRow
end

