-- ==== Sys2Proof/Laws/Decode.lean ====
section
/-! SUPPORT. Decoding and encoding piece by piece: the opcode and the payload of a word, the fields of each format, and what
the masks of the opcode map say of a word's payload (30_encoding.md R101, R104, R106). -/

namespace Sys2Proof

theorem opcodeOf_word (op : Byte) (p : Payload) : opcodeOf (commandWord op p) = op := by
  apply BitVec.eq_of_getLsbD_eq
  intro k hk
  simp only [opcodeOf, commandWord, BitVec.getLsbD_extractLsb', BitVec.getLsbD_append]
  have : ¬ (56 + k < 56) := by omega
  simp [this, hk]
theorem payloadOf_word (op : Byte) (p : Payload) : payloadOf (commandWord op p) = p := by
  apply BitVec.eq_of_getLsbD_eq
  intro k hk
  simp only [payloadOf, commandWord, BitVec.getLsbD_extractLsb', BitVec.getLsbD_append]
  simp [hk]
theorem word_split (w : Word) : commandWord (opcodeOf w) (payloadOf w) = w := by
  apply BitVec.eq_of_getLsbD_eq
  intro k hk
  simp only [opcodeOf, payloadOf, commandWord, BitVec.getLsbD_extractLsb', BitVec.getLsbD_append]
  by_cases h : k < 56
  · simp [h]
  · have h1 : k - 56 < 8 := by omega
    have h2 : 56 + (k - 56) = k := by omega
    simp [h, h1, h2]

theorem rowOf_cases (op : Byte) :
    (rowOf op = none ∧ ∀ r ∈ opcodeMap, r.opcode ≠ op) ∨ ∃ r ∈ opcodeMap, rowOf op = some r ∧ r.opcode = op := by
  cases h : rowOf op with
  | none => exact .inl ⟨rfl, by unfold rowOf at h; rw [List.find?_eq_none] at h; simpa using h⟩
  | some r => exact .inr ⟨r, List.mem_of_find?_eq_some h, rfl, by simpa using List.find?_some h⟩

theorem decode_word {i : Instr} : decode (encode i) = match rowOf i.opcode with
  | none => .error .badOpcode
  | some r => if encode i &&& r.mask = r.pattern then .ok (r.operands i.payload) else .error .badMbz := by
  simp only [decode, encode, opcodeOf_word, payloadOf_word]
  rfl
theorem value16_v16 (v : BitVec 16) : value16 (payloadV16 v) = v := by
  apply BitVec.eq_of_getLsbD_eq
  intro k hk
  simp only [value16, payloadV16, BitVec.getLsbD_extractLsb', BitVec.getLsbD_append]
  simp [hk]
theorem lowByte_b8 (v : Byte) : lowByte (payloadB8 v) = v := by
  apply BitVec.eq_of_getLsbD_eq
  intro k hk
  simp only [lowByte, payloadB8, BitVec.getLsbD_extractLsb', BitVec.getLsbD_append]
  simp [hk]
theorem lowByte_hl (h l : Byte) : lowByte (payloadHL h l) = l := by
  apply BitVec.eq_of_getLsbD_eq
  intro k hk
  simp only [lowByte, payloadHL, BitVec.getLsbD_extractLsb', BitVec.getLsbD_append]
  simp [hk]
theorem highByte_hl (h l : Byte) : highByte (payloadHL h l) = h := by
  apply BitVec.eq_of_getLsbD_eq
  intro k hk
  simp only [highByte, payloadHL, BitVec.getLsbD_extractLsb', BitVec.getLsbD_append]
  have : ¬ (8 + k < 8) := by omega
  simp [hk, this]

theorem dateTimeOf_dt (dt : DateTime) (h : dt.fits = true) : dateTimeOf (payloadDT dt) = dt := by
  have e : ∀ (a : BitVec 16) (b c d e f : Byte), dateTimeOf (a ++ b ++ c ++ d ++ e ++ f) = ⟨a.toNat, b.toNat, c.toNat, d.toNat, e.toNat, f.toNat⟩ := by
    intro a b c d e f
    have h1 : (a ++ b ++ c ++ d ++ e ++ f : Payload).extractLsb' 40 16 = a := by
      apply BitVec.eq_of_getLsbD_eq; intro k hk
      simp only [BitVec.getLsbD_extractLsb', BitVec.getLsbD_append]
      interval_cases k <;> simp
    have h2 : (a ++ b ++ c ++ d ++ e ++ f : Payload).extractLsb' 32 8 = b := by
      apply BitVec.eq_of_getLsbD_eq; intro k hk
      simp only [BitVec.getLsbD_extractLsb', BitVec.getLsbD_append]
      interval_cases k <;> simp
    have h3 : (a ++ b ++ c ++ d ++ e ++ f : Payload).extractLsb' 24 8 = c := by
      apply BitVec.eq_of_getLsbD_eq; intro k hk
      simp only [BitVec.getLsbD_extractLsb', BitVec.getLsbD_append]
      interval_cases k <;> simp
    have h4 : (a ++ b ++ c ++ d ++ e ++ f : Payload).extractLsb' 16 8 = d := by
      apply BitVec.eq_of_getLsbD_eq; intro k hk
      simp only [BitVec.getLsbD_extractLsb', BitVec.getLsbD_append]
      interval_cases k <;> simp
    have h5 : (a ++ b ++ c ++ d ++ e ++ f : Payload).extractLsb' 8 8 = e := by
      apply BitVec.eq_of_getLsbD_eq; intro k hk
      simp only [BitVec.getLsbD_extractLsb', BitVec.getLsbD_append]
      interval_cases k <;> simp
    have h6 : (a ++ b ++ c ++ d ++ e ++ f : Payload).extractLsb' 0 8 = f := by
      apply BitVec.eq_of_getLsbD_eq; intro k hk
      simp only [BitVec.getLsbD_extractLsb', BitVec.getLsbD_append]
      interval_cases k <;> simp
    simp only [dateTimeOf, h1, h2, h3, h4, h5, h6]
  rw [payloadDT, e]
  simp only [DateTime.fits, fitsU16, fitsU8, Bool.and_eq_true, decide_eq_true_eq] at h
  cases dt
  simp only [BitVec.toNat_ofNat] at *
  congr <;> omega

theorem toInt_t16 (t : Int) (h : fitsT16 t = true) : (t16Bits t).toInt = t := by
  simp only [fitsT16, decide_eq_true_eq] at h
  rw [t16Bits, BitVec.toInt_ofInt]
  exact Int.bmod_eq_of_le (by omega) (by omega)

theorem decode_row {i : Instr} {r : Row} (h : rowOf i.opcode = some r) (hm : encode i &&& r.mask = r.pattern) : decode (encode i) = .ok (r.operands i.payload) := by
  rw [decode_word, h]; simp [hm]

theorem encodesRow (i : Instr) : Laws.EncodesRow.Statement i := by
  cases i
  · exact Laws.EncodesRow.bcdEnc _
  · exact Laws.EncodesRow.bcdDec _
  · exact Laws.EncodesRow.tempDec _ _
  · exact Laws.EncodesRow.tempEnc _
  · exact Laws.EncodesRow.rtcGclk
  · exact Laws.EncodesRow.rtcSclk _
  · exact Laws.EncodesRow.rtcGbat
  · exact Laws.EncodesRow.rtcSbat _
  · exact Laws.EncodesRow.rtcGdt
  · exact Laws.EncodesRow.rtcSdt _
  · exact Laws.EncodesRow.rtcRst
  · exact Laws.EncodesRow.tmpGamb
  · exact Laws.EncodesRow.tmpGupr
  · exact Laws.EncodesRow.tmpSupr _
  · exact Laws.EncodesRow.tmpGlwr
  · exact Laws.EncodesRow.tmpSlwr _
  · exact Laws.EncodesRow.tmpGcrt
  · exact Laws.EncodesRow.tmpScrt _

theorem rowOf_mem : ∀ r ∈ opcodeMap, ∃ q, rowOf r.opcode = some q ∧ q.mask = r.mask ∧ q.pattern = r.pattern := by
  intro r hr
  fin_cases hr <;> exact ⟨_, rfl, rfl, rfl⟩

theorem decode_ok (i : Instr) : ∃ q, rowOf i.opcode = some q ∧ decode (encode i) = .ok (q.operands i.payload) := by
  obtain ⟨r, hr, ho, hm⟩ := encodesRow i
  obtain ⟨q, h1, h2, h3⟩ := rowOf_mem r hr
  rw [ho] at h1
  exact ⟨q, h1, decode_row h1 (by rw [h2, h3]; exact hm)⟩


theorem bit_of_mask {w m p : Word} (h : w &&& m = p) (k : Nat) (hk : m.getLsbD k = true) : w.getLsbD k = p.getLsbD k := by
  rw [← h]; simp [hk]

theorem payload_n {w : Word} {p : Word} (h : w &&& 0xFFFFFFFFFFFFFFFF = p) (hp : p.extractLsb' 0 56 = 0) : payloadOf w = 0 := by
  have : w = p := by rw [← h]; have : (0xFFFFFFFFFFFFFFFF : Word) = BitVec.allOnes 64 := by decide
                     rw [this]; simp [-BitVec.reduceAllOnes]
  rw [this]; exact hp

theorem payload_v16 {w : Word} {p : Word} (h : w &&& 0xFFFFFFFFFFFF0000 = p) (hp : p.extractLsb' 0 56 = 0) :
    payloadOf w = payloadV16 (value16 (payloadOf w)) := by
  apply BitVec.eq_of_getLsbD_eq; intro k hk
  have hb := bit_of_mask h k
  have hp := congrArg (fun x => x.getLsbD k) hp
  simp only [payloadV16, value16, payloadOf, BitVec.getLsbD_extractLsb', BitVec.getLsbD_append] at hp ⊢
  by_cases h16 : k < 16
  · simp [h16]
  · have hm : (0xFFFFFFFFFFFF0000 : Word).getLsbD k = true := by
      have : ∀ k < 56, ¬ k < 16 → (0xFFFFFFFFFFFF0000 : Word).getLsbD k = true := by decide
      exact this k hk h16
    have := hb hm
    simp_all
theorem payload_b8 {w : Word} {p : Word} (h : w &&& 0xFFFFFFFFFFFFFF00 = p) (hp : p.extractLsb' 0 56 = 0) :
    payloadOf w = payloadB8 (lowByte (payloadOf w)) := by
  apply BitVec.eq_of_getLsbD_eq; intro k hk
  have hb := bit_of_mask h k
  have hp := congrArg (fun x => x.getLsbD k) hp
  simp only [payloadB8, lowByte, payloadOf, BitVec.getLsbD_extractLsb', BitVec.getLsbD_append] at hp ⊢
  by_cases h16 : k < 8
  · simp [h16]
  · have hm : (0xFFFFFFFFFFFFFF00 : Word).getLsbD k = true := by
      have : ∀ k < 56, ¬ k < 8 → (0xFFFFFFFFFFFFFF00 : Word).getLsbD k = true := by decide
      exact this k hk h16
    have := hb hm
    simp_all
theorem payload_s1 {w : Word} {p : Word} (h : w &&& 0xFFFFFFFFFFFFFFFE = p) (hp : p.extractLsb' 0 56 = 0) :
    payloadOf w = payloadS1 (stateBit (payloadOf w)) := by
  apply BitVec.eq_of_getLsbD_eq; intro k hk
  have hb := bit_of_mask h k
  have hp := congrArg (fun x => x.getLsbD k) hp
  simp only [stateBit, payloadOf, BitVec.getLsbD_extractLsb'] at hp ⊢
  by_cases h16 : k = 0
  · subst h16; cases hw : w.getLsbD 0 <;> simp [payloadS1]
  · have hm : (0xFFFFFFFFFFFFFFFE : Word).getLsbD k = true := by
      have : ∀ k < 56, k ≠ 0 → (0xFFFFFFFFFFFFFFFE : Word).getLsbD k = true := by decide
      exact this k hk h16
    have := hb hm
    cases hw : w.getLsbD 0 <;> simp_all [payloadS1]

theorem v16_hl (p : Payload) : payloadHL (highByte p) (lowByte p) = payloadV16 (value16 p) := by
  rw [Laws.EncodesRow.payloadHL_eq]
  congr 1
  apply BitVec.eq_of_getLsbD_eq; intro k hk
  simp only [highByte, lowByte, value16, BitVec.getLsbD_extractLsb', BitVec.getLsbD_append]
  interval_cases k <;> simp

theorem dt_dateTimeOf (p : Payload) : payloadDT (dateTimeOf p) = p ∧ (dateTimeOf p).fits = true := by
  constructor
  · simp only [payloadDT, dateTimeOf, BitVec.ofNat_toNat, BitVec.setWidth_eq]
    apply BitVec.eq_of_getLsbD_eq; intro k hk
    simp only [BitVec.getLsbD_extractLsb', BitVec.getLsbD_append]
    interval_cases k <;> simp
  · have := fun i => (p.extractLsb' i 8).isLt
    have h16 := (p.extractLsb' 40 16).isLt
    unfold DateTime.fits fitsU16 fitsU8 dateTimeOf
    simp only [Bool.and_eq_true, decide_eq_true_eq]
    exact ⟨⟨⟨⟨⟨h16, this _⟩, this _⟩, this _⟩, this _⟩, this _⟩

theorem t16_toInt (v : BitVec 16) : t16Bits v.toInt = v ∧ fitsT16 v.toInt = true := by
  refine ⟨BitVec.ofInt_toInt, ?_⟩
  have h1 := v.toInt_lt
  have h2 := v.le_toInt
  simp only [fitsT16, decide_eq_true_eq]
  omega


end Sys2Proof
end

