-- ==== Sys2Proof/Laws/Memory.lean ====
section
/-! SUPPORT. The register space: a read after a write, the canonical form, and that the register cells are disjoint
under a legal configuration (20_memory.md R67). -/

namespace Sys2Proof.Machine

/-! ### Read after write -/

theorem lookup_filter (cs : List Host.Cell) (a x : Nat) :
    Memory.lookup (cs.filter (fun c => c.1 != a)) x = if x = a then Memory.unlisted else Memory.lookup cs x := by
  induction cs with
  | nil => simp [Memory.lookup]
  | cons c cs ih =>
    by_cases hc : c.1 = a
    · rw [List.filter_cons_of_neg (by simp [hc]), ih]
      by_cases hx : x = a
      · simp [hx]
      · have : a ≠ x := fun e => hx e.symm
        simp [hx, Memory.lookup, hc, this]
    · rw [List.filter_cons_of_pos (by simp [hc])]
      by_cases hcx : c.1 = x
      · have : x ≠ a := fun e => hc (hcx.trans e)
        simp [Memory.lookup, hcx, this]
      · simp only [Memory.lookup, hcx, if_false, ih]

theorem lookup_place {cs : List Host.Cell} {a : Nat} (h : ∀ c ∈ cs, c.1 ≠ a) (b : Byte) (x : Nat) :
    Memory.lookup (Memory.place cs (a, b)) x = if x = a then b else Memory.lookup cs x := by
  induction cs with
  | nil =>
    by_cases hx : x = a
    · simp [Memory.place, Memory.lookup, hx]
    · have : a ≠ x := fun e => hx e.symm
      simp [Memory.place, Memory.lookup, hx, this]
  | cons c cs ih =>
    have hc : c.1 ≠ a := h c (by simp)
    have ih := ih (fun d hd => h d (by simp [hd]))
    unfold Memory.place
    by_cases hx : x = a
    · subst hx
      split <;> simp [Memory.lookup, hc, ih]
    · have hax : a ≠ x := fun e => hx e.symm
      split <;> simp [Memory.lookup, hx, hax, ih]

/-- A read after a write: the byte written at its own address, the old byte at every other. -/
theorem read_write (m : Memory) (a x : Nat) (b : Byte) :
    (m.write a b).read x = if x = a then b else m.read x := by
  unfold Memory.write Memory.read Memory.insert
  by_cases hb : b = Memory.unlisted
  · simp only [hb, if_true, lookup_filter]
  · simp only [hb, if_false]
    rw [lookup_place (by simp), lookup_filter]
    split <;> simp_all

@[simp] theorem read_write_same (m : Memory) (a : Nat) (b : Byte) : (m.write a b).read a = b := by
  simp [read_write]

theorem read_write_ne (m : Memory) {a x : Nat} (b : Byte) (h : x ≠ a) : (m.write a b).read x = m.read x := by
  simp [read_write, h]

@[simp] theorem writeAll_nil (m : Memory) : m.writeAll [] = m := rfl

/-! ### The canonical form -/

theorem sortedAbove_mono {cs : List Host.Cell} {lo lo' : Nat} (h : Memory.sortedAbove lo cs = true) (hl : lo' ≤ lo) :
    Memory.sortedAbove lo' cs = true := by
  cases cs with
  | nil => rfl
  | cons c cs =>
    simp only [Memory.sortedAbove, Bool.and_eq_true, decide_eq_true_eq] at h ⊢
    exact ⟨⟨by omega, h.1.2⟩, h.2⟩

theorem sortedAbove_filter {cs : List Host.Cell} {lo : Nat} (a : Nat) (h : Memory.sortedAbove lo cs = true) :
    Memory.sortedAbove lo (cs.filter (fun c => c.1 != a)) = true := by
  induction cs generalizing lo with
  | nil => rfl
  | cons c cs ih =>
    simp only [Memory.sortedAbove, Bool.and_eq_true, decide_eq_true_eq] at h
    by_cases hc : c.1 = a
    · rw [List.filter_cons_of_neg (by simp [hc])]
      exact sortedAbove_mono (ih h.2) (by omega)
    · rw [List.filter_cons_of_pos (by simp [hc])]
      simp only [Memory.sortedAbove, Bool.and_eq_true, decide_eq_true_eq]
      exact ⟨h.1, ih h.2⟩

theorem sortedAbove_place {cs : List Host.Cell} {lo a : Nat} {b : Byte} (h : Memory.sortedAbove lo cs = true)
    (hne : ∀ c ∈ cs, c.1 ≠ a) (ha : lo ≤ a) (hb : b ≠ Memory.unlisted) :
    Memory.sortedAbove lo (Memory.place cs (a, b)) = true := by
  induction cs generalizing lo with
  | nil => simp [Memory.place, Memory.sortedAbove, ha, hb]
  | cons c cs ih =>
    simp only [Memory.sortedAbove, Bool.and_eq_true, decide_eq_true_eq] at h
    have hc : c.1 ≠ a := hne c (by simp)
    unfold Memory.place
    split
    · rename_i hlt
      simp only [Memory.sortedAbove, Bool.and_eq_true, decide_eq_true_eq]
      exact ⟨⟨ha, hb⟩, ⟨by simp only at hlt; omega, h.1.2⟩, h.2⟩
    · rename_i hlt
      simp only [Memory.sortedAbove, Bool.and_eq_true, decide_eq_true_eq]
      exact ⟨h.1, ih h.2 (fun d hd => hne d (by simp [hd])) (by simp only at hlt; omega)⟩

/-- A write keeps the canonical form. -/
theorem wf_write {m : Memory} (h : m.wf = true) (a : Nat) (b : Byte) : (m.write a b).wf = true := by
  unfold Memory.wf Memory.write Memory.insert
  simp only
  split
  · exact sortedAbove_filter a h
  · rename_i hb
    exact sortedAbove_place (sortedAbove_filter a h) (by simp) (Nat.zero_le a) hb

/-- Writes one after the other keep the canonical form. -/
theorem wf_writeAll {m : Memory} (h : m.wf = true) (l : List Host.Cell) : (m.writeAll l).wf = true := by
  induction l generalizing m with
  | nil => exact h
  | cons c l ih => exact ih (wf_write h c.1 c.2)

/-- A pair write keeps the canonical form. -/
theorem wf_writePair {m : Memory} (h : m.wf = true) (k : Nat) (hi lo : Byte) : (m.writePair k hi lo).wf = true :=
  wf_write (wf_write h _ _) _ _

/-- Writing the clock registers keeps the canonical form. -/
theorem wf_writeClock {m : Memory} (h : m.wf = true) (c : Config) (r : ClockRegs) : (m.writeClock c r).wf = true := by
  unfold Memory.writeClock
  exact wf_write (wf_write (wf_write (wf_write (wf_write (wf_write h _ _) _ _) _ _) _ _) _ _) _ _

/-- The empty register space of State.reset is in canonical form. -/
theorem wf_reset : State.reset.mem.wf = true := rfl

/-- Reading a pair after it was written. -/
theorem read_writePair (m : Memory) (k x : Nat) (hi lo : Byte) :
    (m.writePair k hi lo).read x = if x = k + 1 then lo else if x = k then hi else m.read x := by
  simp [Memory.writePair, read_write]

/-! ### Disjoint cells (20_memory.md R67) -/

section Disjoint
variable {c : Config}

theorem rtcKey_inj (h : c.Legal) {r r' : RtcReg} : rtcKey c r = rtcKey c r' ↔ r = r' := by
  constructor
  · intro e
    have hn := h.2.1
    have e : (rtcOffset c r).toNat = (rtcOffset c r').toNat := by
      simp only [rtcKey, regKey, rtcAddr] at e; omega
    have e := BitVec.eq_of_toNat_eq e
    simp only [List.nodup_cons, List.mem_cons, List.not_mem_nil, or_false, not_or] at hn
    cases r <;> cases r' <;> simp only [rtcOffset] at e <;> first | rfl | (exfalso; simp_all)
  · exact fun e => by rw [e]

theorem tmpKey_inj (h : c.Legal) {q q' : TmpPair} : tmpKey c q = tmpKey c q' ↔ q = q' := by
  constructor
  · intro e
    have hn := h.2.2.1
    have e : (tmpOffset c q).toNat = (tmpOffset c q').toNat := by
      simp only [tmpKey, regKey, tmpAddr] at e; omega
    have e := BitVec.eq_of_toNat_eq e
    simp only [List.nodup_cons, List.mem_cons, List.not_mem_nil, or_false, not_or] at hn
    cases q <;> cases q' <;> simp only [tmpOffset] at e <;> first | rfl | (exfalso; simp_all)
  · exact fun e => by rw [e]

/-- A key's first byte is even, a pair's second byte odd: they never meet. -/
theorem tmpKey_succ_ne (q q' : TmpPair) : tmpKey c q + 1 ≠ tmpKey c q' := by
  simp only [tmpKey, regKey]; omega

theorem rtcKey_ne_tmpKey (h : c.Legal) (r : RtcReg) (q : TmpPair) : rtcKey c r ≠ tmpKey c q := by
  have hd := h.1
  have h1 := (rtcOffset c r).isLt
  have h2 := (tmpOffset c q).isLt
  intro e
  simp only [rtcKey, tmpKey, regKey, rtcAddr, tmpAddr] at e
  omega

theorem rtcKey_ne_tmpKey_succ (r : RtcReg) (q : TmpPair) : rtcKey c r ≠ tmpKey c q + 1 := by
  simp only [rtcKey, tmpKey, regKey]; omega

/-- A key of a time register is not that of `WKDAY`. -/
theorem wkday_not_timeKey (h : c.Legal) : rtcKey c .wkday ∉ timeKeys c := by
  simp [timeKeys, rtcKey_inj h]

theorem tmpKey_not_timeKey (h : c.Legal) (q : TmpPair) : tmpKey c q ∉ timeKeys c := by
  have := fun r => (rtcKey_ne_tmpKey h r q).symm
  simp [timeKeys, this]

theorem tmpKey_succ_not_timeKey (q : TmpPair) : tmpKey c q + 1 ∉ timeKeys c := by
  have := fun r => (rtcKey_ne_tmpKey_succ (c := c) r q).symm
  simp [timeKeys, this]

end Disjoint

end Sys2Proof.Machine
end

