-- ==== Sys2Proof/Laws/State.lean ====
section
/-! SUPPORT. One lemma per field per update of the state, and per draw taken: what an update leaves alone. -/

namespace Sys2Proof.Machine

/-! ### `respond`, `begin`, `advance` -/

section Block
variable (s : State) (r : Word) (op : Byte)

@[simp] theorem respond_rsp : (s.respond r).rsp = r := rfl
@[simp] theorem respond_busy : (s.respond r).busy = false := rfl
@[simp] theorem respond_seq : (s.respond r).seq = .idle := rfl
@[simp] theorem respond_cmd : (s.respond r).cmd = s.cmd := rfl
@[simp] theorem respond_mem : (s.respond r).mem = s.mem := rfl
@[simp] theorem respond_env : (s.respond r).env = s.env := rfl
@[simp] theorem respond_cfg : (s.respond r).cfg = s.cfg := rfl
@[simp] theorem respond_agenda : (s.respond r).agenda = s.agenda := rfl
@[simp] theorem respond_acc : (s.respond r).acc = s.acc := rfl
@[simp] theorem respond_old : (s.respond r).old = s.old := rfl
@[simp] theorem respond_s1 : (s.respond r).s1 = s.s1 := rfl
@[simp] theorem respond_s2 : (s.respond r).s2 = s.s2 := rfl

@[simp] theorem begin_rsp : (s.begin op).rsp = s.rsp := rfl
@[simp] theorem begin_busy : (s.begin op).busy = true := rfl
@[simp] theorem begin_seq : (s.begin op).seq = .busy op 0 := rfl
@[simp] theorem begin_cmd : (s.begin op).cmd = s.cmd := rfl
@[simp] theorem begin_mem : (s.begin op).mem = s.mem := rfl
@[simp] theorem begin_env : (s.begin op).env = s.env := rfl
@[simp] theorem begin_cfg : (s.begin op).cfg = s.cfg := rfl
@[simp] theorem begin_agenda : (s.begin op).agenda = s.agenda := rfl
@[simp] theorem begin_acc : (s.begin op).acc = s.acc := rfl
@[simp] theorem begin_old : (s.begin op).old = s.old := rfl
@[simp] theorem begin_s1 : (s.begin op).s1 = s.s1 := rfl
@[simp] theorem begin_s2 : (s.begin op).s2 = s.s2 := rfl

@[simp] theorem advance_rsp : s.advance.rsp = s.rsp := by unfold State.advance; split <;> rfl
@[simp] theorem advance_busy : s.advance.busy = s.busy := by unfold State.advance; split <;> rfl
@[simp] theorem advance_cmd : s.advance.cmd = s.cmd := by unfold State.advance; split <;> rfl
@[simp] theorem advance_mem : s.advance.mem = s.mem := by unfold State.advance; split <;> rfl
@[simp] theorem advance_env : s.advance.env = s.env := by unfold State.advance; split <;> rfl
@[simp] theorem advance_cfg : s.advance.cfg = s.cfg := by unfold State.advance; split <;> rfl
@[simp] theorem advance_agenda : s.advance.agenda = s.agenda := by unfold State.advance; split <;> rfl
@[simp] theorem advance_acc : s.advance.acc = s.acc := by unfold State.advance; split <;> rfl
@[simp] theorem advance_old : s.advance.old = s.old := by unfold State.advance; split <;> rfl
@[simp] theorem advance_s1 : s.advance.s1 = s.s1 := by unfold State.advance; split <;> rfl
@[simp] theorem advance_s2 : s.advance.s2 = s.s2 := by unfold State.advance; split <;> rfl
theorem advance_seq {op : Byte} {n : Nat} (h : s.seq = .busy op n) : s.advance.seq = .busy op (n + 1) := by
  simp [State.advance, h]

@[simp] theorem pop_mem : s.pop.mem = s.mem := rfl
@[simp] theorem pop_cfg : s.pop.cfg = s.cfg := rfl
@[simp] theorem pop_env : s.pop.env = s.env := rfl
@[simp] theorem pop_cmd : s.pop.cmd = s.cmd := rfl
@[simp] theorem pop_rsp : s.pop.rsp = s.rsp := rfl
@[simp] theorem pop_busy : s.pop.busy = s.busy := rfl
@[simp] theorem pop_seq : s.pop.seq = s.seq := rfl
@[simp] theorem pop_agenda : s.pop.agenda = s.agenda.tail := rfl

end Block

/-! ### Registers read through an update that leaves `mem` and `cfg` alone -/

theorem rtc_congr {s t : State} (hm : t.mem = s.mem) (hc : t.cfg = s.cfg) (r : RtcReg) : t.rtc r = s.rtc r := by
  simp [State.rtc, hm, hc]

theorem oscEn_congr {s t : State} (hm : t.mem = s.mem) (hc : t.cfg = s.cfg) : t.oscEn = s.oscEn := by
  simp [State.oscEn, rtc_congr hm hc]

theorem tmpHi_congr {s t : State} (hm : t.mem = s.mem) (hc : t.cfg = s.cfg) (q : TmpPair) : t.tmpHi q = s.tmpHi q := by
  simp [State.tmpHi, hm, hc]

theorem tmpLo_congr {s t : State} (hm : t.mem = s.mem) (hc : t.cfg = s.cfg) (q : TmpPair) : t.tmpLo q = s.tmpLo q := by
  simp [State.tmpLo, hm, hc]

@[simp] theorem respond_rtc (s : State) (w : Word) (r : RtcReg) : (s.respond w).rtc r = s.rtc r := rfl
@[simp] theorem begin_rtc (s : State) (op : Byte) (r : RtcReg) : (s.begin op).rtc r = s.rtc r := rfl
@[simp] theorem advance_rtc (s : State) (r : RtcReg) : s.advance.rtc r = s.rtc r := rtc_congr (by simp) (by simp) r
@[simp] theorem respond_oscEn (s : State) (w : Word) : (s.respond w).oscEn = s.oscEn := rfl
@[simp] theorem begin_oscEn (s : State) (op : Byte) : (s.begin op).oscEn = s.oscEn := rfl
@[simp] theorem advance_oscEn (s : State) : s.advance.oscEn = s.oscEn := oscEn_congr (by simp) (by simp)

/-! ### Draws -/

section Taken
variable (s : State)

@[simp] theorem takeBus_mem : s.takeBus.mem = s.mem := rfl
@[simp] theorem takeBus_cfg : s.takeBus.cfg = s.cfg := rfl
@[simp] theorem takeBus_oscEn : s.takeBus.oscEn = s.oscEn := rfl
@[simp] theorem takeBus_rtc (r : RtcReg) : s.takeBus.rtc r = s.rtc r := rfl
@[simp] theorem takeBus_busTaken : s.takeBus.env.bus.taken = s.env.bus.taken + 1 := rfl
@[simp] theorem takeBus_settle : s.takeBus.env.settle = s.env.settle := rfl
@[simp] theorem takeSettle_mem : s.takeSettle.mem = s.mem := rfl
@[simp] theorem takeSettle_cfg : s.takeSettle.cfg = s.cfg := rfl
@[simp] theorem takeSettle_oscEn : s.takeSettle.oscEn = s.oscEn := rfl
@[simp] theorem takeSettle_bus : s.takeSettle.env.bus = s.env.bus := rfl
@[simp] theorem takeTick_mem : s.takeTick.mem = s.mem := rfl
@[simp] theorem takeTick_cfg : s.takeTick.cfg = s.cfg := rfl
@[simp] theorem takeTick_bus : s.takeTick.env.bus = s.env.bus := rfl
@[simp] theorem takeTick_settle : s.takeTick.env.settle = s.env.settle := rfl

end Taken

/-- After a draw is taken, the draw after it is the next one. -/
theorem drawAt_next {α : Type} (free : Nat → α) (d : Draws α) (k : Nat) :
    drawAt free (drawNext d) k = drawAt free d (k + 1) := by
  cases d with
  | mk l n => cases l <;> simp [drawAt, drawNext, Nat.add_assoc, Nat.add_comm 1 k]

@[simp] theorem takeBus_busDraw (s : State) (k : Nat) : s.takeBus.busDraw k = s.busDraw (k + 1) :=
  drawAt_next _ _ _

@[simp] theorem takeBus_settleDraw (s : State) (k : Nat) : s.takeBus.settleDraw k = s.settleDraw k := rfl

@[simp] theorem takeSettle_settleDraw (s : State) (k : Nat) : s.takeSettle.settleDraw k = s.settleDraw (k + 1) :=
  drawAt_next _ _ _

@[simp] theorem takeSettle_busDraw (s : State) (k : Nat) : s.takeSettle.busDraw k = s.busDraw k := rfl

theorem busDraw_congr {s t : State} (h : t.env.bus = s.env.bus) (k : Nat) : t.busDraw k = s.busDraw k := by
  simp [State.busDraw, h]

theorem settleDraw_congr {s t : State} (h : t.env.settle = s.env.settle) (k : Nat) :
    t.settleDraw k = s.settleDraw k := by
  simp [State.settleDraw, h]

/-! ### What a register holds after a failure -/

section Failure
variable (s : State) {k n : Nat} (old new : Byte)

theorem afterFailure_before (h : k < n) : s.afterFailure k n old new = old := by simp [State.afterFailure, h]
theorem afterFailure_at : s.afterFailure k k old new = (s.busDraw k).lo := by simp [State.afterFailure]
theorem afterFailure_after (h : n < k) : s.afterFailure k n old new = new := by
  simp [State.afterFailure, show ¬ k < n by omega, show k ≠ n by omega]

end Failure

end Sys2Proof.Machine
end

