-- ==== Sys2Proof/Laws/Device.lean ====
section
/-! SUPPORT. What the environment can do between two transactions: a tick, the ticks of a gap, a settle wait, all said once
as `Aged`. -/

namespace Sys2Proof.Machine

/-! ### The carry chain on the six registers -/

section Chain
variable (j c : ClockRegs)

@[simp] theorem carryYear_sec : (carryYear j c).sec = c.sec := by unfold carryYear; split_ifs <;> rfl
@[simp] theorem carryYear_hour : (carryYear j c).hour = c.hour := by unfold carryYear; split_ifs <;> rfl
@[simp] theorem carryYear_month : (carryYear j c).month = c.month := by unfold carryYear; split_ifs <;> rfl

@[simp] theorem carryMonth_sec : (carryMonth j c).sec = c.sec := by
  unfold carryMonth; split_ifs <;> first | rfl | simp
@[simp] theorem carryMonth_hour : (carryMonth j c).hour = c.hour := by
  unfold carryMonth; split_ifs <;> first | rfl | simp
theorem carryMonth_kept : (carryMonth j c).month &&& 0xE0 = c.month &&& 0xE0 := by
  unfold carryMonth
  split
  · split
    · exact putField_kept .month _ _
    · rw [carryYear_month]; exact putField_kept .month _ _
  · exact scramble_kept .month _ _

@[simp] theorem carryDay_sec : (carryDay j c).sec = c.sec := by
  unfold carryDay; split_ifs <;> first | rfl | simp
@[simp] theorem carryDay_hour : (carryDay j c).hour = c.hour := by
  unfold carryDay; split_ifs <;> first | rfl | simp
theorem carryDay_kept : (carryDay j c).month &&& 0xE0 = c.month &&& 0xE0 := by
  unfold carryDay
  split
  · split
    · rfl
    · exact carryMonth_kept _ _
  · exact scramble_kept .month _ _

@[simp] theorem carryHour_sec : (carryHour j c).sec = c.sec := by
  unfold carryHour; split_ifs <;> first | rfl | simp
theorem carryHour_hour_kept : (carryHour j c).hour &&& 0xC0 = c.hour &&& 0xC0 := by
  unfold carryHour
  split
  · split
    · exact putField_kept .hour _ _
    · rw [carryDay_hour]; exact putField_kept .hour _ _
  · exact scramble_kept .hour _ _
theorem carryHour_month_kept : (carryHour j c).month &&& 0xE0 = c.month &&& 0xE0 := by
  unfold carryHour
  split
  · split
    · rfl
    · exact carryDay_kept _ _
  · exact scramble_kept .month _ _

@[simp] theorem carryMinute_sec : (carryMinute j c).sec = c.sec := by
  unfold carryMinute; split_ifs <;> first | rfl | simp
theorem carryMinute_hour_kept : (carryMinute j c).hour &&& 0xC0 = c.hour &&& 0xC0 := by
  unfold carryMinute
  split
  · split
    · rfl
    · exact carryHour_hour_kept _ _
  · exact scramble_kept .hour _ _
theorem carryMinute_month_kept : (carryMinute j c).month &&& 0xE0 = c.month &&& 0xE0 := by
  unfold carryMinute
  split
  · split
    · rfl
    · exact carryHour_month_kept _ _
  · exact scramble_kept .month _ _

/-- A tick keeps `OSC_EN` (60_exceptions.md R217). -/
theorem tickRegs_osc_kept : (tickRegs j c).sec &&& 0x80 = c.sec &&& 0x80 := by
  unfold tickRegs
  split
  · split
    · exact putField_kept .second _ _
    · rw [carryMinute_sec]; exact putField_kept .second _ _
  · exact scramble_kept .second _ _

/-- A tick keeps `HOUR[7:6]` (60_exceptions.md R218, R219). -/
theorem tickRegs_hour_kept : (tickRegs j c).hour &&& 0xC0 = c.hour &&& 0xC0 := by
  unfold tickRegs
  split
  · split
    · rfl
    · exact carryMinute_hour_kept _ _
  · exact scramble_kept .hour _ _

/-- A tick keeps `MONTH[7:5]` (60_exceptions.md R218, R219). -/
theorem tickRegs_month_kept : (tickRegs j c).month &&& 0xE0 = c.month &&& 0xE0 := by
  unfold tickRegs
  split
  · split
    · rfl
    · exact carryMinute_month_kept _ _
  · exact scramble_kept .month _ _

variable {j c}

/-- A tick on a well-formed seconds field adds one, modulo 60 (60_exceptions.md R217). -/
theorem tickRegs_second (h : fieldWithin .second c.sec 0 59 = true) :
    fieldWithin .second (tickRegs j c).sec 0 59 = true ∧
      fieldOf .second (tickRegs j c).sec = (fieldOf .second c.sec + 1) % 60 := by
  have hb := (fieldWithin_iff.mp h).2.2
  unfold tickRegs
  simp only [h, if_true]
  split
  · rename_i h58
    have hm : fieldOf .second c.sec + 1 ≤ fieldMax .second := by simp [fieldMax]; omega
    refine ⟨fieldWithin_putField _ hm (Nat.zero_le _) (by omega), ?_⟩
    rw [fieldOf_putField _ hm]; omega
  · rename_i h58
    rw [carryMinute_sec]
    refine ⟨fieldWithin_putField _ (Nat.zero_le _) (Nat.zero_le _) (by omega), ?_⟩
    rw [fieldOf_putField _ (Nat.zero_le _)]; omega

/-- Before the seconds wrap, a tick changes no other register. -/
theorem tickRegs_below_wrap (h : fieldWithin .second c.sec 0 59 = true) (h58 : fieldOf .second c.sec ≤ 58) :
    tickRegs j c = { c with sec := putField .second c.sec (fieldOf .second c.sec + 1) } := by
  simp [tickRegs, h, h58]

end Chain

/-! ### The registers after a tick -/

theorem read_writeClock_outside {m : Memory} {c : Config} (r : ClockRegs) {a : Nat} (h : a ∉ timeKeys c) :
    (m.writeClock c r).read a = m.read a := by
  simp only [timeKeys, List.mem_cons, List.not_mem_nil, or_false, not_or] at h
  simp [Memory.writeClock, read_write, h]

/-- The registers read back after the clock is written (R67: the cells are disjoint). -/
theorem read_writeClock {m : Memory} {c : Config} (hc : c.Legal) (r : ClockRegs) (x : RtcReg) :
    (m.writeClock c r).read (rtcKey c x) =
      match x with
      | .sec => r.sec
      | .min => r.min
      | .hour => r.hour
      | .wkday => m.read (rtcKey c .wkday)
      | .day => r.day
      | .month => r.month
      | .year => r.year := by
  cases x <;> simp [Memory.writeClock, read_write, rtcKey_inj hc]

theorem tick_stopped {s : State} (h : s.oscEn = false) : s.tick = s := by simp [State.tick, h]

theorem tick_running {s : State} (h : s.oscEn = true) :
    s.tick = { s.takeTick with mem := s.mem.writeClock s.cfg (tickRegs (s.tickDraw 0) s.clock) } := by
  simp [State.tick, h]

/-! ### What time does to the state -/

/-- `t` is `s` after some ticks of the device and nothing else: the one thing the environment can do to the registers
between two transactions, under `NoOtherBusMaster` (20_memory.md R73; 60_exceptions.md R216 to R220). -/
structure Aged (s t : State) : Prop where
  /-- Only the register space and the draws change, and no bus or settle draw is taken. -/
  block : t = { s with mem := t.mem, env := t.env }
  bus : t.env.bus = s.env.bus
  settle : t.env.settle = s.env.settle
  /-- Nothing outside the six time registers changes. -/
  outside : ∀ a, a ∉ timeKeys s.cfg → t.mem.read a = s.mem.read a
  /-- Preserved bits are kept, `OSC_EN` among them. -/
  kept : ∀ r, t.rtc r &&& preservedMask r = s.rtc r &&& preservedMask r
  /-- A well-formed seconds field stays well formed. -/
  second : fieldWithin .second (s.rtc .sec) 0 59 = true → fieldWithin .second (t.rtc .sec) 0 59 = true
  /-- A stopped clock does not change. -/
  stopped : s.oscEn = false → t.mem = s.mem
  wf : s.mem.wf = true → t.mem.wf = true

theorem Aged.cfg {s t : State} (h : Aged s t) : t.cfg = s.cfg := by rw [h.block]
theorem Aged.cmd {s t : State} (h : Aged s t) : t.cmd = s.cmd := by rw [h.block]
theorem Aged.rsp {s t : State} (h : Aged s t) : t.rsp = s.rsp := by rw [h.block]
theorem Aged.busy {s t : State} (h : Aged s t) : t.busy = s.busy := by rw [h.block]
theorem Aged.seq {s t : State} (h : Aged s t) : t.seq = s.seq := by rw [h.block]
theorem Aged.old {s t : State} (h : Aged s t) : t.old = s.old := by rw [h.block]
theorem Aged.s1 {s t : State} (h : Aged s t) : t.s1 = s.s1 := by rw [h.block]
theorem Aged.s2 {s t : State} (h : Aged s t) : t.s2 = s.s2 := by rw [h.block]
theorem Aged.acc {s t : State} (h : Aged s t) : t.acc = s.acc := by rw [h.block]
theorem Aged.agenda {s t : State} (h : Aged s t) : t.agenda = s.agenda := by rw [h.block]

theorem Aged.osc {s t : State} (h : Aged s t) : t.oscEn = s.oscEn := bit7_eq_of_and (h.kept .sec)

theorem Aged.refl (s : State) : Aged s s :=
  ⟨rfl, rfl, rfl, fun _ _ => rfl, fun _ => rfl, id, fun _ => rfl, id⟩

theorem Aged.trans {s t u : State} (h : Aged s t) (g : Aged t u) : Aged s u where
  block := by rw [g.block, h.block]
  bus := g.bus.trans h.bus
  settle := g.settle.trans h.settle
  outside := fun a ha => (g.outside a (by rw [h.cfg]; exact ha)).trans (h.outside a ha)
  kept := fun r => (g.kept r).trans (h.kept r)
  second := g.second ∘ h.second
  stopped := fun hs => (g.stopped (h.osc.trans hs)).trans (h.stopped hs)
  wf := g.wf ∘ h.wf

/-- One tick. -/
theorem aged_tick {s : State} (hc : s.cfg.Legal) : Aged s s.tick := by
  by_cases ho : s.oscEn = true
  · rw [tick_running ho]
    have hr : ∀ x, ({ s.takeTick with mem := s.mem.writeClock s.cfg (tickRegs (s.tickDraw 0) s.clock) } : State).rtc x =
        (s.mem.writeClock s.cfg (tickRegs (s.tickDraw 0) s.clock)).read (rtcKey s.cfg x) := fun _ => rfl
    refine ⟨rfl, rfl, rfl, fun a ha => read_writeClock_outside _ ha, fun r => ?_, fun h => ?_,
      fun hs => absurd (ho.symm.trans hs) (by simp), fun h => wf_writeClock h _ _⟩
    · rw [hr, read_writeClock hc]
      cases r
      · exact tickRegs_osc_kept _ _
      · simp [preservedMask]
      · exact tickRegs_hour_kept _ _
      · rfl
      · simp [preservedMask]
      · exact tickRegs_month_kept _ _
      · simp [preservedMask]
    · rw [hr, read_writeClock hc]
      exact (tickRegs_second (c := s.clock) h).1
  · rw [tick_stopped (by simpa using ho)]; exact Aged.refl s

/-- So many ticks. -/
theorem aged_ticks {s : State} (hc : s.cfg.Legal) (k : Nat) : Aged s (State.ticks k s) := by
  induction k generalizing s with
  | zero => exact Aged.refl s
  | succ k ih =>
    have h := aged_tick hc
    exact h.trans (ih (by rw [h.cfg]; exact hc))

theorem aged_with_mem {s t : State} (h : Aged s t) (l : List Host.Cell) (hl : l = []) :
    Aged s { t with mem := t.mem.writeAll l } := by
  subst hl; exact h

/-- The gap before a transaction. -/
theorem aged_gap {s : State} (hc : s.cfg.Legal) (hf : (s.busDraw 0).foreign = []) : Aged s s.gap :=
  aged_with_mem (aged_ticks hc _) _ hf

/-- Before a transaction: time passes, and its draw is taken. -/
theorem beforeBus_spec {s : State} (gap : Bool) (hc : s.cfg.Legal) (hf : (s.busDraw 0).foreign = []) :
    ∃ t, Aged s t ∧ s.beforeBus gap = t.takeBus := by
  cases gap
  · exact ⟨s, Aged.refl s, rfl⟩
  · exact ⟨s.gap, aged_gap hc hf, rfl⟩

/-- A settle wait: time passes, and its draw is taken. -/
theorem settle_spec {s : State} (hc : s.cfg.Legal) (hf : (s.settleDraw 0).foreign = []) :
    ∃ t, Aged s t ∧ s.settle = t.takeSettle ∧
      t = State.ticks (if s.oscEn then min (s.settleDraw 0).ticks s.cfg.settleTicksMax else 0) s := by
  refine ⟨_, aged_ticks hc _, ?_, rfl⟩
  simp [State.settle, hf, State.takeSettle]

/-- The seconds field after so many ticks of a running clock (60_exceptions.md R217; 70_reset_and_hazards.md R251). -/
theorem ticks_second {s : State} (hc : s.cfg.Legal) (ho : s.oscEn = true)
    (hs : fieldWithin .second (s.rtc .sec) 0 59 = true) (k : Nat) :
    fieldOf .second ((State.ticks k s).rtc .sec) = (fieldOf .second (s.rtc .sec) + k) % 60 := by
  induction k generalizing s with
  | zero =>
    have := (fieldWithin_iff.mp hs).2.2
    simp only [State.ticks]; omega
  | succ k ih =>
    have h := aged_tick hc
    have h1 : fieldOf .second (s.tick.rtc .sec) = (fieldOf .second (s.rtc .sec) + 1) % 60 := by
      rw [tick_running ho]
      show fieldOf .second ((s.mem.writeClock s.cfg _).read (rtcKey s.cfg .sec)) = _
      rw [read_writeClock hc]
      exact (tickRegs_second (c := s.clock) hs).2
    simp only [State.ticks]
    rw [ih (by rw [h.cfg]; exact hc) (h.osc.trans ho) (h.second hs), h1]
    omega

end Sys2Proof.Machine
end

