-- ==== Sys2Proof/Laws/Ops.lean ====
section
/-! SUPPORT. One lemma for each shared operation of the sequencer: everything it can do, on a legal configuration and with no
foreign write in its gap. The bus primitives first, then the run of a command. -/

namespace Sys2Proof.Machine

/-! ### Bus primitives -/

/-- A byte read of an RTC register: time passes, the draw is taken, and the read fails or hands on the register's byte. -/
theorem readReg_spec {s : State} (hc : s.cfg.Legal) (hf : (s.busDraw 0).foreign = []) (r : RtcReg)
    (use : Byte → State → StepOut) :
    ∃ t, Aged s t ∧ readReg r use s =
      if (s.busDraw 0).fails then (t.takeBus, some busFault) else use (t.rtc r) t.takeBus := by
  obtain ⟨t, ha, ht⟩ := beforeBus_spec true hc hf
  refine ⟨t, ha, ?_⟩
  simp only [readReg, readByte, ht]
  split
  · rfl
  · show use (t.mem.read (rtcKey s.cfg r)) _ = _
    rw [← ha.cfg]; rfl

/-- A byte write of an RTC register: time passes, the draw is taken, and the register holds the byte, or on a failure the
drawn byte. -/
theorem writeReg_spec {s : State} (hc : s.cfg.Legal) (hf : (s.busDraw 0).foreign = []) (r : RtcReg) (b : Byte) :
    ∃ t, Aged s t ∧ writeReg r b s =
      if (s.busDraw 0).fails then
        ({ t.takeBus with mem := t.mem.write (rtcKey s.cfg r) (s.busDraw 0).lo }, some busFault)
      else ({ t.takeBus with mem := t.mem.write (rtcKey s.cfg r) b }, none) := by
  obtain ⟨t, ha, ht⟩ := beforeBus_spec true hc hf
  refine ⟨t, ha, ?_⟩
  simp only [writeReg, writeByte, ht]
  rfl

/-- A pair read of a threshold. -/
theorem readPair_spec {s : State} (hc : s.cfg.Legal) (hf : (s.busDraw 0).foreign = []) {q : TmpPair} (hq : q ≠ .amb)
    (use : Byte → Byte → State → StepOut) :
    ∃ t, Aged s t ∧ readPair q use s =
      if (s.busDraw 0).fails then (t.takeBus, some busFault) else use (t.tmpHi q) (t.tmpLo q) t.takeBus := by
  obtain ⟨t, ha, ht⟩ := beforeBus_spec true hc hf
  refine ⟨t, ha, ?_⟩
  simp only [readPair, ht, hq, if_false]
  rfl

/-- A pair read of `TAMB` hands on the draw, which then stands in the pair. -/
theorem readPair_amb_spec {s : State} (hc : s.cfg.Legal) (hf : (s.busDraw 0).foreign = [])
    (use : Byte → Byte → State → StepOut) :
    ∃ t, Aged s t ∧ readPair .amb use s =
      if (s.busDraw 0).fails then (t.takeBus, some busFault)
      else use (s.busDraw 0).hi (s.busDraw 0).lo (t.takeBus.sample (s.busDraw 0).hi (s.busDraw 0).lo) := by
  obtain ⟨t, ha, ht⟩ := beforeBus_spec true hc hf
  refine ⟨t, ha, ?_⟩
  simp only [readPair, ht, if_true]
  split
  · rfl
  · congr 1 <;> simp [State.tmpHi, State.tmpLo, State.sample, read_writePair]

/-- A pair write. -/
theorem writePair_spec {s : State} (hc : s.cfg.Legal) (hf : (s.busDraw 0).foreign = []) (q : TmpPair) (hi lo : Byte) :
    ∃ t, Aged s t ∧ writePair q hi lo s =
      if (s.busDraw 0).fails then
        ({ t.takeBus with mem := t.mem.writePair (tmpKey s.cfg q) (s.busDraw 0).hi (s.busDraw 0).lo }, some busFault)
      else ({ t.takeBus with mem := t.mem.writePair (tmpKey s.cfg q) hi lo }, none) := by
  obtain ⟨t, ha, ht⟩ := beforeBus_spec true hc hf
  refine ⟨t, ha, ?_⟩
  simp only [writePair, ht, takeBus_mem, takeBus_cfg, ha.cfg]

/-- The second sample: no time passes, the draw is taken, and the read fails or the comparison decides. -/
theorem sampleSecond_spec (d : ClockState) (s : State) :
    sampleSecond d s =
      if (s.busDraw 0).fails then (s.takeBus, some busFault)
      else ({ s.takeBus with s2 := secondsSample (s.rtc .sec) },
        if confirms d s.s1 (secondsSample (s.rtc .sec)) then none else some (.hardware .tickVerify)) := rfl

/-! ### The same where no tick falls in the gap: on a stopped clock, or where the draw has none -/

section Still
variable {s : State}

theorem ticks_stopped (ho : s.oscEn = false) (k : Nat) : State.ticks k s = s := by
  induction k with
  | zero => rfl
  | succ k ih => simp only [State.ticks, tick_stopped ho, ih]

/-- During a settle wait a stopped clock changes only by what another writes. -/
theorem settle_stopped_foreign (ho : s.oscEn = false) :
    s.settle = { s.takeSettle with mem := s.mem.writeAll (s.settleDraw 0).foreign } := by
  simp [State.settle, ho, State.ticks, State.takeSettle]

theorem settle_stopped (ho : s.oscEn = false) (hf : (s.settleDraw 0).foreign = []) : s.settle = s.takeSettle := by
  rw [settle_stopped_foreign ho, hf]; rfl

/-- A gap without a tick and without a foreign write changes nothing. -/
theorem gap_still (h : s.oscEn = false ∨ (s.busDraw 0).gap = 0) (hf : (s.busDraw 0).foreign = []) : s.gap = s := by
  rcases h with ho | hg
  · simp [State.gap, ticks_stopped ho, hf]
  · simp [State.gap, hg, State.ticks, hf]

theorem readReg_still (h : s.oscEn = false ∨ (s.busDraw 0).gap = 0) (hf : (s.busDraw 0).foreign = []) (r : RtcReg)
    (use : Byte → State → StepOut) :
    readReg r use s = if (s.busDraw 0).fails then (s.takeBus, some busFault) else use (s.rtc r) s.takeBus := by
  simp only [readReg, readByte, State.beforeBus, gap_still h hf, if_true]
  rfl

theorem writeReg_still (h : s.oscEn = false ∨ (s.busDraw 0).gap = 0) (hf : (s.busDraw 0).foreign = []) (r : RtcReg)
    (b : Byte) :
    writeReg r b s =
      if (s.busDraw 0).fails then
        ({ s.takeBus with mem := s.mem.write (rtcKey s.cfg r) (s.busDraw 0).lo }, some busFault)
      else ({ s.takeBus with mem := s.mem.write (rtcKey s.cfg r) b }, none) := by
  simp only [writeReg, writeByte, State.beforeBus, gap_still h hf, if_true]
  rfl

end Still

/-! ### The run of a command -/

theorem doSteps_nil (s : State) : doSteps [] s = (s, none) := rfl

theorem doSteps_ok {f : SeqStep} {fs : List SeqStep} {s t : State} (h : f s = (t, none)) :
    doSteps (f :: fs) s = doSteps fs t.advance := by simp [doSteps, h]

theorem doSteps_raise {f : SeqStep} {fs : List SeqStep} {s t : State} {e : Err} (h : f s = (t, some e)) :
    doSteps (f :: fs) s = (t, some e) := by simp [doSteps, h]

theorem doSteps_append (fs gs : List SeqStep) (s : State) :
    doSteps (fs ++ gs) s =
      match (doSteps fs s).2 with
      | none => doSteps gs (doSteps fs s).1
      | some e => ((doSteps fs s).1, some e) := by
  induction fs generalizing s with
  | nil => rfl
  | cons f fs ih =>
    cases h : (f s).2 with
    | none => simp only [List.cons_append, doSteps, h]; exact ih _
    | some e => simp only [List.cons_append, doSteps, h]

theorem doSteps_append_ok {fs gs : List SeqStep} {s t : State} (h : doSteps fs s = (t, none)) :
    doSteps (fs ++ gs) s = doSteps gs t := by simp [doSteps_append, h]

theorem doSteps_append_raise {fs gs : List SeqStep} {s t : State} {e : Err} (h : doSteps fs s = (t, some e)) :
    doSteps (fs ++ gs) s = (t, some e) := by simp [doSteps_append, h]

/-- Whatever every step keeps, the steps keep: `P n` holds with `n` steps to come. -/
theorem doSteps_keeps (P : Nat → State → Prop) {fs : List SeqStep} {n : Nat} {s : State}
    (hmono : ∀ k u, P (k + 1) u → P k u)
    (hstep : ∀ f ∈ fs, ∀ k u, P (k + 1) u → P k (f u).1)
    (hadv : ∀ k u, P k u → P k u.advance)
    (h : P (n + fs.length) s) : P n (doSteps fs s).1 := by
  have hle : ∀ j k u, P (k + j) u → P k u := by
    intro j
    induction j with
    | zero => exact fun _ _ h => h
    | succ j ih => exact fun k u h => ih k u (hmono _ _ h)
  induction fs generalizing s with
  | nil => exact h
  | cons f fs ih =>
    have h1 : P (n + fs.length) (f s).1 := hstep f (by simp) _ _ (by simpa [Nat.add_assoc] using h)
    cases h2 : (f s).2 with
    | none =>
      simp only [doSteps, h2]
      exact ih (fun g hg => hstep g (by simp [hg])) (hadv _ _ h1)
    | some e =>
      simp only [doSteps, h2]
      exact hle _ _ _ h1

/-- Steps that all succeed, with what they keep: `P n` holds with `n` steps to come. -/
theorem doSteps_succeed (P : Nat → State → Prop) {fs : List SeqStep} {n : Nat} {s : State}
    (hstep : ∀ f ∈ fs, ∀ k u, P (k + 1) u → (f u).2 = none ∧ P k (f u).1)
    (hadv : ∀ k u, P k u → P k u.advance)
    (h : P (n + fs.length) s) : ∃ t, doSteps fs s = (t, none) ∧ P n t := by
  induction fs generalizing s with
  | nil => exact ⟨s, rfl, h⟩
  | cons f fs ih =>
    obtain ⟨h2, h1⟩ := hstep f (by simp) (n + fs.length) s (by simpa [Nat.add_assoc] using h)
    simp only [doSteps, h2]
    exact ih (fun g hg => hstep g (by simp [hg])) (hadv _ _ h1)

/-- The response that follows a raise. -/
def raisedResponse (c : Bool) : Err → Word
  | .hardware d => if c then okResponse 0 else errResponse (.hardware d)
  | .range d => errResponse (.range d)
  | .format d => errResponse (.format d)
  | .illegal d => errResponse (.illegal d)

/-- A raise ends the command with a response, and does nothing else. -/
theorem raised_respond (c : Bool) (e : Err) (s : State) : raised c e s = s.respond (raisedResponse c e) := by
  cases e <;> cases c <;> simp [raised, abort, raisedResponse]

/-- A command ends with a response, and does nothing else. -/
theorem finish_respond (c : Bool) (r : StepOut) :
    finish c r = r.1.respond (match r.2 with | none => okResponse r.1.acc | some e => raisedResponse c e) := by
  obtain ⟨t, e⟩ := r
  cases e with
  | none => rfl
  | some e => exact raised_respond c e t

theorem runCommand_ok {op : Byte} {c : Command} {s : State} {p : Payload} (h : c.start s.cfg = .ok p) :
    runCommand op c s = finish c.catches (doSteps c.steps { s.begin op with acc := p }) := by simp [runCommand, h]

theorem runCommand_error {op : Byte} {c : Command} {s : State} {e : Err} (h : c.start s.cfg = .error e) :
    runCommand op c s = raised c.catches e (s.begin op) := by simp [runCommand, h]

/-- Every meaning is the run of its command. -/
theorem exec_eq_run (i : Instr) (s : State) : exec i s = .next (runCommand i.opcode (commandOf i) s) := by
  cases i <;> rfl

end Sys2Proof.Machine
end

