-- ==== Sys2Proof/Laws/Steps.lean ====
section
/-! SUPPORT. What every step of every command does, on every configuration and in every environment: it touches the register
space, the scratch registers and the draws only, keeps the canonical form, and counts one draw. -/

namespace Sys2Proof.Machine

/-- `t` is `s` but for the register space, the scratch registers and the draws. -/
structure Inside (s t : State) : Prop where
  cmd : t.cmd = s.cmd
  rsp : t.rsp = s.rsp
  busy : t.busy = s.busy
  seq : t.seq = s.seq
  cfg : t.cfg = s.cfg
  agenda : t.agenda = s.agenda
  wf : s.mem.wf = true → t.mem.wf = true

theorem Inside.refl (s : State) : Inside s s := ⟨rfl, rfl, rfl, rfl, rfl, rfl, id⟩

theorem Inside.trans {s t u : State} (h : Inside s t) (g : Inside t u) : Inside s u :=
  ⟨g.cmd.trans h.cmd, g.rsp.trans h.rsp, g.busy.trans h.busy, g.seq.trans h.seq, g.cfg.trans h.cfg,
    g.agenda.trans h.agenda, g.wf ∘ h.wf⟩

/-! ### Time -/

theorem inside_tick (s : State) : Inside s s.tick ∧ s.tick.env.bus = s.env.bus ∧ s.tick.env.settle = s.env.settle := by
  unfold State.tick
  split
  · exact ⟨⟨rfl, rfl, rfl, rfl, rfl, rfl, fun h => wf_writeClock h _ _⟩, rfl, rfl⟩
  · exact ⟨Inside.refl s, rfl, rfl⟩

theorem inside_ticks (k : Nat) (s : State) :
    Inside s (State.ticks k s) ∧ (State.ticks k s).env.bus = s.env.bus ∧
      (State.ticks k s).env.settle = s.env.settle := by
  induction k generalizing s with
  | zero => exact ⟨Inside.refl s, rfl, rfl⟩
  | succ k ih =>
    obtain ⟨h, hb, hs⟩ := inside_tick s
    obtain ⟨g, gb, gs⟩ := ih s.tick
    exact ⟨h.trans g, gb.trans hb, gs.trans hs⟩

theorem inside_gap (s : State) : Inside s s.gap ∧ s.gap.env.bus = s.env.bus ∧ s.gap.env.settle = s.env.settle := by
  obtain ⟨h, hb, hs⟩ := inside_ticks (min (s.busDraw 0).gap s.cfg.gapTicksMax) s
  exact ⟨⟨h.cmd, h.rsp, h.busy, h.seq, h.cfg, h.agenda, fun w => wf_writeAll (h.wf w) _⟩, hb, hs⟩

/-- Before a transaction: one bus draw is taken, no settle draw. -/
theorem inside_beforeBus (g : Bool) (s : State) :
    Inside s (s.beforeBus g) ∧ (s.beforeBus g).env.bus = drawNext s.env.bus ∧
      (s.beforeBus g).env.settle = s.env.settle := by
  cases g
  · exact ⟨⟨rfl, rfl, rfl, rfl, rfl, rfl, id⟩, rfl, rfl⟩
  · obtain ⟨h, hb, hs⟩ := inside_gap s
    refine ⟨⟨h.cmd, h.rsp, h.busy, h.seq, h.cfg, h.agenda, h.wf⟩, ?_, hs⟩
    show drawNext s.gap.env.bus = _
    rw [hb]

/-- A byte read of an RTC register, in terms of the gap before it. -/
theorem readReg_gap (r : RtcReg) (use : Byte → State → StepOut) (s : State) :
    readReg r use s = if (s.busDraw 0).fails then (s.gap.takeBus, some busFault) else use (s.gap.rtc r) s.gap.takeBus := by
  show (if _ then _ else use (s.gap.mem.read (rtcKey s.cfg r)) _) = _
  rw [← (inside_gap s).1.cfg]; rfl

/-- A byte write of an RTC register, in terms of the gap before it. -/
theorem writeReg_gap (r : RtcReg) (b : Byte) (s : State) :
    writeReg r b s =
      if (s.busDraw 0).fails then
        ({ s.gap.takeBus with mem := s.gap.mem.write (rtcKey s.cfg r) (s.busDraw 0).lo }, some busFault)
      else ({ s.gap.takeBus with mem := s.gap.mem.write (rtcKey s.cfg r) b }, none) := rfl

/-- A settle wait: one settle draw is taken, no bus draw. -/
theorem inside_settle (s : State) :
    Inside s s.settle ∧ s.settle.env.bus = s.env.bus ∧ s.settle.env.settle = drawNext s.env.settle := by
  obtain ⟨h, hb, hs⟩ := inside_ticks (if s.oscEn then min (s.settleDraw 0).ticks s.cfg.settleTicksMax else 0) s
  refine ⟨⟨h.cmd, h.rsp, h.busy, h.seq, h.cfg, h.agenda, fun w => wf_writeAll (h.wf w) _⟩, hb, ?_⟩
  show drawNext (State.ticks _ s).env.settle = _
  rw [hs]

/-! ### Steps -/

/-- What a step of a sequencer does: it makes one transaction, or one settle wait that cannot fail, and an error is a
failure of the transaction or one the step's own check raises. -/
structure StepSpec (f : SeqStep) (wait : Bool) (raises : List Err) : Prop where
  inside : ∀ s, Inside s (f s).1
  bus : ∀ s, (f s).1.env.bus = if wait then s.env.bus else drawNext s.env.bus
  settle : ∀ s, (f s).1.env.settle = if wait then drawNext s.env.settle else s.env.settle
  /-- A failed transaction raises `HardwareFault(bus)`; nothing else does. -/
  fault : ∀ s, wait = false → ((f s).2 = some busFault ↔ (s.busDraw 0).fails = true)
  errs : ∀ s e, (f s).2 = some e → (wait = false ∧ e = busFault ∧ (s.busDraw 0).fails = true) ∨ e ∈ raises

/-- A byte read whose use changes scratch registers only and raises one of `raises`. -/
theorem readReg_step {r : RtcReg} {use : Byte → State → StepOut} {raises : List Err} (hb : busFault ∉ raises)
    (h : ∀ b t, Inside t (use b t).1 ∧ (use b t).1.env = t.env)
    (he : ∀ b t e, (use b t).2 = some e → e ∈ raises) : StepSpec (readReg r use) false raises where
  inside := fun s => by
    obtain ⟨hi, -, -⟩ := inside_beforeBus true s
    unfold readReg readByte
    simp only
    split
    · exact hi
    · exact hi.trans (h _ _).1
  bus := fun s => by
    obtain ⟨-, hd, -⟩ := inside_beforeBus true s
    unfold readReg readByte
    simp only
    split
    · simpa using hd
    · simp only [(h _ _).2, hd]; rfl
  settle := fun s => by
    obtain ⟨-, -, hd⟩ := inside_beforeBus true s
    unfold readReg readByte
    simp only
    split
    · simpa using hd
    · simp only [(h _ _).2, hd]; rfl
  fault := fun s _ => by
    unfold readReg readByte
    simp only
    split
    · simp_all
    · rename_i hf
      exact ⟨fun hu => absurd (he _ _ _ hu) hb, fun hf' => absurd hf' hf⟩
  errs := fun s e => by
    unfold readReg readByte
    simp only
    split
    · rename_i hf
      intro h1
      exact .inl ⟨by trivial, by simpa using h1.symm, hf⟩
    · exact fun h1 => .inr (he _ _ _ h1)

theorem writeReg_step (r : RtcReg) (b : State → Byte) : StepSpec (fun s => writeReg r (b s) s) false [] where
  inside := fun s => by
    obtain ⟨hi, -, -⟩ := inside_beforeBus true s
    unfold writeReg writeByte
    simp only
    split <;> exact ⟨hi.cmd, hi.rsp, hi.busy, hi.seq, hi.cfg, hi.agenda, fun w => wf_write (hi.wf w) _ _⟩
  bus := fun s => by
    obtain ⟨-, hd, -⟩ := inside_beforeBus true s
    unfold writeReg writeByte
    simp only
    split <;> simpa using hd
  settle := fun s => by
    obtain ⟨-, -, hd⟩ := inside_beforeBus true s
    unfold writeReg writeByte
    simp only
    split <;> simpa using hd
  fault := fun s _ => by
    unfold writeReg writeByte
    simp only
    split <;> simp_all
  errs := fun s e => by
    unfold writeReg writeByte
    simp only
    split
    · rename_i hf
      intro h1
      exact .inl ⟨by trivial, by simpa using h1.symm, hf⟩
    · simp

theorem readPair_step {q : TmpPair} {use : Byte → Byte → State → StepOut}
    (h : ∀ x y t, Inside t (use x y t).1 ∧ (use x y t).1.env = t.env) (he : ∀ x y t, (use x y t).2 = none) :
    StepSpec (readPair q use) false [] where
  inside := fun s => by
    obtain ⟨hi, -, -⟩ := inside_beforeBus true s
    unfold readPair
    simp only
    split
    · exact hi
    · refine Inside.trans ?_ (h _ _ _).1
      split
      · exact ⟨hi.cmd, hi.rsp, hi.busy, hi.seq, hi.cfg, hi.agenda, fun w => wf_writePair (hi.wf w) _ _ _⟩
      · exact hi
  bus := fun s => by
    obtain ⟨-, hd, -⟩ := inside_beforeBus true s
    unfold readPair
    simp only
    split
    · simpa using hd
    · simp only [(h _ _ _).2]
      split <;> simpa [State.sample] using hd
  settle := fun s => by
    obtain ⟨-, -, hd⟩ := inside_beforeBus true s
    unfold readPair
    simp only
    split
    · simpa using hd
    · simp only [(h _ _ _).2]
      split <;> simpa [State.sample] using hd
  fault := fun s _ => by
    unfold readPair
    simp only
    split
    · simp_all
    · rename_i hf
      simp [he, hf]
  errs := fun s e => by
    unfold readPair
    simp only
    split
    · rename_i hf
      intro h1
      exact .inl ⟨by trivial, by simpa using h1.symm, hf⟩
    · simp [he]

theorem writePair_step (q : TmpPair) (hi lo : Byte) : StepSpec (writePair q hi lo) false [] where
  inside := fun s => by
    obtain ⟨h, -, -⟩ := inside_beforeBus true s
    unfold writePair
    simp only
    split <;> exact ⟨h.cmd, h.rsp, h.busy, h.seq, h.cfg, h.agenda, fun w => wf_writePair (h.wf w) _ _ _⟩
  bus := fun s => by
    obtain ⟨-, hd, -⟩ := inside_beforeBus true s
    unfold writePair
    simp only
    split <;> simpa using hd
  settle := fun s => by
    obtain ⟨-, -, hd⟩ := inside_beforeBus true s
    unfold writePair
    simp only
    split <;> simpa using hd
  fault := fun s _ => by
    unfold writePair
    simp only
    split <;> simp_all
  errs := fun s e => by
    unfold writePair
    simp only
    split
    · rename_i hf
      intro h1
      exact .inl ⟨by trivial, by simpa using h1.symm, hf⟩
    · simp

/-- An update of scratch registers alone. -/
theorem inside_scratch (t : State) (o : Byte) (x y : BitVec 7) (a : Payload) :
    Inside t { t with old := o, s1 := x, s2 := y, acc := a } := ⟨rfl, rfl, rfl, rfl, rfl, rfl, id⟩

theorem rmwRead_step (r : RtcReg) : StepSpec (rmwRead r) false [] :=
  readReg_step (by simp) (fun b t => ⟨inside_scratch t b t.s1 t.s2 t.acc, rfl⟩) (by simp)

theorem rmwWrite_step (r : RtcReg) (m v : Byte) : StepSpec (rmwWrite r m v) false [] :=
  writeReg_step r (fun s => mergeBits s.old m v)

theorem readField_step (f : TimeField) : StepSpec (readField f) false [.format (.field f)] := by
  refine readReg_step (by simp [busFault]) (fun b t => ?_) (fun b t e h => ?_)
  · cases bcdDecode (.field f) (b &&& fieldMask f) with
    | ok v => exact ⟨inside_scratch t t.old t.s1 t.s2 _, rfl⟩
    | error e => exact ⟨Inside.refl t, rfl⟩
  · cases hd : bcdDecode (.field f) (b &&& fieldMask f) with
    | ok v => simp [hd] at h
    | error e' =>
      simp only [hd, Option.some.injEq] at h
      unfold bcdDecode at hd
      split at hd <;> simp_all

theorem readBit_step (r : RtcReg) (i : Nat) : StepSpec (readBit r i) false [] :=
  readReg_step (by simp) (fun _ t => ⟨inside_scratch t t.old t.s1 t.s2 _, rfl⟩) (by simp)

theorem sampleFirst_step : StepSpec sampleFirst false [] :=
  readReg_step (by simp) (fun _ t => ⟨inside_scratch t t.old _ t.s2 t.acc, rfl⟩) (by simp)

theorem waitSettle_step : StepSpec waitSettle true [] where
  inside := fun s => (inside_settle s).1
  bus := fun s => (inside_settle s).2.1
  settle := fun s => (inside_settle s).2.2
  fault := by simp
  errs := by simp [waitSettle]

theorem sampleSecond_step (d : ClockState) : StepSpec (sampleSecond d) false [.hardware .tickVerify] where
  inside := fun s => by
    rw [sampleSecond_spec]
    split <;> exact ⟨rfl, rfl, rfl, rfl, rfl, rfl, id⟩
  bus := fun s => by rw [sampleSecond_spec]; split <;> rfl
  settle := fun s => by rw [sampleSecond_spec]; split <;> rfl
  fault := fun s _ => by
    rw [sampleSecond_spec]
    split
    · simp_all
    · rename_i hf
      simp only [hf]
      split <;> simp [busFault]
  errs := fun s e => by
    rw [sampleSecond_spec]
    split
    · rename_i hf
      intro h1
      exact .inl ⟨by trivial, by simpa using h1.symm, hf⟩
    · simp only
      split
      · simp
      · intro h1; exact .inr (by simpa using h1.symm)

theorem getTemp_step (q : TmpPair) : StepSpec (getTemp q) false [] :=
  readPair_step (fun _ _ t => ⟨inside_scratch t t.old t.s1 t.s2 _, rfl⟩) (by simp)

theorem setTemp_step (q : TmpPair) (t : Int) : StepSpec (setTemp q t) false [] := writePair_step q _ _

end Sys2Proof.Machine
end

