-- ==== Sys2Proof/Laws/Run.lean ====
section
/-! SUPPORT. What the run of a command does, on every configuration and in every environment: what it leaves alone, how many
draws it takes, and which error ends it. -/

namespace Sys2Proof.Machine

/-- The shape of a step: is it a settle wait, and what errors does its own check raise? -/
abbrev StepShape := Bool × List Err

/-- Each step of a list has the shape beside it. -/
abbrev Shaped (fs : List SeqStep) (ks : List StepShape) : Prop :=
  List.Forall₂ (fun f k => StepSpec f k.1 k.2) fs ks

/-- A transaction whose step raises nothing of its own. -/
abbrev plain : StepShape := (false, [])

/-- The shapes of the steps of each command. -/
def shape : Instr → List StepShape
  | .bcdEnc _ => []
  | .bcdDec _ => []
  | .tempDec _ _ => []
  | .tempEnc _ => []
  | .rtcGclk => [plain]
  | .rtcSclk _ => [plain, plain, plain, (true, []), (false, [.hardware .tickVerify])]
  | .rtcGbat => [plain]
  | .rtcSbat _ => [plain, plain]
  | .rtcGdt => [(false, [.format (.field .second)]), (false, [.format (.field .minute)]),
      (false, [.format (.field .hour)]), (false, [.format (.field .day)]), (false, [.format (.field .month)]),
      (false, [.format (.field .year)])]
  | .rtcSdt _ => List.replicate 9 plain
  | .rtcRst => List.replicate 9 plain ++
      [plain, plain, plain, plain, plain, (true, []), (false, [.hardware .tickVerify])]
  | .tmpGamb => [plain]
  | .tmpGupr => [plain]
  | .tmpSupr _ => [plain]
  | .tmpGlwr => [plain]
  | .tmpSlwr _ => [plain]
  | .tmpGcrt => [plain]
  | .tmpScrt _ => [plain]

theorem rmwBits_shaped (r : RtcReg) (m v : Byte) : Shaped (rmwBits r m v) [plain, plain] :=
  .cons (rmwRead_step r) (.cons (rmwWrite_step r m v) .nil)

theorem writeReg_shaped (r : RtcReg) (b : Byte) : Shaped [writeReg r b] [plain] :=
  .cons (writeReg_step r (fun _ => b)) .nil

theorem tickVerify_shaped (d : ClockState) :
    Shaped (tickVerify d) [plain, (true, []), (false, [.hardware .tickVerify])] :=
  .cons sampleFirst_step (.cons waitSettle_step (.cons (sampleSecond_step d) .nil))

theorem shaped_append {fs gs : List SeqStep} {ks ls : List StepShape} (h : Shaped fs ks) (g : Shaped gs ls) :
    Shaped (fs ++ gs) (ks ++ ls) := List.rel_append h g

theorem dateTimeSteps_shaped (dt : DateTime) : Shaped (dateTimeSteps dt) (List.replicate 9 plain) :=
  shaped_append (shaped_append (shaped_append (shaped_append (shaped_append (rmwBits_shaped _ _ _)
    (writeReg_shaped _ _)) (rmwBits_shaped _ _ _)) (writeReg_shaped _ _)) (rmwBits_shaped _ _ _)) (writeReg_shaped _ _)

/-- Every command has its shape. -/
theorem commandOf_shaped (i : Instr) : Shaped (commandOf i).steps (shape i) := by
  cases i with
  | rtcGclk => exact .cons (readBit_step _ _) .nil
  | rtcSclk d => exact shaped_append (rmwBits_shaped _ _ _) (tickVerify_shaped d)
  | rtcGbat => exact .cons (readBit_step _ _) .nil
  | rtcSbat b => exact rmwBits_shaped _ _ _
  | rtcGdt =>
    exact .cons (readField_step _) (.cons (readField_step _) (.cons (readField_step _) (.cons (readField_step _)
      (.cons (readField_step _) (.cons (readField_step _) .nil)))))
  | rtcSdt dt => exact dateTimeSteps_shaped dt
  | rtcRst =>
    have h := shaped_append (shaped_append (shaped_append (dateTimeSteps_shaped epoch)
      (rmwBits_shaped .wkday maskBat (batByte .off))) (rmwBits_shaped .sec maskOsc (oscByte .stopped)))
      (tickVerify_shaped .stopped)
    exact h
  | tmpGamb => exact .cons (getTemp_step _) .nil
  | tmpGupr => exact .cons (getTemp_step _) .nil
  | tmpGlwr => exact .cons (getTemp_step _) .nil
  | tmpGcrt => exact .cons (getTemp_step _) .nil
  | tmpSupr t => exact .cons (setTemp_step _ t) .nil
  | tmpSlwr t => exact .cons (setTemp_step _ t) .nil
  | tmpScrt t => exact .cons (setTemp_step _ t) .nil
  | bcdEnc v => exact .nil
  | bcdDec b => exact .nil
  | tempDec h l => exact .nil
  | tempEnc t => exact .nil

/-! ### What the steps leave alone -/

theorem inside_advance (s : State) : Inside { s with seq := s.advance.seq } s.advance :=
  ⟨by simp, by simp, by simp, rfl, by simp, by simp, by simp⟩

/-- `t` is `s` but for `SEQ`, the register space, the scratch registers and the draws. -/
theorem doSteps_inside {fs : List SeqStep} (h : ∀ f ∈ fs, ∀ s, Inside s (f s).1) (s : State) :
    Inside { s with seq := (doSteps fs s).1.seq } (doSteps fs s).1 := by
  have key : ∀ (P : State → Prop), P s → (∀ u v, P u → Inside u v → P v) → (∀ u, P u → P u.advance) →
      P (doSteps fs s).1 := by
    intro P hs hi ha
    induction fs generalizing s with
    | nil => exact hs
    | cons f fs ih =>
      have h1 : P (f s).1 := hi _ _ hs (h f (by simp) s)
      cases h2 : (f s).2 with
      | none =>
        simp only [doSteps, h2]
        exact ih (fun g hg => h g (by simp [hg])) _ (ha _ h1)
      | some e => simpa only [doSteps, h2] using h1
  have := key (fun u => u.cmd = s.cmd ∧ u.rsp = s.rsp ∧ u.busy = s.busy ∧ u.cfg = s.cfg ∧ u.agenda = s.agenda ∧
      (s.mem.wf = true → u.mem.wf = true)) ⟨rfl, rfl, rfl, rfl, rfl, id⟩
    (fun u v ⟨h1, h2, h3, h4, h5, h6⟩ g => ⟨g.cmd.trans h1, g.rsp.trans h2, g.busy.trans h3, g.cfg.trans h4,
      g.agenda.trans h5, g.wf ∘ h6⟩)
    (fun u hu => by simpa using hu)
  obtain ⟨h1, h2, h3, h4, h5, h6⟩ := this
  exact ⟨h1, h2, h3, rfl, h4, h5, h6⟩

theorem shaped_inside {fs : List SeqStep} {ks : List StepShape} (h : Shaped fs ks) : ∀ f ∈ fs, ∀ s, Inside s (f s).1 := by
  induction h with
  | nil => simp
  | cons hf _ ih =>
    intro f hm
    rcases List.mem_cons.mp hm with rfl | hm
    · exact hf.inside
    · exact ih f hm

/-! ### Draws -/

/-- The transactions of a shape. -/
def busOf (ks : List StepShape) : Nat := (ks.filter (fun k => !k.1)).length

/-- The settle waits of a shape. -/
def settleOf (ks : List StepShape) : Nat := (ks.filter (fun k => k.1)).length

@[simp] theorem busOf_nil : busOf [] = 0 := rfl
@[simp] theorem busOf_bus (l : List Err) (ks : List StepShape) : busOf ((false, l) :: ks) = busOf ks + 1 := rfl
@[simp] theorem busOf_wait (l : List Err) (ks : List StepShape) : busOf ((true, l) :: ks) = busOf ks := rfl
@[simp] theorem settleOf_nil : settleOf [] = 0 := rfl
@[simp] theorem settleOf_bus (l : List Err) (ks : List StepShape) : settleOf ((false, l) :: ks) = settleOf ks := rfl
@[simp] theorem settleOf_wait (l : List Err) (ks : List StepShape) : settleOf ((true, l) :: ks) = settleOf ks + 1 := rfl

theorem busOf_shape (i : Instr) : busOf (shape i) = busCount i := by cases i <;> rfl
theorem settleOf_shape (i : Instr) : settleOf (shape i) = settleCount i := by cases i <;> rfl

/-- The steps take at most the shape's draws, and exactly those if no step raises. -/
theorem doSteps_draws {fs : List SeqStep} {ks : List StepShape} (h : Shaped fs ks) (s : State) :
    s.env.bus.taken ≤ (doSteps fs s).1.env.bus.taken ∧
      (doSteps fs s).1.env.bus.taken ≤ s.env.bus.taken + busOf ks ∧
      s.env.settle.taken ≤ (doSteps fs s).1.env.settle.taken ∧
      (doSteps fs s).1.env.settle.taken ≤ s.env.settle.taken + settleOf ks ∧
      ((doSteps fs s).2 = none → (doSteps fs s).1.env.bus.taken = s.env.bus.taken + busOf ks ∧
        (doSteps fs s).1.env.settle.taken = s.env.settle.taken + settleOf ks) := by
  induction h generalizing s with
  | nil => simp [doSteps]
  | @cons f k fs ks hf _ ih =>
    obtain ⟨w, l⟩ := k
    have hb := hf.bus s
    have hs := hf.settle s
    cases h2 : (f s).2 with
    | none =>
      have := ih (f s).1.advance
      simp only [advance_env] at this
      simp only [doSteps, h2]
      cases w <;> simp only [hb, hs, drawNext, if_true, Bool.false_eq_true, if_false] at this <;>
        simp only [busOf_bus, busOf_wait, settleOf_bus, settleOf_wait] <;>
        exact ⟨by omega, by omega, by omega, by omega, fun hn => by have := this.2.2.2.2 hn; omega⟩
    | some e =>
      simp only [doSteps, h2]
      cases w <;> simp [hb, hs, drawNext]

/-! ### Errors -/

/-- An error that ends the steps is a failed transaction or one some step's check raises. -/
theorem doSteps_error {fs : List SeqStep} {ks : List StepShape} (h : Shaped fs ks) {s : State} {e : Err}
    (he : (doSteps fs s).2 = some e) : (e = busFault ∧ 0 < busOf ks) ∨ ∃ k ∈ ks, e ∈ k.2 := by
  induction h generalizing s with
  | nil => simp [doSteps] at he
  | @cons f k fs ks hf _ ih =>
    obtain ⟨w, l⟩ := k
    cases h2 : (f s).2 with
    | none =>
      simp only [doSteps, h2] at he
      rcases ih he with ⟨h1, h3⟩ | ⟨k, hk, hm⟩
      · left; refine ⟨h1, ?_⟩; cases w <;> simp [h3]
      · exact .inr ⟨k, by simp [hk], hm⟩
    | some e' =>
      simp only [doSteps, h2, Option.some.injEq] at he
      subst he
      rcases hf.errs s e' h2 with ⟨hw, h1, -⟩ | hm
      · left; simp only at hw; subst hw; exact ⟨h1, by simp⟩
      · exact .inr ⟨_, by simp, hm⟩

/-- Only the last step has a check of its own. -/
def lastOnly : List StepShape → Bool
  | [] => true
  | [_] => true
  | k :: ks => k.2.isEmpty && lastOnly ks

/-- Where only the last step has a check of its own, a failing transaction among those to come ends the steps with
`HardwareFault(bus)`. -/
theorem doSteps_fails {fs : List SeqStep} {ks : List StepShape} (h : Shaped fs ks) (hl : lastOnly ks = true) {s : State}
    {n : Nat} (hn : n < busOf ks) (hf : (s.busDraw n).fails = true) : (doSteps fs s).2 = some busFault := by
  induction h generalizing s n with
  | nil => simp at hn
  | @cons f k fs ks hk hks ih =>
    obtain ⟨w, l⟩ := k
    have hl' : ks ≠ [] → l = [] ∧ lastOnly ks = true := by
      intro hne
      cases ks with
      | nil => exact absurd rfl hne
      | cons k' ks' => simpa [lastOnly] using hl
    cases h2 : (f s).2 with
    | some e =>
      simp only [doSteps, h2]
      rcases hk.errs s e h2 with ⟨-, h1, -⟩ | hm
      · rw [h1]
      · cases ks with
        | cons k' ks' => simp [(hl' (by simp)).1] at hm
        | nil =>
          cases w with
          | true => simp at hn
          | false =>
            have h0 : n = 0 := by simpa using hn
            subst h0
            rw [← h2]
            exact (hk.fault s rfl).mpr hf
    | none =>
      simp only [doSteps, h2]
      have hne : ks ≠ [] := by
        rintro rfl
        cases w with
        | true => simp at hn
        | false =>
          have h0 : n = 0 := by simpa using hn
          subst h0
          rw [(hk.fault s rfl).mpr hf] at h2
          cases h2
      have hb := hk.bus s
      cases w with
      | true =>
        refine ih (hl' hne).2 (n := n) (by simpa using hn) ?_
        rw [busDraw_congr (s := s) (by simpa using hb)]
        exact hf
      | false =>
        cases n with
        | zero =>
          rw [(hk.fault s rfl).mpr hf] at h2
          cases h2
        | succ m =>
          refine ih (hl' hne).2 (n := m) (by simpa using hn) ?_
          rw [← takeBus_busDraw] at hf
          rw [busDraw_congr (s := s.takeBus) (by rw [advance_env]; exact hb)]
          exact hf

/-- A transaction that was made and failed was the last, and its error ended the steps (60_exceptions.md R208, R209). -/
theorem doSteps_made {fs : List SeqStep} {ks : List StepShape} (h : Shaped fs ks) {s : State} {n : Nat}
    (hf : (s.busDraw n).fails = true) (hm : s.env.bus.taken + n < (doSteps fs s).1.env.bus.taken) :
    (doSteps fs s).2 = some busFault ∧ (doSteps fs s).1.env.bus.taken = s.env.bus.taken + (n + 1) := by
  induction h generalizing s n with
  | nil => simp [doSteps] at hm
  | @cons f k fs ks hk hks ih =>
    obtain ⟨w, l⟩ := k
    have hb := hk.bus s
    cases h2 : (f s).2 with
    | some e =>
      simp only [doSteps, h2] at hm ⊢
      cases w with
      | true => simp [hb] at hm
      | false =>
        simp only [hb, Bool.false_eq_true, if_false, drawNext] at hm ⊢
        obtain rfl : n = 0 := by omega
        have h3 := (hk.fault s rfl).mpr hf
        exact ⟨by rw [← h2, h3], by omega⟩
    | none =>
      simp only [doSteps, h2] at hm ⊢
      cases w with
      | true =>
        have hb' : (f s).1.advance.env.bus = s.env.bus := by simpa using hb
        have := ih (s := (f s).1.advance) (n := n) (by rw [busDraw_congr (s := s) hb']; exact hf) (by rw [hb']; exact hm)
        rwa [hb'] at this
      | false =>
        cases n with
        | zero => rw [(hk.fault s rfl).mpr hf] at h2; cases h2
        | succ m =>
          have hb' : (f s).1.advance.env.bus = s.takeBus.env.bus := by rw [advance_env]; exact hb
          have ht : s.takeBus.env.bus.taken = s.env.bus.taken + 1 := rfl
          have := ih (s := (f s).1.advance) (n := m) (by rw [busDraw_congr (s := s.takeBus) hb', takeBus_busDraw]; exact hf)
            (by rw [hb', ht]; omega)
          rw [hb', ht] at this
          exact ⟨this.1, by omega⟩

/-- The first transaction that fails was made, where no step before it raises anything: of the commands, all but RTC.GDT. -/
theorem doSteps_reaches {fs : List SeqStep} {ks : List StepShape} (h : Shaped fs ks) (hl : lastOnly ks = true) {s : State}
    {n : Nat} (hn : n < busOf ks) (hq : s.NoFailure n) : s.env.bus.taken + n < (doSteps fs s).1.env.bus.taken := by
  induction h generalizing s n with
  | nil => simp at hn
  | @cons f k fs ks hk hks ih =>
    obtain ⟨w, l⟩ := k
    have hb := hk.bus s
    cases h2 : (f s).2 with
    | some e =>
      simp only [doSteps, h2]
      rcases hk.errs s e h2 with ⟨hw, -, hf⟩ | hm
      · simp only at hw
        subst hw
        obtain rfl : n = 0 := by
          rcases Nat.eq_zero_or_pos n with h0 | h0
          · exact h0
          · rw [hq 0 h0] at hf; cases hf
        simp [hb, drawNext]
      · cases ks with
        | cons k' ks' =>
          have : l = [] ∧ lastOnly (k' :: ks') = true := by simpa [lastOnly] using hl
          simp [this.1] at hm
        | nil =>
          cases w with
          | true => simp at hn
          | false =>
            obtain rfl : n = 0 := by simpa using hn
            simp [hb, drawNext]
    | none =>
      simp only [doSteps, h2]
      have hle := (doSteps_draws hks (f s).1.advance).1
      have hl' : lastOnly ks = true := by
        cases ks with
        | nil => rfl
        | cons k' ks' =>
          have : l = [] ∧ lastOnly (k' :: ks') = true := by simpa [lastOnly] using hl
          exact this.2
      cases w with
      | true =>
        have hb' : (f s).1.advance.env.bus = s.env.bus := by simpa using hb
        have := ih hl' (s := (f s).1.advance) (n := n) (by simpa using hn)
          (fun j hj => by rw [busDraw_congr (s := s) hb']; exact hq j hj)
        rwa [hb'] at this
      | false =>
        have hb' : (f s).1.advance.env.bus = s.takeBus.env.bus := by rw [advance_env]; exact hb
        have ht : s.takeBus.env.bus.taken = s.env.bus.taken + 1 := rfl
        cases n with
        | zero => rw [hb', ht] at hle; omega
        | succ m =>
          have := ih hl' (s := (f s).1.advance) (n := m) (by simpa using hn)
            (fun j hj => by rw [busDraw_congr (s := s.takeBus) hb', takeBus_busDraw]; exact hq _ (by omega))
          rw [hb', ht] at this
          omega

/-! ### The run -/

/-- A command ends with a response, whatever happens: the state is that of its steps, or of its acceptance, with a response
written. -/
theorem runCommand_respond (op : Byte) (c : Command) (s : State) :
    ∃ t r, runCommand op c s = t.respond r ∧
      ((∃ e, c.start s.cfg = .error e ∧ t = s.begin op ∧ r = raisedResponse c.catches e) ∨
        ∃ p, c.start s.cfg = .ok p ∧ t = (doSteps c.steps { s.begin op with acc := p }).1 ∧
          r = match (doSteps c.steps { s.begin op with acc := p }).2 with
            | none => okResponse t.acc
            | some e => raisedResponse c.catches e) := by
  cases h : c.start s.cfg with
  | error e =>
    exact ⟨_, _, (runCommand_error h).trans (raised_respond _ _ _), .inl ⟨e, rfl, rfl, rfl⟩⟩
  | ok p =>
    exact ⟨_, _, (runCommand_ok h).trans (finish_respond _ _), .inr ⟨p, rfl, rfl, rfl⟩⟩

/-! ### Errors by command -/

/-- The errors of the operand check of each command (60_exceptions.md R201, R202). -/
def startErrs : Instr → List Err
  | .bcdEnc _ => [.range .bcdValue]
  | .bcdDec _ => [.format .bcdNibble]
  | .tempDec _ _ => []
  | .tempEnc _ => [.range .tempValue]
  | .rtcGclk => []
  | .rtcSclk _ => []
  | .rtcGbat => []
  | .rtcSbat _ => []
  | .rtcGdt => []
  | .rtcSdt _ => [.range .dtYear, .range .dtMonth, .range .dtDay, .range .dtHour, .range .dtMinute, .range .dtSecond]
  | .rtcRst => []
  | .tmpGamb => []
  | .tmpGupr => []
  | .tmpSupr _ => [.range .tempValue]
  | .tmpGlwr => []
  | .tmpSlwr _ => [.range .tempValue]
  | .tmpGcrt => []
  | .tmpScrt _ => [.range .tempValue]

theorem setTempStart_error {t : Int} {c : Config} {e : Err} (h : setTempStart t c = .error e) : e = .range .tempValue := by
  unfold setTempStart tempEncode at h
  split_ifs at h
  cases h
  rfl

/-- An error of the operand check is one of the command's own. -/
theorem start_error {i : Instr} {c : Config} {e : Err} (h : (commandOf i).start c = .error e) : e ∈ startErrs i := by
  cases i with
  | bcdEnc v => simp only [commandOf, bcdEnc, bcdEncode] at h; split_ifs at h; cases h; simp [startErrs]
  | bcdDec b => simp only [commandOf, bcdDec, bcdDecode] at h; split_ifs at h; cases h; simp [startErrs]
  | tempEnc t => simp only [commandOf, tempEnc, tempEncode] at h; split_ifs at h; cases h; simp [startErrs]
  | rtcSdt dt => simp only [commandOf, rtcSdt, checkDateTime] at h; split_ifs at h <;> cases h <;> simp [startErrs]
  | tmpSupr t => simp [startErrs, setTempStart_error h]
  | tmpSlwr t => simp [startErrs, setTempStart_error h]
  | tmpScrt t => simp [startErrs, setTempStart_error h]
  | tempDec h l => cases h
  | rtcGclk => cases h
  | rtcSclk d => cases h
  | rtcGbat => cases h
  | rtcSbat b => cases h
  | rtcGdt => cases h
  | rtcRst => cases h
  | tmpGamb => cases h
  | tmpGupr => cases h
  | tmpGlwr => cases h
  | tmpGcrt => cases h

/-- Only RTC.RST catches (60_exceptions.md R211). -/
theorem catches_iff (i : Instr) : (commandOf i).catches = true ↔ i = .rtcRst := by
  cases i <;> simp [commandOf, bcdEnc, bcdDec, tempDec, tempEnc, rtcGclk, rtcSclk, rtcGbat, rtcSbat, rtcGdt, rtcSdt,
    rtcRst, tmpGamb, tmpGupr, tmpGlwr, tmpGcrt, tmpSupr, tmpSlwr, tmpScrt, getCommand, setCommand]

theorem catches_false {i : Instr} (h : i ≠ .rtcRst) : (commandOf i).catches = false := by
  simpa using mt (catches_iff i).mp h

theorem raisedResponse_false (e : Err) : raisedResponse false e = errResponse e := by cases e <;> rfl

theorem statusOf_response (st : Status) (p : Payload) : statusOf (responseWord st p) = statusCode st := by
  apply BitVec.eq_of_getLsbD_eq
  intro k hk
  simp only [statusOf, responseWord, BitVec.getLsbD_extractLsb', BitVec.getLsbD_append]
  have : ¬ (56 + k < 56) := by omega
  simp [this, hk]

theorem resultOf_response (st : Status) (p : Payload) : resultOf (responseWord st p) = p := by
  apply BitVec.eq_of_getLsbD_eq
  intro k hk
  simp only [resultOf, responseWord, BitVec.getLsbD_extractLsb', BitVec.getLsbD_append]
  simp [hk]

/-- The status of an error response is its kind's. -/
@[simp] theorem statusOf_err (e : Err) : statusOf (errResponse e) = statusCode (errStatus e) := statusOf_response _ _

@[simp] theorem statusOf_ok (p : Payload) : statusOf (okResponse p) = 0x00 := statusOf_response _ _

theorem statusOf_err_ne_ok (e : Err) : statusOf (errResponse e) ≠ 0x00 := by
  rw [statusOf_err]; cases e <;> simp [errStatus, statusCode]

/-- Everything a command can do, in terms of its steps: its operand check refuses, or its steps run and a response follows. -/
theorem exec_cases (i : Instr) (s : State) :
    (∃ e, (commandOf i).start s.cfg = .error e ∧ e ∈ startErrs i ∧
      exec i s = .next ((s.begin i.opcode).respond (errResponse e))) ∨
    (∃ p, (commandOf i).start s.cfg = .ok p ∧
      ∃ t e, doSteps (commandOf i).steps { s.begin i.opcode with acc := p } = (t, e) ∧
        exec i s = .next (t.respond (match e with
          | none => okResponse t.acc
          | some e => raisedResponse (commandOf i).catches e))) := by
  rw [exec_eq_run]
  cases h : (commandOf i).start s.cfg with
  | error e =>
    left
    have hm := start_error h
    refine ⟨e, rfl, hm, ?_⟩
    have hr : i ≠ .rtcRst := by rintro rfl; cases h
    rw [runCommand_error h, raised_respond, catches_false hr, raisedResponse_false]
  | ok p =>
    right
    exact ⟨p, rfl, _, _, rfl, congrArg _ ((runCommand_ok h).trans (finish_respond _ _))⟩

end Sys2Proof.Machine
end

