-- ==== Sys2Proof/Laws/Step.lean ====
section
/-! SUPPORT. The step of the machine: one equation per host action, and everything a step of the sequencer can do. -/

namespace Sys2Proof.Machine

/-! ### Host actions -/

theorem step_none {s : State} (h : s.agenda = []) : step s = .next (sequencerStep s) := by simp [step, h]

theorem step_wait {s : State} {k : Nat} {l : List HostAct} (h : s.agenda = .wait k :: l) :
    step s = .next (hostWaits k s.pop) := by simp [step, h]

/-- The host does nothing while a command runs: a step of the sequencer. -/
theorem step_wait_busy {s : State} {k : Nat} {l : List HostAct} (h : s.agenda = .wait k :: l) (hb : s.busy = true) :
    step s = .next (sequencerStep s.pop) := by
  simp [step, h, hostWaits, State.pop, hb]

theorem step_present {s : State} {w : Word} {l : List HostAct} (h : s.agenda = .present w :: l) :
    step s = .next (present w s.pop) := by simp [step, h]

theorem step_call {s : State} {w : Word} {l : List HostAct} (h : s.agenda = .call w :: l) :
    step s = blockingCall w s.pop := by simp [step, h]

/-- Where the host issues a command only to an idle block, a block that is called is idle, and so is one that is presented a
word. -/
theorem idle_of_call {s : State} {w : Word} {l : List HostAct} (h : s.agenda = .call w :: l)
    (hi : s.HostIssuesOnlyWhenIdle) : s.busy = false := hi (by simp [State.issues, h])

theorem idle_of_present {s : State} {w : Word} {l : List HostAct} (h : s.agenda = .present w :: l)
    (hi : s.HostIssuesOnlyWhenIdle) : s.busy = false := hi (by simp [State.issues, h])

theorem step_reset {s : State} {l : List HostAct} (h : s.agenda = .reset :: l) : step s = .next (resetBlock s.pop) := by
  simp [step, h]

theorem present_idle {s : State} (h : s.busy = false) (w : Word) :
    present w s = { s with cmd := w, busy := true, seq := .busy (opcodeOf w) 0 } := by simp [present, h, State.begin]

theorem present_busy {s : State} (h : s.busy = true) (w : Word) : present w s = s := by simp [present, h]

theorem blockingCall_busy {s : State} (h : s.busy = true) (w : Word) : blockingCall w s = .next s := by
  simp [blockingCall, h]

theorem blockingCall_ok {s : State} {w : Word} {i : Instr} (h : s.busy = false) (hd : decode w = .ok i) :
    blockingCall w s = exec i (present w s) := by simp [blockingCall, h, hd]

theorem blockingCall_error {s : State} {w : Word} {d : IllegalDetail} (h : s.busy = false) (hd : decode w = .error d) :
    blockingCall w s = .next (abort (.illegal d) (present w s)) := by simp [blockingCall, h, hd]

/-- A decoded instruction has the word's opcode. -/
theorem decode_opcode {w : Word} {i : Instr} (h : decode w = .ok i) : i.opcode = opcodeOf w := by
  unfold decode at h
  rcases rowOf_cases (opcodeOf w) with ⟨h1, -⟩ | ⟨r, hr, h1, h2⟩
  · rw [h1] at h; cases h
  · rw [h1] at h
    simp only at h
    split_ifs at h
    simp only [Except.ok.injEq] at h
    rw [← h2, ← h]
    clear h h1 h2
    fin_cases hr <;> rfl

/-! ### The sequencer -/

theorem sequencerStep_idle {s : State} (h : s.seq = .idle) : sequencerStep s = s := by simp [sequencerStep, h]

/-- A step at a position of a command: its transaction or wait is made and counted, or a response ends the command. -/
theorem stepAt_cases (i : Instr) (n : Nat) (s : State) :
    (∃ f, (commandOf i).steps[n]? = some f ∧ (f s).2 = none ∧ stepAt (commandOf i) n s = (f s).1.advance) ∨
    (∃ f e, (commandOf i).steps[n]? = some f ∧ (f s).2 = some e ∧
      stepAt (commandOf i) n s = (f s).1.respond (raisedResponse (commandOf i).catches e)) ∨
    ((commandOf i).steps[n]? = none ∧ stepAt (commandOf i) n s = s.respond (okResponse s.acc)) := by
  cases h : (commandOf i).steps[n]? with
  | none => exact .inr (.inr ⟨rfl, by simp [stepAt, h, complete]⟩)
  | some f =>
    cases h2 : (f s).2 with
    | none => exact .inl ⟨f, rfl, h2, by simp [stepAt, h, takeStep, h2]⟩
    | some e => exact .inr (.inl ⟨f, e, rfl, h2, by simp [stepAt, h, takeStep, h2, raised_respond]⟩)

/-- Everything a step of a busy sequencer can do: an illegal word or a refused operand ends the command with its response, or
the step at the position is made, from a state that differs in `ACC` only. -/
theorem sequencerStep_cases {s : State} {op : Byte} {n : Nat} (h : s.seq = .busy op n) :
    (∃ d, decode (commandWord op (payloadOf s.cmd)) = .error d ∧
      sequencerStep s = s.respond (errResponse (.illegal d))) ∨
    (∃ i e, decode (commandWord op (payloadOf s.cmd)) = .ok i ∧ n = 0 ∧ (commandOf i).start s.cfg = .error e ∧
      sequencerStep s = s.respond (raisedResponse (commandOf i).catches e)) ∨
    (∃ i a, decode (commandWord op (payloadOf s.cmd)) = .ok i ∧
      ((n = 0 ∧ (commandOf i).start s.cfg = .ok a) ∨ (0 < n ∧ a = s.acc)) ∧
      sequencerStep s = stepAt (commandOf i) n { s with acc := a }) := by
  cases hd : decode (commandWord op (payloadOf s.cmd)) with
  | error d => exact .inl ⟨d, rfl, by simp [sequencerStep, h, hd, abort]⟩
  | ok i =>
    right
    cases n with
    | zero =>
      cases hst : (commandOf i).start s.cfg with
      | error e => exact .inl ⟨i, e, rfl, rfl, hst, by simp [sequencerStep, h, hd, hst, raised_respond]⟩
      | ok p => exact .inr ⟨i, p, rfl, .inl ⟨rfl, hst⟩, by simp [sequencerStep, h, hd, hst]⟩
    | succ k =>
      refine .inr ⟨i, s.acc, rfl, .inr ⟨by omega, rfl⟩, ?_⟩
      have e : sequencerStep s = stepAt (commandOf i) (k + 1) s := by simp [sequencerStep, h, hd]
      exact e

/-- A step of the sequencer takes no host action and changes neither `CMD` nor the configuration. -/
theorem sequencerStep_frame (s : State) :
    (sequencerStep s).cmd = s.cmd ∧ (sequencerStep s).cfg = s.cfg ∧ (sequencerStep s).agenda = s.agenda ∧
      (s.mem.wf = true → (sequencerStep s).mem.wf = true) := by
  cases h : s.seq with
  | idle => rw [sequencerStep_idle h]; exact ⟨rfl, rfl, rfl, id⟩
  | busy op n =>
    rcases sequencerStep_cases h with ⟨d, -, h1⟩ | ⟨i, e, -, -, -, h1⟩ | ⟨i, a, -, -, h1⟩
    · rw [h1]; exact ⟨rfl, rfl, rfl, id⟩
    · rw [h1]; exact ⟨rfl, rfl, rfl, id⟩
    · rw [h1]
      have hin : ∀ f, (commandOf i).steps[n]? = some f → Inside { s with acc := a } (f { s with acc := a }).1 :=
        fun f hf => shaped_inside (commandOf_shaped i) f (List.mem_of_getElem? hf) _
      rcases stepAt_cases i n { s with acc := a } with ⟨f, hf, -, h2⟩ | ⟨f, e, hf, -, h2⟩ | ⟨-, h2⟩
      · rw [h2]
        have := hin f hf
        exact ⟨by simp [this.cmd], by simp [this.cfg], by simp [this.agenda], by simpa using this.wf⟩
      · rw [h2]
        have := hin f hf
        exact ⟨this.cmd, this.cfg, this.agenda, this.wf⟩
      · rw [h2]; exact ⟨rfl, rfl, rfl, id⟩

/-! ### Runs of the sequencer -/

/-- So many steps of the sequencer. -/
def sequence : Nat → State → State
  | 0, s => s
  | k + 1, s => sequence k (sequencerStep s)

theorem sequence_succ (k : Nat) (s : State) : sequence (k + 1) s = sequence k (sequencerStep s) := rfl

theorem sequence_idle {s : State} (h : s.seq = .idle) (k : Nat) : sequence k s = s := by
  induction k with
  | zero => rfl
  | succ k ih => rw [sequence_succ, sequencerStep_idle h, ih]

/-- Without host actions the machine runs the sequencer. -/
theorem runSteps_sequence (k : Nat) {s : State} (h : s.agenda = []) : runSteps k s = .next (sequence k s) := by
  induction k generalizing s with
  | zero => rfl
  | succ k ih =>
    rw [runSteps, step_none h]
    exact ih ((sequencerStep_frame s).2.2.1.trans h)

/-- From a position past the first, the sequencer runs the steps that are left, and then the end of the command. -/
theorem sequence_steps {i : Instr} {s : State} {op : Byte} {n k : Nat} (h0 : 0 < n) (hs : s.seq = .busy op n)
    (hd : decode (commandWord op (payloadOf s.cmd)) = .ok i) (hn : n ≤ (commandOf i).steps.length)
    (hk : (commandOf i).steps.length < n + k) :
    sequence k s = finish (commandOf i).catches (doSteps ((commandOf i).steps.drop n) s) := by
  induction k generalizing s n with
  | zero => omega
  | succ k ih =>
    have e : sequencerStep s = stepAt (commandOf i) n s := by
      obtain ⟨m, rfl⟩ : ∃ m, n = m + 1 := ⟨n - 1, by omega⟩
      simp [sequencerStep, hs, hd]
    rw [sequence_succ, e]
    by_cases hlt : n < (commandOf i).steps.length
    · have hf : (commandOf i).steps[n]? = some ((commandOf i).steps[n]) := by simp [hlt]
      rw [List.drop_eq_getElem_cons hlt]
      have hin := shaped_inside (commandOf_shaped i) _ (List.getElem_mem hlt) s
      simp only [stepAt, hf, takeStep, doSteps]
      cases hr : ((commandOf i).steps[n] s).2 with
      | none => exact ih (by omega) (advance_seq _ (hin.seq.trans hs)) (by simp [hin.cmd, hd]) (by omega) (by omega)
      | some er =>
        simp only [finish]
        exact sequence_idle (by rw [raised_respond]; rfl) k
    · have hf : (commandOf i).steps[n]? = none := by simp; omega
      rw [List.drop_eq_nil_of_le (by omega)]
      simp only [stepAt, hf, doSteps, finish]
      exact sequence_idle rfl k

/-- No command has more than sixteen steps (70_reset_and_hazards.md R260). -/
theorem steps_length_le (i : Instr) : (commandOf i).steps.length ≤ 16 := by
  rw [(commandOf_shaped i).length_eq]
  cases i <;> simp [shape]

end Sys2Proof.Machine
end

