-- ==== Sys2Proof/Tests/Slice0.lean ====
section
/-! SUPPORT. The model's own tests. Expected results are those of 95_test_vectors.md and of the rules' examples, or worked by
hand from the encoding tables of 30_encoding.md. Then, for each statement with hypotheses, a witness that meets them. -/

namespace Sys2Proof.Tests

open Sys2Proof.Machine

/-! ### Small states -/

/-- Draws of transactions with no tick before them and no failure. -/
def quiet (n : Nat) : List BusDraw := List.replicate n ⟨0, false, 0, 0, []⟩

/-- The draw of a transaction that fails, with the bytes a failed write leaves. -/
def failing : BusDraw := ⟨0, true, 0x5A, 0xA5, []⟩

/-- A device with these seven RTC registers, in the order of 95_test_vectors.md, an idle block, these bus draws, and a settle
wait of so many ticks. -/
def device (sec min hour wkday day month year : Byte) (bus : List BusDraw) (ticks : Nat) : State :=
  let c := Config.standard
  let m : Memory := ⟨[]⟩
  let m := (((((((m.write (rtcKey c .sec) sec).write (rtcKey c .min) min).write (rtcKey c .hour) hour).write
    (rtcKey c .wkday) wkday).write (rtcKey c .day) day).write (rtcKey c .month) month).write (rtcKey c .year) year)
  State.powerOn c m ⟨⟨bus, 0⟩, ⟨[⟨ticks, []⟩], 0⟩, ⟨[], 0⟩⟩ []

/-- The same with one temperature pair. -/
def sensor (q : TmpPair) (hi lo : Byte) (bus : List BusDraw) : State :=
  State.powerOn Config.standard ((⟨[]⟩ : Memory).writePair (tmpKey Config.standard q) hi lo)
    ⟨⟨bus, 0⟩, ⟨[⟨0, []⟩], 0⟩, ⟨[], 0⟩⟩ []

/-- The seven RTC registers. -/
def registers (s : State) : List Byte :=
  [s.rtc .sec, s.rtc .min, s.rtc .hour, s.rtc .wkday, s.rtc .day, s.rtc .month, s.rtc .year]

/-- The state after one step that runs a command word. -/
def after (s : State) (w : Nat) : State :=
  match step (s.withFetchWord 64 w) with
  | .next t => t
  | .fault _ => s
  | .refused _ => s

/-- One step that runs a command word: the response and the seven RTC registers. -/
def run1 (s : State) (w : Nat) : Word × List Byte := ((after s w).rsp, registers (after s w))

/-- One step that runs a command word: the response and one temperature pair. -/
def runPair (s : State) (q : TmpPair) (w : Nat) : Word × Byte × Byte :=
  ((after s w).rsp, (after s w).tmpHi q, (after s w).tmpLo q)

/-- A stopped clock with every preserved bit set, and quiet draws. -/
def stopped : State := device 0x30 0x45 0xD3 0xF7 0x15 0xE3 0x24 (quiet 20) 0

/-- A running clock, quiet draws, a healthy oscillator. -/
def running : State := device 0xB0 0x45 0x13 0xA5 0x15 0x03 0x24 (quiet 20) 3

/-- A stopped clock whose first transaction fails. -/
def firstFails : State := device 0x30 0x45 0x13 0xA5 0x15 0x03 0x24 (failing :: quiet 20) 3

/-! ### WellFormed refuses what has no command word -/

theorem test_wf_bcdEnc : (Instr.bcdEnc 65536).wellFormed = false := by decide
theorem test_wf_tempEnc_high : (Instr.tempEnc 32768).wellFormed = false := by decide
theorem test_wf_tempEnc_low : (Instr.tempEnc (-32769)).wellFormed = false := by decide
theorem test_wf_year : (Instr.rtcSdt ⟨65536, 1, 1, 0, 0, 0⟩).wellFormed = false := by decide
theorem test_wf_month : (Instr.rtcSdt ⟨2000, 256, 1, 0, 0, 0⟩).wellFormed = false := by decide
theorem test_wf_day : (Instr.rtcSdt ⟨2000, 1, 256, 0, 0, 0⟩).wellFormed = false := by decide
theorem test_wf_hour : (Instr.rtcSdt ⟨2000, 1, 1, 256, 0, 0⟩).wellFormed = false := by decide
theorem test_wf_minute : (Instr.rtcSdt ⟨2000, 1, 1, 0, 256, 0⟩).wellFormed = false := by decide
theorem test_wf_second : (Instr.rtcSdt ⟨2000, 1, 1, 0, 0, 256⟩).wellFormed = false := by decide
theorem test_wf_supr : (Instr.tmpSupr 32768).wellFormed = false := by decide
theorem test_wf_slwr : (Instr.tmpSlwr (-32769)).wellFormed = false := by decide
theorem test_wf_scrt : (Instr.tmpScrt 32768).wellFormed = false := by decide
/-- Out of the command's domain is not ill formed (30_encoding.md R107). -/
theorem test_wf_keeps_out_of_domain : (Instr.rtcSdt ⟨2100, 13, 32, 24, 60, 60⟩).wellFormed = true := by decide

/-! ### Decoding, each word written out field by field from the formats of 30_encoding.md R101 -/

theorem test_decode_bcdEnc : decode ((0x01#8 : Byte) ++ (0 : BitVec 40) ++ 0xFFFF#16) = .ok (.bcdEnc 65535) := by decide
theorem test_decode_bcdDec : decode ((0x02#8 : Byte) ++ (0 : BitVec 48) ++ 0b10100101#8) = .ok (.bcdDec 0xA5) := by decide
theorem test_decode_tempDec : decode ((0x11#8 : Byte) ++ (0 : BitVec 40) ++ 0b11100001#8 ++ 0b10010100#8) =
    .ok (.tempDec 0xE1 0x94) := by decide
theorem test_decode_tempEnc : decode ((0x12#8 : Byte) ++ (0 : BitVec 40) ++ 0b1000000000000000#16) =
    .ok (.tempEnc (-32768)) := by decide
theorem test_decode_rtcGclk : decode ((0b00100000#8 : Byte) ++ (0 : BitVec 56)) = .ok .rtcGclk := by decide
theorem test_decode_rtcSclk : decode ((0b00100001#8 : Byte) ++ (0 : BitVec 55) ++ 1#1) = .ok (.rtcSclk .running) := by
  decide
theorem test_decode_rtcSclk_stopped : decode ((0b00100001#8 : Byte) ++ (0 : BitVec 55) ++ 0#1) =
    .ok (.rtcSclk .stopped) := by decide
theorem test_decode_rtcGbat : decode ((0b00100010#8 : Byte) ++ (0 : BitVec 56)) = .ok .rtcGbat := by decide
theorem test_decode_rtcSbat : decode ((0b00100011#8 : Byte) ++ (0 : BitVec 55) ++ 1#1) = .ok (.rtcSbat .on) := by decide
theorem test_decode_rtcGdt : decode ((0b00100100#8 : Byte) ++ (0 : BitVec 56)) = .ok .rtcGdt := by decide
theorem test_decode_rtcSdt : decode ((0b00100101#8 : Byte) ++ 2024#16 ++ 3#8 ++ 15#8 ++ 13#8 ++ 45#8 ++ 30#8) =
    .ok (.rtcSdt ⟨2024, 3, 15, 13, 45, 30⟩) := by decide
theorem test_decode_rtcRst : decode ((0b00100110#8 : Byte) ++ (0 : BitVec 56)) = .ok .rtcRst := by decide
theorem test_decode_tmpGamb : decode ((0b00110000#8 : Byte) ++ (0 : BitVec 56)) = .ok .tmpGamb := by decide
theorem test_decode_tmpGupr : decode ((0b00110010#8 : Byte) ++ (0 : BitVec 56)) = .ok .tmpGupr := by decide
theorem test_decode_tmpSupr : decode ((0b00110011#8 : Byte) ++ (0 : BitVec 40) ++ 404#16) = .ok (.tmpSupr 404) := by decide
theorem test_decode_tmpGlwr : decode ((0b00110100#8 : Byte) ++ (0 : BitVec 56)) = .ok .tmpGlwr := by decide
theorem test_decode_tmpSlwr : decode ((0b00110101#8 : Byte) ++ (0 : BitVec 40) ++ 0xFD80#16) = .ok (.tmpSlwr (-640)) := by
  decide
theorem test_decode_tmpGcrt : decode ((0b00110110#8 : Byte) ++ (0 : BitVec 56)) = .ok .tmpGcrt := by decide
theorem test_decode_tmpScrt : decode ((0b00110111#8 : Byte) ++ (0 : BitVec 40) ++ 0xFFFF#16) = .ok (.tmpScrt (-1)) := by
  decide
/-- Every must-be-zero bit of a format is checked: the lowest one of S1, B8, V16 and HL, and the highest of N. -/
theorem test_decode_mbz :
    [decode 0x2100000000000002, decode 0x0200000000000100, decode 0x0100000000010000, decode 0x1100000000010000,
      decode 0x2680000000000000] = List.replicate 5 (.error .badMbz) := by decide
theorem test_decodeTableWord : decodeTableWord 64 0x2300000000000001 = some (.rtcSbat .on) := by decide
theorem test_encode_sdt : encode (.rtcSdt ⟨2024, 3, 15, 13, 45, 30⟩) = 0x2507E8030F0D2D1E := by decide
theorem test_encode_scrt : encode (.tmpScrt (-640)) = 0x370000000000FD80 := by decide

/-! ### One step of each command (95_test_vectors.md, sections 2.1 to 2.5) -/

theorem test_bcdEnc_42 : run1 stopped 0x010000000000002A = (0x42, registers stopped) := by decide
theorem test_bcdEnc_100 : (run1 stopped 0x0100000000000064).1 = 0x0100000000000001 := by decide
theorem test_bcdDec_59 : run1 stopped 0x0200000000000059 = (0x3B, registers stopped) := by decide
theorem test_bcdDec_a0 : (run1 stopped 0x02000000000000A0).1 = 0x0200000000000001 := by decide
theorem test_tempDec_ignored_bits : (run1 stopped 0x110000000000E194).1 = 0x194 := by decide
theorem test_tempDec_sign : (run1 stopped 0x1100000000001194).1 = 0xF194 := by decide
theorem test_tempEnc_minus_400 : (run1 stopped 0x120000000000FE70).1 = 0x1E70 := by decide
theorem test_tempEnc_minus_641 : (run1 stopped 0x120000000000FD7F).1 = 0x0100000000000002 := by decide
theorem test_gclk_running : run1 running 0x2000000000000000 = (1, registers running) := by decide
theorem test_gclk_stopped : run1 stopped 0x2000000000000000 = (0, registers stopped) := by decide
/-- 42_rtc.md R158, example: `K = 3`. -/
theorem test_sclk_running_healthy :
    run1 (device 0x30 0 0 0 1 1 0 (quiet 4) 3) 0x2100000000000001 = (0, [0xB3, 0, 0, 0, 1, 1, 0]) := by decide
/-- 42_rtc.md R158, example: a dead oscillator. -/
theorem test_sclk_running_dead :
    run1 (device 0x30 0 0 0 1 1 0 (quiet 4) 0) 0x2100000000000001 = (0x0300000000000002, [0xB0, 0, 0, 0, 1, 1, 0]) := by
  decide
theorem test_gbat_on : (run1 (device 0 0 0 0xAD 0 0 0 (quiet 1) 0) 0x2200000000000000).1 = 1 := by decide
theorem test_gbat_off : (run1 (device 0 0 0 0xF7 0 0 0 (quiet 1) 0) 0x2200000000000000).1 = 0 := by decide
theorem test_sbat_on :
    run1 (device 0 0 0 0xA5 1 1 0 (quiet 2) 0) 0x2300000000000001 = (0, [0, 0, 0, 0xAD, 1, 1, 0]) := by decide
theorem test_sbat_off :
    run1 (device 0 0 0 0xFF 1 1 0 (quiet 2) 0) 0x2300000000000000 = (0, [0, 0, 0, 0xF7, 1, 1, 0]) := by decide
theorem test_gdt_preserved_bits :
    run1 (device 0x30 0x45 0x53 0xA5 0x15 0x23 0x24 (quiet 6) 0) 0x2400000000000000 =
      (0x0007E8030F0D2D1E, [0x30, 0x45, 0x53, 0xA5, 0x15, 0x23, 0x24]) := by decide
theorem test_gdt_first_error :
    (run1 (device 0x7A 0x6A 0x13 0 0x15 3 0x24 (quiet 6) 0) 0x2400000000000000).1 = 0x0200000000000010 := by decide
/-- 95_test_vectors.md P1. -/
theorem test_sdt_preserves :
    run1 (device 0x00 0x7F 0x40 0xA5 0xFF 0x20 0xEE (quiet 9) 0) 0x2507E8030F0D2D1E =
      (0, [0x30, 0x45, 0x53, 0xA5, 0x15, 0x23, 0x24]) := by decide
theorem test_sdt_first_check : run1 stopped 0x2508340D20183C3C = (0x0100000000000010, registers stopped) := by decide
/-- 42_rtc.md R163, example. -/
theorem test_rst_epoch :
    run1 (device 0x59 0x59 0x63 0xFF 0x31 0xF2 0x99 (quiet 15) 0) 0x2600000000000000 =
      (1, [0x00, 0x00, 0x40, 0xF7, 0x01, 0xE1, 0x00]) := by decide
/-- The first transaction fails: nothing is written, and the status is `OK` (42_rtc.md R163). -/
theorem test_rst_swallows : run1 firstFails 0x2600000000000000 = (0, registers firstFails) := by decide
theorem test_gamb :
    (after (device 0 0 0 0 0 0 0 [⟨0, false, 0xC1, 0x94, []⟩] 0) 0x3000000000000000).rsp = 0x194 := by decide
theorem test_gamb_negative :
    (after (device 0 0 0 0 0 0 0 [⟨0, false, 0x1E, 0x70, []⟩] 0) 0x3000000000000000).rsp = 0xFE70 := by decide
theorem test_gupr : runPair (sensor .upper 0x07 0xD0 (quiet 1)) .upper 0x3200000000000000 = (0x7D0, 0x07, 0xD0) := by decide
theorem test_gupr_fails : runPair (sensor .upper 0x07 0xD0 [failing]) .upper 0x3200000000000000 =
    (0x0300000000000001, 0x07, 0xD0) := by decide
theorem test_supr : runPair (sensor .upper 0xFF 0xFF (quiet 1)) .upper 0x3300000000000194 = (0, 0x01, 0x94) := by decide
theorem test_supr_2001 : runPair (sensor .upper 0xFF 0xFF (quiet 1)) .upper 0x33000000000007D1 =
    (0x0100000000000002, 0xFF, 0xFF) := by decide
theorem test_glwr : runPair (sensor .lower 0x1D 0x80 (quiet 1)) .lower 0x3400000000000000 = (0xFD80, 0x1D, 0x80) := by decide
theorem test_slwr : runPair (sensor .lower 0 0 (quiet 1)) .lower 0x350000000000FD80 = (0, 0x1D, 0x80) := by decide
theorem test_gcrt : runPair (sensor .crit 0x05 0x00 (quiet 1)) .crit 0x3600000000000000 = (0x500, 0x05, 0x00) := by decide
theorem test_scrt : runPair (sensor .crit 0 0 (quiet 1)) .crit 0x3700000000000500 = (0, 0x05, 0x00) := by decide
theorem test_illegal_31 : run1 stopped 0x3100000000000000 = (0x0500000000000001, registers stopped) := by decide
theorem test_illegal_mbz : run1 stopped 0x2300000000000003 = (0x0500000000000002, registers stopped) := by decide

/-- The device tick (95_test_vectors.md, tick vectors): 2024-04-30 23:59:59 with every preserved bit set. -/
theorem test_tick_carries :
    registers (device 0xD9 0x59 0xE3 0xFF 0x30 0xE4 0x24 [] 0).tick = [0x80, 0x00, 0xC0, 0xFF, 0x01, 0xE5, 0x24] := by decide
theorem test_tick_leap_day :
    registers (device 0xD9 0x59 0x23 0x00 0x28 0x02 0x24 [] 0).tick = [0x80, 0x00, 0x00, 0x00, 0x29, 0x02, 0x24] := by decide

/-! ### Witnesses: for each statement with hypotheses, a state and operands that meet all of them together -/

theorem witness_BcdEnc : 65535 < 65536 ∧ decode (0x0100000000000000 ||| BitVec.ofNat 64 65535) = .ok (.bcdEnc 65535) := by
  decide

theorem witness_BcdCodecsAreInverse : 99 ≤ 99 ∧ (0x99 : Byte).toNat / 16 ≤ 9 ∧ (0x99 : Byte).toNat % 16 ≤ 9 := by decide

theorem witness_TempCodecsAreInverse :
    Config.standard.Legal ∧ Config.standard.tempMin16 ≤ -640 ∧ -640 ≤ Config.standard.tempMax16 ∧
      Config.standard.tempMin16 ≤ tempDecode 0xE7 0xD0 ∧ tempDecode 0xE7 0xD0 ≤ Config.standard.tempMax16 := by decide

/-- GclkAnswersEnableBit, GbatAnswersBatteryBit, ThresholdGetsDecodeTheirPair, GambDecodesTheSensorsSample: a running clock,
and a read that fails. -/
theorem witness_one_read : running.cfg.Legal ∧ running.NoOtherBusMaster 1 ∧ firstFails.cfg.Legal ∧
    firstFails.NoOtherBusMaster 1 ∧ (firstFails.busDraw 0).fails = true ∧ stopped.oscEn = false ∧
    stopped.cfg.Legal ∧ stopped.NoOtherBusMaster 1 := by decide

theorem witness_SclkRunningConfirmed : running.cfg.Legal ∧ running.NoFailure 4 ∧ running.NoOtherBusMaster 4 ∧
    running.OscillatorHealthy ∧ fieldWithin .second (running.rtc .sec) 0 59 = true ∧ running.NoGapTick 2 3 ∧
    running.NoGapTick 0 2 ∧
    fieldOf .second (running.rtc .sec) + min (running.settleDraw 0).ticks running.cfg.settleTicksMax ≤ 59 := by decide

/-- The oscillator makes the fewest ticks that `OscillatorHealthy` allows, from the last second of a minute. -/
theorem witness_SclkRunningConfirmed_boundary :
    let s := device 0x59 0x59 0x23 0 0x31 0x12 0x99 (quiet 4) 2
    s.cfg.Legal ∧ s.NoFailure 4 ∧ s.NoOtherBusMaster 4 ∧ s.OscillatorHealthy ∧
      fieldWithin .second (s.rtc .sec) 0 59 = true := by decide

/-- A device whose `SEC` takes a byte during the settle wait, whatever `OSC_EN` says. -/
def disturbed (b : Byte) : State :=
  { stopped with env := { stopped.env with settle := ⟨[⟨0, [(rtcKey Config.standard .sec, b)]⟩], 0⟩ } }

/-- SclkUnconfirmedFaultsWithoutRollback: a dead oscillator, and a device that writes the seconds during the wait. -/
theorem witness_SclkUnconfirmed : stopped.cfg.Legal ∧ stopped.NoFailure 4 ∧ stopped.NoOtherBusMaster 4 ∧
    (stopped.settleDraw 0).ticks = 0 ∧ stopped.NoGapTick 2 3 ∧ stopped.oscEn = false ∧ (disturbed 0x31).cfg.Legal ∧ (disturbed 0x31).NoFailure 4 ∧
    (∀ k < 4, ((disturbed 0x31).busDraw k).foreign = []) ∧
    ((disturbed 0x31).settleDraw 0).foreign = [(rtcKey (disturbed 0x31).cfg .sec, 0x31)] := by decide

/-- Both answers of RTC.SCLK stopped, the samples equal but for bit 7, and different (42_rtc.md R165, rows 3 and 4). -/
theorem witness_SclkUnconfirmed_clauses :
    ((after (disturbed 0xB0) 0x2100000000000000).rsp, (after (disturbed 0x31) 0x2100000000000000).rsp) =
      (0, 0x0300000000000002) := by decide

/-- Each of the four transactions as the one that fails; the clock runs, without a tick in the gaps and in the wait. -/
theorem witness_SclkBusFailure : ∀ k < 4,
    let s := device 0xB0 0 0 0 1 1 0 (quiet k ++ failing :: quiet 4) 0
    s.cfg.Legal ∧ s.NoOtherBusMaster 4 ∧ s.NoFailure k ∧ (s.busDraw k).fails = true ∧ s.NoGapTick 0 2 ∧
      s.NoGapTick 2 3 ∧ (s.settleDraw 0).ticks = 0 := by decide

theorem witness_SclkStopped : running.cfg.Legal ∧ running.NoFailure 4 ∧ running.NoOtherBusMaster 4 ∧
    running.NoGapTick 0 2 ∧
    stopped.cfg.Legal ∧ stopped.NoFailure 4 ∧ stopped.NoOtherBusMaster 4 ∧ stopped.oscEn = false := by decide

/-- SbatWritesBatteryBitOnly: no failure, the read fails, the write fails. -/
theorem witness_Sbat :
    let w := device 0 0 0 0xA5 1 1 0 (quiet 1 ++ [failing]) 0
    running.cfg.Legal ∧ running.NoOtherBusMaster 2 ∧ running.NoGapTick 0 2 ∧ firstFails.NoOtherBusMaster 2 ∧
      (firstFails.busDraw 0).fails = true ∧ w.cfg.Legal ∧ w.NoOtherBusMaster 2 ∧ (w.busDraw 0).fails = false ∧
      (w.busDraw 1).fails = true := by decide

theorem witness_BatteryStateReadsBack : running.cfg.Legal ∧ running.NoFailure 3 ∧ running.NoOtherBusMaster 3 ∧
    ∃ t, exec (.rtcSbat .on) running = .next t := ⟨by decide, by decide, by decide, _, rfl⟩

/-- GdtAnswersFieldsOrFirstError: a stopped clock, and a running one without a tick in the gaps. -/
theorem witness_Gdt : stopped.cfg.Legal ∧ stopped.NoFailure 6 ∧ stopped.NoOtherBusMaster 6 ∧ stopped.oscEn = false ∧
    running.cfg.Legal ∧ running.NoFailure 6 ∧ running.NoOtherBusMaster 6 ∧ running.NoGapTick 0 6 := by decide

/-- Each of the six reads of RTC.GDT as the first that fails. -/
theorem witness_Gdt_fails : ∀ k < 6,
    let s := device 0x30 0x45 0xD3 0xF7 0x15 0xE3 0x24 (quiet k ++ failing :: quiet 6) 0
    s.cfg.Legal ∧ s.NoOtherBusMaster 6 ∧ s.oscEn = false ∧ s.NoFailure k ∧ (s.busDraw k).fails = true ∧
      isBcd (s.rtc .sec &&& 0x7F) = true ∧ isBcd (s.rtc .min) = true ∧ isBcd (s.rtc .hour &&& 0x3F) = true ∧
      isBcd (s.rtc .day) = true ∧ isBcd (s.rtc .month &&& 0x1F) = true := by decide

/-- A register of each field that is not BCD, the others BCD: the six `FormatError` clauses of RTC.GDT. -/
theorem witness_Gdt_clauses :
    [run1 (device 0x3A 0 0 0 1 1 0 (quiet 6) 0) 0x2400000000000000, run1 (device 0 0xA0 0 0 1 1 0 (quiet 6) 0) 0x2400000000000000,
      run1 (device 0 0 0x0A 0 1 1 0 (quiet 6) 0) 0x2400000000000000, run1 (device 0 0 0 0 0xA0 1 0 (quiet 6) 0) 0x2400000000000000,
      run1 (device 0 0 0 0 1 0x0A 0 (quiet 6) 0) 0x2400000000000000, run1 (device 0 0 0 0 1 1 0xFF (quiet 6) 0) 0x2400000000000000].map
        (fun r => r.1) =
      [0x0200000000000010, 0x0200000000000011, 0x0200000000000012, 0x0200000000000013, 0x0200000000000014,
        0x0200000000000015] := by decide

/-- The six clauses of RTC.SDT's check, each at a boundary value (95_test_vectors.md, section 2.3). -/
theorem witness_SdtReportsFirstRangeError :
    [run1 stopped 0x2507CF0C1F000000, run1 stopped 0x2507E80001000000, run1 stopped 0x2507E7021D000000,
      run1 stopped 0x2507E80101180000, run1 stopped 0x2507E80101003C00, run1 stopped 0x2507E8010100003C] =
      [0x10, 0x11, 0x12, 0x13, 0x14, 0x15].map (fun k : Byte => ((0x01#8 ++ 0#48 ++ k : Word), registers stopped)) := by
  decide

theorem witness_SdtWrites : stopped.cfg.Legal ∧ DateTimeLegal ⟨2024, 2, 29, 23, 59, 59⟩ ∧ stopped.NoFailure 9 ∧
    stopped.NoOtherBusMaster 9 ∧ stopped.oscEn = false ∧ running.NoFailure 9 ∧ running.NoOtherBusMaster 9 ∧
    running.NoGapTick 2 9 := by decide

theorem witness_SdtThenGdt : running.cfg.Legal ∧ DateTimeLegal ⟨2099, 12, 31, 23, 59, 59⟩ ∧ running.NoFailure 15 ∧
    running.NoOtherBusMaster 15 ∧ running.NoGapTick 2 15 ∧ stopped.cfg.Legal ∧ stopped.NoFailure 15 ∧
    stopped.NoOtherBusMaster 15 ∧ stopped.oscEn = false ∧
    ∃ t, exec (.rtcSdt ⟨2099, 12, 31, 23, 59, 59⟩) running = .next t :=
  ⟨by decide, by decide, by decide, by decide, by decide, by decide, by decide, by decide, by decide, _, rfl⟩

/-- Each of the nine transactions of RTC.SDT as the one that fails, on a stopped clock. -/
theorem witness_SdtAborted : DateTimeLegal ⟨2000, 1, 1, 0, 0, 0⟩ ∧ ∀ k < 9,
    let s := device 0x30 0x45 0xD3 0 0x15 0xE3 0x24 (quiet k ++ failing :: quiet 8) 0
    s.cfg.Legal ∧ s.oscEn = false ∧ s.NoFailure k ∧
      (s.busDraw k).fails = true ∧ s.NoOtherBusMaster 9 := by decide

/-- The same on a running clock without a tick in the gaps. -/
theorem witness_SdtAborted_running : DateTimeLegal ⟨2099, 12, 31, 23, 59, 59⟩ ∧ ∀ k < 9,
    let s := device 0xB0 0x45 0xD3 0 0x15 0xE3 0x24 (quiet k ++ failing :: quiet 8) 0
    s.cfg.Legal ∧ s.NoGapTick 0 9 ∧ s.NoFailure k ∧
      (s.busDraw k).fails = true ∧ s.NoOtherBusMaster 9 := by decide

/-- The first part of 95_test_vectors.md P7: the write of `HOUR` fails. -/
theorem witness_SdtAborted_P7 :
    run1 (device 0x00 0x00 0x40 0x00 0x01 0x01 0x00 (quiet 4 ++ failing :: quiet 4) 0) 0x2507E8030F0D2D1E =
      (0x0300000000000001, [0x30, 0x45, 0xA5, 0x00, 0x01, 0x01, 0x00]) := by decide

theorem witness_Rst : stopped.cfg.Legal ∧ stopped.NoFailure 15 ∧ stopped.NoOtherBusMaster 15 ∧ stopped.oscEn = false ∧
    running.cfg.Legal ∧ running.NoFailure 15 ∧ running.NoOtherBusMaster 15 ∧
    11 * running.cfg.gapTicksMax ≤ 59 := by decide

/-- RstAlwaysOkAndFirstFaultSkipsTheRest: each of the fifteen transactions as the first that fails, on a stopped clock. -/
theorem witness_RstFails : ∀ k < 15,
    let s := device 0x30 0x45 0xD3 0xF7 0x15 0xE3 0x24 (quiet k ++ failing :: quiet 14) 0
    s.cfg.Legal ∧ s.NoOtherBusMaster 15 ∧ s.oscEn = false ∧ s.NoFailure k ∧ (s.busDraw k).fails = true := by decide

/-- The same on a running clock without a tick in the gaps before it is stopped. -/
theorem witness_RstFails_running : ∀ k < 15,
    let s := device 0xB0 0x45 0xD3 0xF7 0x15 0xE3 0x24 (quiet k ++ failing :: quiet 14) 3
    s.cfg.Legal ∧ s.NoOtherBusMaster 15 ∧ s.NoGapTick 0 13 ∧ s.NoFailure k ∧ (s.busDraw k).fails = true := by decide

/-- The verification of RTC.RST confirms the stop, and sees the seconds change. -/
theorem witness_RstVerification : (disturbed 0x31).cfg.Legal ∧ (disturbed 0x31).NoFailure 15 ∧
    (∀ k < 15, ((disturbed 0x31).busDraw k).foreign = []) ∧ (disturbed 0x31).oscEn = false ∧
    ((disturbed 0x31).settleDraw 0).foreign = [(rtcKey (disturbed 0x31).cfg .sec, 0x31)] ∧
    ((after (disturbed 0x80) 0x2600000000000000).rsp, (after (disturbed 0x31) 0x2600000000000000).rsp) = (1, 0) := by
  decide

/-- The second part of 95_test_vectors.md P7: the read of `WKDAY` fails. -/
theorem witness_RstFails_P7 :
    run1 (device 0x59 0x59 0x63 0xFF 0x31 0xF2 0x99 (quiet 9 ++ failing :: quiet 5) 0) 0x2600000000000000 =
      (0, [0x00, 0x00, 0x40, 0xFF, 0x01, 0xE1, 0x00]) := by decide

/-- ThresholdSetsWriteTheirPair: both sides of the lower bound, and a write that fails. -/
theorem witness_ThresholdSets : (-641 < stopped.cfg.tempMin16 ∨ (-641 : Int) > stopped.cfg.tempMax16) ∧
    stopped.cfg.Legal ∧ stopped.NoOtherBusMaster 1 ∧ stopped.cfg.tempMin16 ≤ -640 ∧ -640 ≤ stopped.cfg.tempMax16 ∧
    firstFails.NoOtherBusMaster 1 ∧ (firstFails.busDraw 0).fails = true := by decide

theorem witness_ThresholdReadsBack : running.cfg.Legal ∧ running.NoFailure 2 ∧ running.NoOtherBusMaster 2 ∧
    running.cfg.tempMin16 ≤ 2000 ∧ 2000 ≤ running.cfg.tempMax16 ∧ ∃ t, exec (.tmpScrt 2000) running = .next t :=
  ⟨by decide, by decide, by decide, by decide, by decide, _, rfl⟩

/-- DecodeInvertsEncode and EncodeInvertsDecode. -/
theorem witness_encoding : (Instr.tmpSlwr (-32768)).wellFormed = true ∧
    decode 0x2508330C1F173B3B = .ok (.rtcSdt ⟨2099, 12, 31, 23, 59, 59⟩) := by decide

/-- StepRunsTheDecodedCommand and IllegalWordAnsweredWithoutTransaction; the premise is met by an idle block, and not by a
busy one. -/
theorem witness_call :
    let s := { running with agenda := [.call 0x2400000000000000] }
    let u := { running with agenda := [.call 0x3100000000000000] }
    s.agenda = .call 0x2400000000000000 :: [] ∧ s.busy = false ∧ decode 0x2400000000000000 = .ok .rtcGdt ∧
      u.agenda = .call 0x3100000000000000 :: [] ∧ u.busy = false ∧ decode 0x3100000000000000 = .error .badOpcode ∧
      decode 0x2400000000000001 = .error .badMbz ∧ s.HostIssuesOnlyWhenIdle ∧ u.HostIssuesOnlyWhenIdle ∧
      ¬ State.HostIssuesOnlyWhenIdle { s with busy := true } := by decide

/-- WordPresentedWhileBusyIsNotAccepted: a block that runs RTC.RST, and both ways to present a word. -/
theorem witness_busy :
    let s := { running with busy := true, seq := .busy 0x26 3, cmd := 0x2600000000000000, agenda := [.present 0] }
    let u := { s with agenda := [.call 0] }
    s.busy = true ∧ s.agenda = .present 0 :: [] ∧ u.busy = true ∧ u.agenda = .call 0 :: [] := by decide

/-- WordPresentedWhileIdleIsAccepted and SequencerStepsRefineTheBlockingCall. -/
theorem witness_idle :
    let s := { running with agenda := [.present 0x2600000000000000] }
    s.busy = false ∧ s.seq = .idle ∧ s.agenda = .present 0x2600000000000000 :: [] ∧ s.HostIssuesOnlyWhenIdle := by decide

/-- SequencerCountsOneOrCompletes: a step that counts, and one that completes (the first transaction fails). -/
theorem witness_SequencerCounts :
    let s := { running with busy := true, seq := .busy 0x26 0, cmd := 0x2600000000000000 }
    let u := { firstFails with busy := true, seq := .busy 0x26 0, cmd := 0x2600000000000000 }
    s.agenda = [] ∧ s.seq = .busy 0x26 0 ∧ step s = .next (sequencerStep s) ∧
      (sequencerStep s).seq = .busy 0x26 1 ∧ u.agenda = [] ∧ u.seq = .busy 0x26 0 ∧
      step u = .next (sequencerStep u) ∧ (sequencerStep u).seq = .idle :=
  ⟨rfl, rfl, rfl, by decide, rfl, rfl, rfl, by decide⟩

/-- SequencerCountsOneOrCompletes: the host does nothing while RTC.RST runs. -/
theorem witness_SequencerCounts_wait :
    let s := { running with busy := true, seq := .busy 0x26 3, cmd := 0x2600000000000000, agenda := [.wait 7, .reset] }
    s.busy = true ∧ s.agenda = .wait 7 :: [.reset] ∧ s.seq = .busy 0x26 3 ∧ step s = .next (sequencerStep s.pop) ∧
      (sequencerStep s.pop).seq = .busy 0x26 4 := ⟨rfl, rfl, rfl, rfl, by decide⟩

/-- ErrorKindsByCommand, CommandsMakeTheTablesTransactions, CommandsStartClean, ScratchRegistersChangeOnlyWhereUsed,
NoStepChangesTheConfiguration: a command that ends with a next state. -/
theorem witness_exec : ∃ t, exec (.rtcSclk .running) running = .next t := ⟨_, rfl⟩

/-- The same with each error status, and RTC.RST with both results. -/
theorem witness_statuses :
    ([run1 running 0x2400000000000000, run1 running 0x0100000000000064, run1 running 0x02000000000000A0,
      run1 firstFails 0x2000000000000000, run1 (device 0x30 0 0 0 1 1 0 (quiet 4) 0) 0x2100000000000001].map
        (fun r => r.1.extractLsb' 56 8)) = [0x00, 0x01, 0x02, 0x03, 0x03] := by decide

theorem witness_RangeError : ∃ t, exec (.bcdEnc 100) running = .next t ∧ t.rsp.extractLsb' 56 8 = 0x01 :=
  ⟨_, rfl, by decide⟩

/-- FailedTransactionIsReported: for each command named in it, its last transaction fails. -/
theorem witness_FailedTransaction :
    ∀ i ∈ [Instr.rtcGclk, .rtcGbat, .tmpGamb, .tmpGupr, .tmpGlwr, .tmpGcrt, .rtcSclk .running, .rtcSclk .stopped,
      .rtcSbat .on, .rtcSdt ⟨2000, 1, 1, 0, 0, 0⟩, .tmpSupr 2000, .tmpSlwr (-640), .tmpScrt 0],
      ((device 0 0 0 0 1 1 0 (quiet (busCount i - 1) ++ [failing]) 0).busDraw (busCount i - 1)).fails = true ∧
        busCount i - 1 < busCount i := by decide

/-- A failed transaction that was made, of a command outside that list: RTC.GDT's fourth read, and RTC.RST's first. -/
theorem witness_FailedTransaction_made :
    let s := device 0x30 0x45 0xD3 0xF7 0x15 0xE3 0x24 (quiet 3 ++ failing :: quiet 2) 0
    (∃ t, exec .rtcGdt s = .next t ∧ (s.busDraw 3).fails = true ∧ s.env.bus.taken + 3 < t.env.bus.taken) ∧
      ∃ t, exec .rtcRst firstFails = .next t ∧ (firstFails.busDraw 0).fails = true ∧
        firstFails.env.bus.taken + 0 < t.env.bus.taken :=
  ⟨⟨_, rfl, by decide, by decide⟩, ⟨_, rfl, by decide, by decide⟩⟩

theorem witness_FailedTransaction_legal : DateTimeLegal ⟨2000, 1, 1, 0, 0, 0⟩ ∧ stopped.cfg.tempMin16 ≤ -640 ∧
    2000 ≤ stopped.cfg.tempMax16 := by decide

/-- CommandsWithoutTicksStoreOnlyToTheirCells: a running clock without a tick, and RTC.SCLK running on it. -/
theorem witness_frame_still :
    let s := device 0xB0 0x45 0x13 0xA5 0x15 0x03 0x24 (quiet 15) 0
    s.cfg.Legal ∧ s.NoOtherBusMaster 15 ∧ s.oscEn = true ∧ s.NoGapTick 0 15 ∧ (s.settleDraw 0).ticks = 0 ∧
      ∃ t, exec (.rtcSclk .running) s = .next t :=
  ⟨by decide, by decide, by decide, by decide, by decide, _, rfl⟩

/-- CommandsStoreOnlyToTheirCells, CommandsWithoutTicksStoreOnlyToTheirCells on a stopped clock, PreservedBitsAreKept,
OnlySclkAndRstChangeOscEn. -/
theorem witness_frames : running.cfg.Legal ∧ running.NoFailure 15 ∧ running.NoOtherBusMaster 15 ∧
    stopped.cfg.Legal ∧ stopped.NoFailure 15 ∧ stopped.NoOtherBusMaster 15 ∧ stopped.oscEn = false ∧
    (∃ t, exec (.rtcSdt epoch) running = .next t) ∧ ∃ t, exec .rtcRst stopped = .next t :=
  ⟨by decide, by decide, by decide, by decide, by decide, by decide, by decide, ⟨_, rfl⟩, ⟨_, rfl⟩⟩

theorem witness_StoppedClock : (stopped.rtc .sec).getLsbD 7 = false := by decide

/-- TickAdvancesTheSecondsRegister: the last second before the wrap, and the last second of the last minute before the
hour's. -/
theorem witness_TickSeconds : running.cfg.Legal ∧
    (device 0xD8 0 0 0 1 1 0 [] 0).rtc .sec = 0x80 ||| BitVec.ofNat 8 (58 / 10 * 16 + 58 % 10) ∧
    (device 0xD9 0x58 0 0 1 1 0 [] 0).rtc .sec = 0xD9 ∧
    (device 0xD9 0x58 0 0 1 1 0 [] 0).rtc .min = BitVec.ofNat 8 (58 / 10 * 16 + 58 % 10) := by decide

/-- TickAdvancesTheCalendarByOneSecond: an ordinary second, and the last one of the calendar. -/
theorem witness_TickAdvances :
    let s := device 0xD9 0x59 0x23 0 0x31 0x12 0x99 [] 0
    running.cfg.Legal ∧ running.oscEn = true ∧ ClockValid running.clock ∧ s.cfg.Legal ∧ s.oscEn = true ∧
      ClockValid s.clock ∧ shownDateTime s.clock = ⟨2099, 12, 31, 23, 59, 59⟩ := by decide

/-- FewerThanSixtyTicksChangeTheSeconds, TickKeepsPreservedBits. -/
theorem witness_FewerThanSixty : running.cfg.Legal ∧ running.oscEn = true ∧
    fieldWithin .second (running.rtc .sec) 0 59 = true ∧ 1 ≤ 59 ∧ 59 ≤ 59 := by decide

theorem witness_IdleTime :
    let s := { running with agenda := [.wait 100] }
    let u := { stopped with agenda := [.wait 100] }
    s.agenda = .wait 100 :: [] ∧ s.busy = false ∧ u.agenda = .wait 100 :: [] ∧ u.busy = false ∧ u.oscEn = false := by
  decide

theorem witness_DaysInMonth : 2000 ≤ 2099 ∧ 2099 ≤ 2099 := by decide

/-- PowerOnResetValues: a reset while RTC.RST runs. -/
theorem witness_reset :
    let s := { running with busy := true, seq := .busy 0x26 3, cmd := 0x2600000000000000, agenda := [.reset] }
    s.agenda = .reset :: [] ∧ s.busy = true := by decide

theorem witness_memory_wf : running.mem.wf = true ∧ stopped.mem.wf = true := by decide

/-- EveryStepKeepsTheInvariant: an idle block, and one in the middle of RTC.RST. -/
theorem witness_Inv :
    let s := { running with busy := true, seq := .busy 0x26 15, cmd := 0x2600000000000000 }
    running.Inv ∧ s.Inv ∧ (∃ t, step running = .next t) ∧ ∃ t, step s = .next t :=
  ⟨by decide, by decide, ⟨_, rfl⟩, ⟨_, rfl⟩⟩

end Sys2Proof.Tests
end

section
/-! PROOFS. The scope of a step (00_scope.md R5, R8, R9): what a step leaves alone, what a blocking call runs, and that the
sequencer's single steps refine the call. -/

namespace Sys2Proof.Machine

/-! ### What a step leaves alone -/

/-- Every command ends with a next state, the block idle, and `CMD`, the configuration and the host's list untouched. -/
theorem exec_blockFrame (i : Instr) (s : State) : ∃ t, exec i s = .next t ∧ s.BlockFrame t := by
  rcases exec_cases i s with ⟨e, -, -, h⟩ | ⟨p, -, t, e, hd, h⟩
  · exact ⟨_, h, rfl, rfl, rfl, rfl, rfl⟩
  · have hin := doSteps_inside (shaped_inside (commandOf_shaped i)) { s.begin i.opcode with acc := p }
    rw [hd] at hin
    exact ⟨_, h, hin.cmd, hin.cfg, hin.agenda, rfl, rfl⟩

theorem present_cfg (w : Word) (s : State) : (present w s).cfg = s.cfg := by
  unfold present; split <;> rfl

theorem present_agenda (w : Word) (s : State) : (present w s).agenda = s.agenda := by
  unfold present; split <;> rfl

/-- Doing nothing takes no further host action and keeps the configuration, whether a command runs or time passes. -/
theorem hostWaits_frame (k : Nat) (s : State) :
    (hostWaits k s).cfg = s.cfg ∧ (hostWaits k s).agenda = s.agenda := by
  unfold hostWaits
  split
  · obtain ⟨-, hcfg, hagenda, -⟩ := sequencerStep_frame s
    exact ⟨hcfg, hagenda⟩
  · obtain ⟨hin, -, -⟩ := inside_ticks k s
    exact ⟨hin.cfg, hin.agenda⟩

/-- A blocking call ends with a next state; it takes no further host action and keeps the configuration. -/
theorem blockingCall_frame (w : Word) (s : State) :
    ∃ t, blockingCall w s = .next t ∧ t.cfg = s.cfg ∧ t.agenda = s.agenda := by
  cases hb : s.busy with
  | true => exact ⟨s, blockingCall_busy hb w, rfl, rfl⟩
  | false =>
    cases hd : decode w with
    | error d => exact ⟨_, blockingCall_error hb hd, present_cfg w s, present_agenda w s⟩
    | ok i =>
      obtain ⟨t, ht, -, hcfg, hagenda, -, -⟩ := exec_blockFrame i (present w s)
      exact ⟨t, (blockingCall_ok hb hd).trans ht, hcfg.trans (present_cfg w s), hagenda.trans (present_agenda w s)⟩

/-- Every state has a next state, with the same configuration and without the host's first action. -/
theorem step_frame (s : State) : ∃ t, step s = .next t ∧ t.cfg = s.cfg ∧ t.agenda = s.agenda.tail := by
  cases h : s.agenda with
  | nil =>
    obtain ⟨-, hcfg, hagenda, -⟩ := sequencerStep_frame s
    exact ⟨_, step_none h, hcfg, hagenda.trans h⟩
  | cons a l =>
    have htail : s.pop.agenda = l := by rw [pop_agenda, h]; rfl
    cases a with
    | call w =>
      obtain ⟨t, ht, hcfg, hagenda⟩ := blockingCall_frame w s.pop
      exact ⟨t, (step_call h).trans ht, hcfg, hagenda.trans htail⟩
    | present w => exact ⟨_, step_present h, present_cfg w s.pop, (present_agenda w s.pop).trans htail⟩
    | wait k =>
      obtain ⟨hcfg, hagenda⟩ := hostWaits_frame k s.pop
      exact ⟨_, step_wait h, hcfg, hagenda.trans htail⟩
    | reset => exact ⟨_, step_reset h, rfl, htail⟩

/-- Settles O59, by what a step does for each action of the host. -/
theorem noStepChangesTheConfiguration : Obligations.NoStepChangesTheConfiguration := by
  intro s t h
  obtain ⟨u, hu, hcfg, hagenda⟩ := step_frame s
  obtain rfl : u = t := by simpa using hu.symm.trans h
  exact ⟨hcfg, hagenda⟩

/-! ### What a blocking call runs -/

theorem pop_of_cons {s : State} {a : HostAct} {l : List HostAct} (h : s.agenda = a :: l) :
    s.pop = { s with agenda := l } := by
  rw [State.pop, h]; rfl

/-- Settles O31: the call of an idle block is `exec` on the accepting state. -/
theorem stepRunsTheDecodedCommand : Obligations.StepRunsTheDecodedCommand := by
  intro s w l i h hidle hd
  have hb : s.pop.busy = false := (pop_busy s).trans (idle_of_call h hidle)
  rw [step_call h, blockingCall_ok hb hd, present_idle hb, pop_of_cons h]
  rfl

/-! ### The sequencer's steps refine the call -/

/-- A raise ends the command, caught or not. -/
theorem raised_seq (c : Bool) (e : Err) (s : State) : (raised c e s).seq = .idle := by
  rw [raised_respond]; rfl

/-- The step at any position of a command, and then the steps of the sequencer, run what is left of the command. Unlike
`sequence_steps` this holds at position 0 too, since `stepAt` is what `sequencerStep` makes after the operand check. -/
theorem sequence_stepAt {i : Instr} {s : State} {op : Byte} {n k : Nat} (hs : s.seq = .busy op n)
    (hd : decode (commandWord op (payloadOf s.cmd)) = .ok i) (hk : (commandOf i).steps.length ≤ n + k) :
    sequence k (stepAt (commandOf i) n s) =
      finish (commandOf i).catches (doSteps ((commandOf i).steps.drop n) s) := by
  by_cases hn : n < (commandOf i).steps.length
  · have hin := shaped_inside (commandOf_shaped i) _ (List.getElem_mem hn) s
    simp only [List.drop_eq_getElem_cons hn, stepAt, List.getElem?_eq_getElem hn, takeStep, doSteps]
    cases ((commandOf i).steps[n] s).2 with
    | none =>
      exact sequence_steps n.succ_pos (advance_seq _ (hin.seq.trans hs)) (by simpa [hin.cmd] using hd) hn (by omega)
    | some e => exact sequence_idle (raised_seq _ e _) k
  · have hlen : (commandOf i).steps.length ≤ n := by omega
    simp only [List.drop_eq_nil_of_le hlen, stepAt, List.getElem?_eq_none hlen]
    exact sequence_idle rfl k

/-- From the acceptance of a command on, the sequencer runs the whole command: the operand check and then the steps. -/
theorem sequence_runCommand {i : Instr} {s : State} {op : Byte} {k : Nat} (hs : s.seq = .busy op 0)
    (hb : s.busy = true) (hd : decode (commandWord op (payloadOf s.cmd)) = .ok i)
    (hk : (commandOf i).steps.length ≤ k) : sequence (k + 1) s = runCommand op (commandOf i) s := by
  have hbegin : s.begin op = s := by rw [State.begin, ← hb, ← hs]
  cases hst : (commandOf i).start s.cfg with
  | error e =>
    have hstep : sequencerStep s = raised (commandOf i).catches e s := by simp [sequencerStep, hs, hd, hst]
    rw [sequence_succ, hstep, runCommand_error hst, hbegin]
    exact sequence_idle (raised_seq _ e s) k
  | ok p =>
    have hstep : sequencerStep s = stepAt (commandOf i) 0 { s with acc := p } := by
      simp [sequencerStep, hs, hd, hst]
    rw [sequence_succ, hstep, runCommand_ok hst, hbegin]
    exact sequence_stepAt (n := 0) hs hd (by omega)

/-- An idle block that is presented a word and then left to its sequencer ends as after the blocking call. Sixteen steps are the
most a command has; its completion is one more. -/
theorem sequence_present {s : State} (hb : s.busy = false) (w : Word) :
    blockingCall w s = .next (sequence 17 (present w s)) := by
  have hword : decode (commandWord (opcodeOf w) (payloadOf w)) = decode w := by rw [word_split]
  have hp := present_idle hb w
  cases hd : decode w with
  | error d =>
    have hstep : sequencerStep (present w s) = abort (.illegal d) (present w s) := by
      simp [hp, sequencerStep, hword, hd]
    rw [blockingCall_error hb hd, sequence_succ, hstep, sequence_idle rfl]
  | ok i =>
    have hrun : sequence 17 (present w s) = runCommand (opcodeOf w) (commandOf i) (present w s) :=
      sequence_runCommand (by rw [hp]) (by rw [hp]) (by rw [hp]; exact hword.trans hd) (steps_length_le i)
    rw [blockingCall_ok hb hd, exec_eq_run, hrun, decode_opcode hd]

/-- Settles O36: one step accepts the word, and the sequencer's seventeen steps after it are the call. -/
theorem sequencerStepsRefineTheBlockingCall : Obligations.SequencerStepsRefineTheBlockingCall := by
  intro s w hb _
  have hcall : step { s with agenda := [.call w] } = blockingCall w { s with agenda := [] } := step_call rfl
  have hpresent : step { s with agenda := [.present w] } = .next (present w { s with agenda := [] }) := step_present rfl
  rw [runSteps, hpresent, hcall, sequence_present (s := { s with agenda := [] }) hb]
  exact runSteps_sequence 17 (present_agenda w _)

end Sys2Proof.Machine
end

section
/-! PROOFS. The state between two host actions (10_state.md R21 to R26): what a step of the sequencer counts, what a command
leaves of the block and of the scratch registers, and the machine's invariant. -/

namespace Sys2Proof.Machine

/-! ### Responses (30_encoding.md R102, R103; 60_exceptions.md R200) -/

theorem rspLegal_ok (p : Payload) : RspLegal (okResponse p) := by simp [RspLegal]

theorem payloadB8_shift (b : Byte) : payloadB8 b >>> 8 = 0 := by
  apply BitVec.eq_of_getLsbD_eq
  intro k hk
  simp only [payloadB8, BitVec.getLsbD_ushiftRight, BitVec.getLsbD_append]
  simp

theorem rspLegal_err (e : Err) : RspLegal (errResponse e) := by
  constructor
  · rw [statusOf_err]
    cases e <;> simp [errStatus, statusCode]
  · intro _
    rw [errResponse, resultOf_response, payloadB8_shift]

theorem rspLegal_raised (c : Bool) (e : Err) : RspLegal (raisedResponse c e) := by
  cases e with
  | hardware d =>
    cases c
    · exact rspLegal_err _
    · exact rspLegal_ok 0
  | range d => exact rspLegal_err _
  | format d => exact rspLegal_err _
  | illegal d => exact rspLegal_err _

/-! ### What a step of the sequencer counts -/

/-- Every step in a shaped list has a shape. -/
theorem shaped_mem {fs : List SeqStep} {ks : List StepShape} (h : Shaped fs ks) {f : SeqStep} (hf : f ∈ fs) :
    ∃ k : StepShape, StepSpec f k.1 k.2 := by
  induction h with
  | nil => cases hf
  | cons hfk _ ih =>
    rcases List.mem_cons.mp hf with rfl | hf
    · exact ⟨_, hfk⟩
    · exact ih hf

/-- The bus and settle draws taken so far. -/
def State.drawsTaken (s : State) : Nat := s.env.bus.taken + s.env.settle.taken

/-- A transaction takes a bus draw, a settle wait a settle draw, and neither takes both. -/
theorem StepSpec.draws {f : SeqStep} {wait : Bool} {raises : List Err} (h : StepSpec f wait raises) (s : State) :
    (f s).1.drawsTaken = s.drawsTaken + 1 := by
  have hb := h.bus s
  have hs := h.settle s
  cases wait <;> simp [State.drawsTaken, hb, hs, drawNext] <;> omega

/-- A busy sequencer's step either makes the transaction or wait at its position and counts it, or ends the command with a
response. -/
theorem sequencerStep_counts_or_responds {s : State} {op : Byte} {n : Nat} (h : s.seq = .busy op n) :
    (∃ i u, decode (commandWord op (payloadOf s.cmd)) = .ok i ∧ n < (commandOf i).steps.length ∧ Inside s u ∧
      u.drawsTaken = s.drawsTaken + 1 ∧ sequencerStep s = u.advance) ∨
    (∃ u r, Inside s u ∧ RspLegal r ∧ sequencerStep s = u.respond r) := by
  rcases sequencerStep_cases h with ⟨d, -, h1⟩ | ⟨i, e, -, -, -, h1⟩ | ⟨i, a, hd, -, h1⟩
  · exact .inr ⟨s, _, Inside.refl s, rspLegal_err _, h1⟩
  · exact .inr ⟨s, _, Inside.refl s, rspLegal_raised _ e, h1⟩
  · have hacc : Inside s { s with acc := a } := inside_scratch s s.old s.s1 s.s2 a
    rcases stepAt_cases i n { s with acc := a } with ⟨f, hf, -, h2⟩ | ⟨f, e, hf, -, h2⟩ | ⟨-, h2⟩
    · obtain ⟨hn, -⟩ := List.getElem?_eq_some_iff.mp hf
      obtain ⟨k, hk⟩ := shaped_mem (commandOf_shaped i) (List.mem_of_getElem? hf)
      exact .inl ⟨i, _, hd, hn, hacc.trans (hk.inside _), hk.draws _, h1.trans h2⟩
    · have hin := shaped_inside (commandOf_shaped i) f (List.mem_of_getElem? hf)
      exact .inr ⟨_, _, hacc.trans (hin _), rspLegal_raised _ e, h1.trans h2⟩
    · exact .inr ⟨_, _, hacc, rspLegal_ok _, h1.trans h2⟩

/-! ### The invariant -/

/-- A block that has just responded meets the invariant. -/
theorem inv_respond {s : State} {r : Word} (hm : s.mem.wf = true) (hr : RspLegal r) : (s.respond r).Inv :=
  ⟨hm, by simp, rfl, hr⟩

/-- The invariant of what changes in the register space, the scratch registers and the draws only. -/
theorem Inside.inv {s t : State} (h : Inside s t) (hs : s.Inv) : t.Inv := by
  obtain ⟨hm, hb, hq, hr⟩ := hs
  refine ⟨h.wf hm, ?_, ?_, ?_⟩
  · rw [h.busy, h.seq]; exact hb
  · simpa only [seqLegal, h.seq, h.cmd] using hq
  · rw [h.rsp]; exact hr

/-- The opcode of a legal position is that of `CMD`. -/
theorem seqLegal_opcode {s : State} {op : Byte} {n : Nat} (h : seqLegal s = true) (hs : s.seq = .busy op n) :
    op = opcodeOf s.cmd := by
  obtain ⟨hop, -⟩ : op = opcodeOf s.cmd ∧ _ := by simpa [seqLegal, hs] using h
  exact hop

/-- At a legal position the sequencer decodes the word in `CMD`. -/
theorem seqLegal_word {s : State} {op : Byte} {n : Nat} (h : seqLegal s = true) (hs : s.seq = .busy op n) :
    commandWord op (payloadOf s.cmd) = s.cmd := by
  rw [seqLegal_opcode h hs, word_split]

/-- A step that is counted at a position before the command's end leads to a position of the command. -/
theorem inv_advance {s : State} {op : Byte} {n : Nat} {i : Instr} (hs : s.Inv) (hseq : s.seq = .busy op n)
    (hd : decode s.cmd = .ok i) (hn : n < (commandOf i).steps.length) : s.advance.Inv := by
  obtain ⟨hm, hb, hq, hr⟩ := hs
  have hop := seqLegal_opcode hq hseq
  have hadv := advance_seq s hseq
  refine ⟨by simpa using hm, ?_, ?_, by simpa using hr⟩
  · simpa [hadv, hseq] using hb
  · simp only [seqLegal, hadv, advance_cmd, hd]
    simpa [hop] using hn

theorem sequencerStep_inv {s : State} (hs : s.Inv) : (sequencerStep s).Inv := by
  cases hseq : s.seq with
  | idle => rw [sequencerStep_idle hseq]; exact hs
  | busy op n =>
    obtain ⟨hm, -, hq, -⟩ := id hs
    rcases sequencerStep_counts_or_responds hseq with ⟨i, u, hd, hn, hin, -, h⟩ | ⟨u, r, hin, hr, h⟩
    · rw [seqLegal_word hq hseq, ← hin.cmd] at hd
      rw [h]
      exact inv_advance (hin.inv hs) (hin.seq.trans hseq) hd hn
    · rw [h]
      exact inv_respond (hin.wf hm) hr

theorem present_inv {s : State} (hs : s.Inv) (w : Word) : (present w s).Inv := by
  cases hb : s.busy with
  | true => rw [present_busy hb]; exact hs
  | false =>
    obtain ⟨hm, -, -, hr⟩ := hs
    rw [present_idle hb]
    refine ⟨hm, by simp, ?_, hr⟩
    cases hd : decode w <;> simp [seqLegal, hd]

/-- A command ends with the invariant, from any state with the register space in canonical form. -/
theorem exec_inv {i : Instr} {s t : State} (hm : s.mem.wf = true) (h : exec i s = .next t) : t.Inv := by
  rcases exec_cases i s with ⟨e, -, -, hx⟩ | ⟨p, -, u, e, hd, hx⟩
  · obtain rfl := Host.Outcome.next.inj (hx.symm.trans h)
    exact inv_respond hm (rspLegal_err e)
  · obtain rfl := Host.Outcome.next.inj (hx.symm.trans h)
    have hin := doSteps_inside (shaped_inside (commandOf_shaped i)) { s.begin i.opcode with acc := p }
    rw [hd] at hin
    refine inv_respond (hin.wf hm) ?_
    cases e with
    | none => exact rspLegal_ok _
    | some e => exact rspLegal_raised _ e

theorem blockingCall_inv {s t : State} {w : Word} (hs : s.Inv) (h : blockingCall w s = .next t) : t.Inv := by
  cases hb : s.busy with
  | true =>
    obtain rfl := Host.Outcome.next.inj ((blockingCall_busy hb w).symm.trans h)
    exact hs
  | false =>
    obtain ⟨hm, -⟩ := present_inv hs w
    cases hd : decode w with
    | error d =>
      obtain rfl := Host.Outcome.next.inj ((blockingCall_error hb hd).symm.trans h)
      exact inv_respond hm (rspLegal_err _)
    | ok i => exact exec_inv hm ((blockingCall_ok hb hd).symm.trans h)

theorem hostWaits_inv {s : State} (hs : s.Inv) (k : Nat) : (hostWaits k s).Inv := by
  unfold hostWaits
  split
  · exact sequencerStep_inv hs
  · exact (inside_ticks k s).1.inv hs

theorem resetBlock_inv {s : State} (hm : s.mem.wf = true) : (resetBlock s).Inv :=
  ⟨hm, by simp [resetBlock, State.powerOn], rfl, rspLegal_ok 0⟩

/-- Settles O58, by what a step does for each action of the host. -/
theorem everyStepKeepsTheInvariant : Obligations.EveryStepKeepsTheInvariant := by
  intro s t hs h
  have hp : s.pop.Inv := hs
  cases ha : s.agenda with
  | nil =>
    obtain rfl := Host.Outcome.next.inj ((step_none ha).symm.trans h)
    exact sequencerStep_inv hs
  | cons a l =>
    cases a with
    | call w => exact blockingCall_inv hp ((step_call ha).symm.trans h)
    | present w =>
      obtain rfl := Host.Outcome.next.inj ((step_present ha).symm.trans h)
      exact present_inv hp w
    | wait k =>
      obtain rfl := Host.Outcome.next.inj ((step_wait ha).symm.trans h)
      exact hostWaits_inv hp k
    | reset =>
      obtain rfl := Host.Outcome.next.inj ((step_reset ha).symm.trans h)
      obtain ⟨hm, -⟩ := hp
      exact resetBlock_inv hm

/-! ### The host interface and the sequencer -/

/-- Settles O34: an idle block takes the word. -/
theorem wordPresentedWhileIdleIsAccepted : Obligations.WordPresentedWhileIdleIsAccepted := by
  intro s w rest h hidle
  have hb : s.pop.busy = false := (pop_busy s).trans (idle_of_present h hidle)
  rw [step_present h, present_idle hb, pop_of_cons h]
  rfl

/-- The sequencer steps where the host has no action left, and where the host does nothing while a command runs. -/
theorem step_sequencer {s : State} (h : s.agenda = [] ∨ (s.busy = true ∧ ∃ k rest, s.agenda = .wait k :: rest)) :
    step s = .next (sequencerStep s.pop) := by
  rcases h with h | ⟨hb, k, rest, h⟩
  · have hpop : s.pop = s := by rw [State.pop, h, List.tail_nil, ← h]
    rw [step_none h, hpop]
  · exact step_wait_busy h hb

/-- Settles O35: the step of the sequencer counts a draw or responds, and both ways to step it are the same step. -/
theorem sequencerCountsOneOrCompletes : Obligations.SequencerCountsOneOrCompletes := by
  constructor
  · intro s t op n ha hseq h
    obtain rfl := Host.Outcome.next.inj ((step_sequencer ha).symm.trans h)
    obtain ⟨hcmd, hcfg, hagenda, -⟩ := sequencerStep_frame s.pop
    refine ⟨hcmd, hcfg, hagenda, ?_⟩
    rcases sequencerStep_counts_or_responds (s := s.pop) hseq with ⟨i, u, -, -, hin, hdraws, hu⟩ | ⟨u, r, -, -, hu⟩
    · refine .inl ?_
      rw [hu, advance_busy, advance_rsp, advance_env]
      exact ⟨advance_seq u (hin.seq.trans hseq), hin.busy, hin.rsp, hdraws⟩
    · rw [hu]
      exact .inr ⟨rfl, rfl⟩
  · intro s k hb
    have hwait := step_sequencer (s := { s with agenda := [.wait k] }) (.inr ⟨hb, k, [], rfl⟩)
    have hnone := step_sequencer (s := { s with agenda := [] }) (.inl rfl)
    exact hwait.trans hnone.symm

/-- Settles O38: every command ends idle and leaves the block's frame. -/
theorem everyCommandEndsIdle : Obligations.EveryCommandEndsIdle := exec_blockFrame

/-! ### The scratch registers (10_state.md R26) -/

/-- `OLD`, `S1` and `S2`. -/
def State.scratch (s : State) : Byte × BitVec 7 × BitVec 7 := (s.old, s.s1, s.s2)

theorem tick_scratch (s : State) : s.tick.scratch = s.scratch := by
  unfold State.tick; split <;> rfl

theorem ticks_scratch (k : Nat) (s : State) : (State.ticks k s).scratch = s.scratch := by
  induction k generalizing s with
  | zero => rfl
  | succ k ih => exact (ih s.tick).trans (tick_scratch s)

theorem gap_scratch (s : State) : s.gap.scratch = s.scratch := ticks_scratch _ s

/-- A step leaves what `g` shows of the scratch registers alone: all three for `g = id`, `S1` and `S2` for `g = Prod.snd`. -/
def KeepsScratch {α : Type} (g : Byte × BitVec 7 × BitVec 7 → α) (f : SeqStep) : Prop :=
  ∀ s, g (f s).1.scratch = g s.scratch

section Keeps
variable {α : Type} (g : Byte × BitVec 7 × BitVec 7 → α)

theorem readReg_keepsScratch (r : RtcReg) {use : Byte → State → StepOut}
    (h : ∀ b t, g (use b t).1.scratch = g t.scratch) : KeepsScratch g (readReg r use) := by
  intro s
  rw [readReg_gap]
  split
  · exact congrArg g (gap_scratch s)
  · exact (h _ _).trans (congrArg g (gap_scratch s))

theorem writeReg_keepsScratch (r : RtcReg) (b : State → Byte) : KeepsScratch g (fun s => writeReg r (b s) s) := by
  intro s
  show g (writeReg r (b s) s).1.scratch = g s.scratch
  rw [writeReg_gap]
  split <;> exact congrArg g (gap_scratch s)

theorem readPair_keepsScratch (q : TmpPair) {use : Byte → Byte → State → StepOut}
    (h : ∀ hi lo t, g (use hi lo t).1.scratch = g t.scratch) : KeepsScratch g (readPair q use) := by
  intro s
  unfold readPair
  dsimp only
  split
  · exact congrArg g (gap_scratch s)
  · refine (h _ _ _).trans (congrArg g ?_)
    split <;> exact gap_scratch s

theorem setTemp_keepsScratch (q : TmpPair) (t : Int) : KeepsScratch g (setTemp q t) := by
  intro s
  unfold setTemp writePair
  dsimp only
  split <;> exact congrArg g (gap_scratch s)

theorem readBit_keepsScratch (r : RtcReg) (i : Nat) : KeepsScratch g (readBit r i) :=
  readReg_keepsScratch g r (fun _ _ => rfl)

theorem readField_keepsScratch (f : TimeField) : KeepsScratch g (readField f) :=
  readReg_keepsScratch g _ (fun b t => by split <;> rfl)

theorem getTemp_keepsScratch (q : TmpPair) : KeepsScratch g (getTemp q) :=
  readPair_keepsScratch g q (fun _ _ _ => rfl)

/-- The steps of a command, each keeping what `g` shows, keep it together. -/
theorem exec_keepsScratch {i : Instr} {s t : State} (hk : ∀ f ∈ (commandOf i).steps, KeepsScratch g f)
    (h : exec i s = .next t) : g t.scratch = g s.scratch := by
  rcases exec_cases i s with ⟨e, -, -, hx⟩ | ⟨p, -, u, e, hd, hx⟩
  · obtain rfl := Host.Outcome.next.inj (hx.symm.trans h)
    rfl
  · obtain rfl := Host.Outcome.next.inj (hx.symm.trans h)
    have hu := doSteps_keeps (fun _ v => g v.scratch = g s.scratch) (n := 0) (s := { s.begin i.opcode with acc := p })
      (fun _ _ hv => hv) (fun f hf _ v hv => (hk f hf v).trans hv)
      (fun _ v hv => by simpa [State.scratch] using hv) rfl
    rw [hd] at hu
    exact hu

end Keeps

/-- A read-modify-write changes `OLD` only. -/
theorem rmwBits_keepSamples (r : RtcReg) (m v : Byte) : ∀ f ∈ rmwBits r m v, KeepsScratch Prod.snd f := by
  simp only [rmwBits, List.forall_mem_cons]
  exact ⟨readReg_keepsScratch _ r (fun _ _ => rfl), writeReg_keepsScratch _ r (fun s => mergeBits s.old m v),
    List.forall_mem_nil _⟩

theorem writeField_keepSamples (r : RtcReg) (m v : Byte) : ∀ f ∈ writeField r m v, KeepsScratch Prod.snd f := by
  unfold writeField
  split
  · exact List.forall_mem_singleton.mpr (writeReg_keepsScratch _ r (fun _ => v))
  · exact rmwBits_keepSamples r m v

theorem dateTimeSteps_keepSamples (dt : DateTime) : ∀ f ∈ dateTimeSteps dt, KeepsScratch Prod.snd f := by
  have h (f : TimeField) : ∀ x ∈ writeFieldBcd f (dateTimeField dt f), KeepsScratch Prod.snd x :=
    writeField_keepSamples _ _ _
  simp only [dateTimeSteps, List.forall_mem_append]
  exact ⟨⟨⟨⟨⟨h .second, h .minute⟩, h .hour⟩, h .day⟩, h .month⟩, h .year⟩

/-- A command without a read-modify-write keeps all three scratch registers. -/
theorem steps_keepScratch {i : Instr} (hclk : ∀ d, i ≠ .rtcSclk d) (hbat : ∀ b, i ≠ .rtcSbat b)
    (hdt : ∀ dt, i ≠ .rtcSdt dt) (hrst : i ≠ .rtcRst) : ∀ f ∈ (commandOf i).steps, KeepsScratch id f := by
  cases i with
  | rtcSclk d => exact absurd rfl (hclk d)
  | rtcSbat b => exact absurd rfl (hbat b)
  | rtcSdt dt => exact absurd rfl (hdt dt)
  | rtcRst => exact absurd rfl hrst
  | bcdEnc _ => exact List.forall_mem_nil _
  | bcdDec _ => exact List.forall_mem_nil _
  | tempDec _ _ => exact List.forall_mem_nil _
  | tempEnc _ => exact List.forall_mem_nil _
  | rtcGclk => exact List.forall_mem_singleton.mpr (readBit_keepsScratch _ _ _)
  | rtcGbat => exact List.forall_mem_singleton.mpr (readBit_keepsScratch _ _ _)
  | rtcGdt =>
    simp only [commandOf, rtcGdt, List.forall_mem_cons, readField_keepsScratch, true_and]
    exact List.forall_mem_nil _
  | tmpGamb => exact List.forall_mem_singleton.mpr (getTemp_keepsScratch _ _)
  | tmpGupr => exact List.forall_mem_singleton.mpr (getTemp_keepsScratch _ _)
  | tmpGlwr => exact List.forall_mem_singleton.mpr (getTemp_keepsScratch _ _)
  | tmpGcrt => exact List.forall_mem_singleton.mpr (getTemp_keepsScratch _ _)
  | tmpSupr t => exact List.forall_mem_singleton.mpr (setTemp_keepsScratch _ _ t)
  | tmpSlwr t => exact List.forall_mem_singleton.mpr (setTemp_keepsScratch _ _ t)
  | tmpScrt t => exact List.forall_mem_singleton.mpr (setTemp_keepsScratch _ _ t)

/-- A command without tick verification keeps the two samples. -/
theorem steps_keepSamples {i : Instr} (hclk : ∀ d, i ≠ .rtcSclk d) (hrst : i ≠ .rtcRst) :
    ∀ f ∈ (commandOf i).steps, KeepsScratch Prod.snd f := by
  by_cases hbat : ∃ b, i = .rtcSbat b
  · obtain ⟨b, rfl⟩ := hbat
    exact rmwBits_keepSamples .wkday maskBat (batByte b)
  by_cases hdt : ∃ dt, i = .rtcSdt dt
  · obtain ⟨dt, rfl⟩ := hdt
    exact dateTimeSteps_keepSamples dt
  have hkeep := steps_keepScratch hclk (not_exists.mp hbat) (not_exists.mp hdt) hrst
  exact fun f hf s => congrArg Prod.snd (hkeep f hf s)

/-- Settles O44, by which steps write a scratch register. -/
theorem scratchRegistersChangeOnlyWhereUsed : Obligations.ScratchRegistersChangeOnlyWhereUsed := by
  intro i s t h
  refine ⟨fun hclk hrst => ?_, fun hclk hbat hdt hrst => ?_⟩
  · exact Prod.ext_iff.mp (exec_keepsScratch _ (steps_keepSamples hclk hrst) h)
  · exact congrArg Prod.fst (exec_keepsScratch _ (steps_keepScratch hclk hbat hdt hrst) h)

end Sys2Proof.Machine
end

section
/-! PROOFS. The register space under a command (20_memory.md R62, R63, R69, R72): which registers and pairs its steps write,
that the rest is left to the device's own ticks, and what a failed transaction does to the command. -/

namespace Sys2Proof.Machine

/-! ### What the launch premises promise to the steps to come -/

/-- For steps of these shapes from `s`: the configuration is `c`, no transaction's gap and no settle wait has a foreign write
(20_memory.md R72), and each bus draw is as `extra` says. -/
structure Promised (c : Config) (extra : BusDraw → Prop) (ks : List StepShape) (s : State) : Prop where
  cfg : s.cfg = c
  bus : ∀ k < busOf ks, (s.busDraw k).foreign = [] ∧ extra (s.busDraw k)
  settle : ∀ k < settleOf ks, (s.settleDraw k).foreign = []

@[simp] theorem busOf_append (ks ls : List StepShape) : busOf (ks ++ ls) = busOf ks + busOf ls := by
  simp [busOf]

@[simp] theorem settleOf_append (ks ls : List StepShape) : settleOf (ks ++ ls) = settleOf ks + settleOf ls := by
  simp [settleOf]

section Promises
variable {c : Config} {extra : BusDraw → Prop} {ks ls : List StepShape} {s : State}

theorem Promised.left (h : Promised c extra (ks ++ ls) s) : Promised c extra ks s where
  cfg := h.cfg
  bus := fun k hk => h.bus k (by rw [busOf_append]; omega)
  settle := fun k hk => h.settle k (by rw [settleOf_append]; omega)

/-- A step that is made uses up what is promised to it, and the rest is promised to the steps after it. -/
theorem Promised.next {f : SeqStep} {k : StepShape} (hf : StepSpec f k.1 k.2) (h : Promised c extra (k :: ks) s) :
    Promised c extra ks (f s).1.advance := by
  obtain ⟨wait, raises⟩ := k
  have hcfg : (f s).1.advance.cfg = c := by rw [advance_cfg, (hf.inside s).cfg, h.cfg]
  have hb := hf.bus s
  have hs := hf.settle s
  cases wait with
  | false =>
    have hbus : (f s).1.advance.env.bus = s.takeBus.env.bus := by rw [advance_env]; exact hb
    have hsettle : (f s).1.advance.env.settle = s.env.settle := by rw [advance_env]; exact hs
    refine ⟨hcfg, fun k hk => ?_, fun k hk => ?_⟩
    · rw [busDraw_congr hbus, takeBus_busDraw]
      exact h.bus _ (by rw [busOf_bus]; omega)
    · rw [settleDraw_congr hsettle]
      exact h.settle k hk
  | true =>
    have hbus : (f s).1.advance.env.bus = s.env.bus := by rw [advance_env]; exact hb
    have hsettle : (f s).1.advance.env.settle = s.takeSettle.env.settle := by rw [advance_env]; exact hs
    refine ⟨hcfg, fun k hk => ?_, fun k hk => ?_⟩
    · rw [busDraw_congr hbus]
      exact h.bus k hk
    · rw [settleDraw_congr hsettle, takeSettle_settleDraw]
      exact h.settle _ (by rw [settleOf_wait]; omega)

/-- Steps that all succeed leave what is promised to the steps after them. -/
theorem Promised.rest {fs : List SeqStep} (hfs : Shaped fs ks) (h : Promised c extra (ks ++ ls) s)
    (hok : (doSteps fs s).2 = none) : Promised c extra ls (doSteps fs s).1 := by
  induction hfs generalizing s with
  | nil => exact h
  | @cons f k fs ks hf _ ih =>
    cases h2 : (f s).2 with
    | none =>
      simp only [doSteps, h2] at hok ⊢
      exact ih (h.next hf) hok
    | some e => simp [doSteps, h2] at hok

/-- The premises of a statement about one command are what its steps are promised. -/
theorem promised_of_premises {i : Instr} (p : Payload) (hn : s.NoOtherBusMaster 15)
    (hextra : ∀ k < 15, extra (s.busDraw k)) :
    Promised s.cfg extra (shape i) { s.begin i.opcode with acc := p } := by
  obtain ⟨hbus, hsettle⟩ := hn
  have hb : busOf (shape i) ≤ 15 := by cases i <;> simp [busOf_shape, busCount]
  have hs : settleOf (shape i) ≤ 1 := by cases i <;> simp [settleOf_shape, settleCount]
  refine ⟨rfl, fun k hk => ?_, fun k hk => ?_⟩
  · exact ⟨hbus k (by omega), hextra k (by omega)⟩
  · obtain rfl : k = 0 := by omega
    exact hsettle

end Promises

/-! ### Steps that keep a property of the register space -/

/-- Steps of these shapes, with what is promised to them, keep a property of the register space, whether or not one of them
ends the command. -/
structure Keeps (c : Config) (extra : BusDraw → Prop) (P : Memory → Prop) (fs : List SeqStep) (ks : List StepShape) :
    Prop where
  shaped : Shaped fs ks
  kept : ∀ s, Promised c extra ks s → P s.mem → P (doSteps fs s).1.mem

/-- The device's own ticks keep a property of the register space. -/
abbrev Ageless (c : Config) (P : Memory → Prop) : Prop := ∀ s t, s.cfg = c → Aged s t → P s.mem → P t.mem

/-- The shape of the write of a field with this mask (20_memory.md R70). -/
def fieldShape (m : Byte) : List StepShape := if m = 0xFF then [plain] else [plain, plain]

section Kept
variable {c : Config} {extra : BusDraw → Prop} {P : Memory → Prop}

theorem Keeps.nil : Keeps c extra P [] [] := ⟨.nil, fun _ _ hp => hp⟩

@[simp] theorem doSteps_singleton_mem (f : SeqStep) (s : State) : (doSteps [f] s).1.mem = (f s).1.mem := by
  cases h : (f s).2 <;> simp [doSteps, h]

theorem Keeps.single {f : SeqStep} {k : StepShape} (hf : StepSpec f k.1 k.2)
    (h : ∀ s, Promised c extra [k] s → P s.mem → P (f s).1.mem) : Keeps c extra P [f] [k] where
  shaped := .cons hf .nil
  kept := fun s hs hp => by
    rw [doSteps_singleton_mem]
    exact h s hs hp

theorem Keeps.append {fs gs : List SeqStep} {ks ls : List StepShape} (hf : Keeps c extra P fs ks)
    (hg : Keeps c extra P gs ls) : Keeps c extra P (fs ++ gs) (ks ++ ls) where
  shaped := shaped_append hf.shaped hg.shaped
  kept := fun s hs hp => by
    have h1 := hf.kept s hs.left hp
    rw [doSteps_append]
    cases h2 : (doSteps fs s).2 with
    | none => exact hg.kept _ (hs.rest hf.shaped h2) h1
    | some e => exact h1

/-- A command whose steps keep a property of the register space keeps it. -/
theorem exec_keeps {i : Instr} {s t : State} (hk : Keeps s.cfg extra P (commandOf i).steps (shape i))
    (hn : s.NoOtherBusMaster 15) (hextra : ∀ k < 15, extra (s.busDraw k)) (hx : exec i s = .next t) (hp : P s.mem) :
    P t.mem := by
  rcases exec_cases i s with ⟨e, -, -, h⟩ | ⟨p, -, u, e, hd, h⟩
  · obtain rfl := Host.Outcome.next.inj (h.symm.trans hx)
    exact hp
  · obtain rfl := Host.Outcome.next.inj (h.symm.trans hx)
    have hu := hk.kept _ (promised_of_premises p hn hextra) hp
    rw [hd] at hu
    exact hu

section Steps
variable (hc : c.Legal) (hage : Ageless c P)
include hc hage

theorem keeps_readReg {r : RtcReg} {use : Byte → State → StepOut} {raises : List Err}
    (hf : StepSpec (readReg r use) false raises) (huse : ∀ b t, (use b t).1.mem = t.mem) :
    Keeps c extra P [readReg r use] [(false, raises)] :=
  .single hf fun s hs hp => by
    obtain ⟨hforeign, -⟩ := hs.bus 0 (by simp)
    obtain ⟨t, ha, ht⟩ := readReg_spec (hs.cfg ▸ hc) hforeign r use
    have hpt := hage s t hs.cfg ha hp
    rw [ht]
    split
    · exact hpt
    · rw [huse]; exact hpt

theorem keeps_writeReg {r : RtcReg} (b : State → Byte) (hw : ∀ m b, P m → P (m.write (rtcKey c r) b)) :
    Keeps c extra P [fun s => writeReg r (b s) s] [plain] :=
  .single (writeReg_step r b) fun s hs hp => by
    obtain ⟨hforeign, -⟩ := hs.bus 0 (by simp)
    obtain ⟨t, ha, ht⟩ := writeReg_spec (hs.cfg ▸ hc) hforeign r (b s)
    have hpt := hage s t hs.cfg ha hp
    rw [ht, hs.cfg]
    split <;> exact hw _ _ hpt

theorem keeps_rmwRead (r : RtcReg) : Keeps c extra P [rmwRead r] [plain] :=
  keeps_readReg hc hage (rmwRead_step r) (fun _ _ => rfl)

theorem keeps_writeField {r : RtcReg} (m v : Byte) (hw : ∀ m b, P m → P (m.write (rtcKey c r) b)) :
    Keeps c extra P (writeField r m v) (fieldShape m) := by
  unfold writeField fieldShape
  split
  · exact keeps_writeReg hc hage (fun _ => v) hw
  · exact (keeps_rmwRead hc hage r).append (keeps_writeReg hc hage (fun s => mergeBits s.old m v) hw)

theorem keeps_tickVerify (d : ClockState) :
    Keeps c extra P (tickVerify d) [plain, (true, []), (false, [.hardware .tickVerify])] := by
  have hfirst : Keeps c extra P [sampleFirst] [plain] := keeps_readReg hc hage sampleFirst_step (fun _ _ => rfl)
  have hwait : Keeps c extra P [waitSettle] [(true, [])] := .single waitSettle_step fun s hs hp => by
    obtain ⟨t, ha, ht, -⟩ := settle_spec (hs.cfg ▸ hc) (hs.settle 0 (by simp))
    show P s.settle.mem
    rw [ht]
    exact hage s t hs.cfg ha hp
  have hsecond : Keeps c extra P [sampleSecond d] [(false, [.hardware .tickVerify])] :=
    .single (sampleSecond_step d) fun s _ hp => by
      rw [sampleSecond_spec]
      split <;> exact hp
  exact hfirst.append (hwait.append hsecond)

theorem keeps_readBit (r : RtcReg) (i : Nat) : Keeps c extra P [readBit r i] [plain] :=
  keeps_readReg hc hage (readBit_step r i) (fun _ _ => rfl)

theorem keeps_readField (f : TimeField) : Keeps c extra P [readField f] [(false, [.format (.field f)])] :=
  keeps_readReg hc hage (readField_step f) (fun b t => by split <;> rfl)

/-- A read of a threshold writes nothing; one of `TAMB` leaves the sensor's sample in the pair. -/
theorem keeps_readPair {q : TmpPair} {use : Byte → Byte → State → StepOut} (hf : StepSpec (readPair q use) false [])
    (huse : ∀ h l t, (use h l t).1.mem = t.mem)
    (hw : q = .amb → ∀ m hi lo, P m → P (m.writePair (tmpKey c q) hi lo)) :
    Keeps c extra P [readPair q use] [plain] :=
  .single hf fun s hs hp => by
    obtain ⟨hforeign, -⟩ := hs.bus 0 (by simp)
    by_cases hq : q = .amb
    · subst hq
      obtain ⟨t, ha, ht⟩ := readPair_amb_spec (hs.cfg ▸ hc) hforeign use
      have hpt := hage s t hs.cfg ha hp
      rw [ht]
      split
      · exact hpt
      · have hcfg : t.cfg = c := ha.cfg.trans hs.cfg
        rw [huse]
        show P (t.mem.writePair (tmpKey t.cfg .amb) _ _)
        rw [hcfg]
        exact hw rfl _ _ _ hpt
    · obtain ⟨t, ha, ht⟩ := readPair_spec (hs.cfg ▸ hc) hforeign hq use
      have hpt := hage s t hs.cfg ha hp
      rw [ht]
      split
      · exact hpt
      · rw [huse]; exact hpt

theorem keeps_getTemp {q : TmpPair} (hw : q = .amb → ∀ m hi lo, P m → P (m.writePair (tmpKey c q) hi lo)) :
    Keeps c extra P [getTemp q] [plain] :=
  keeps_readPair hc hage (getTemp_step q) (fun _ _ _ => rfl) hw

theorem keeps_setTemp {q : TmpPair} (x : Int) (hw : ∀ m hi lo, P m → P (m.writePair (tmpKey c q) hi lo)) :
    Keeps c extra P [setTemp q x] [plain] :=
  .single (setTemp_step q x) fun s hs hp => by
    obtain ⟨hforeign, -⟩ := hs.bus 0 (by simp)
    obtain ⟨t, ha, ht⟩ := writePair_spec (hs.cfg ▸ hc) hforeign q (tempHigh x) (tempLow x)
    have hpt := hage s t hs.cfg ha hp
    rw [setTemp, ht, hs.cfg]
    split <;> exact hw _ _ _ hpt

end Steps

end Kept

/-! ### What each command writes -/

/-- The six fields of a date-time, each a register and its mask (42_rtc.md R151). -/
def dateTimeFields : List (RtcReg × Byte) :=
  [TimeField.second, .minute, .hour, .day, .month, .year].map (fun f => (fieldReg f, fieldMask f))

/-- The fields of RTC registers a command writes: the "Accesses" lines of 42_rtc.md. -/
def writtenFields : Instr → List (RtcReg × Byte)
  | .rtcSclk _ => [(.sec, maskOsc)]
  | .rtcSbat _ => [(.wkday, maskBat)]
  | .rtcSdt _ => dateTimeFields
  | .rtcRst => dateTimeFields ++ [(.wkday, maskBat), (.sec, maskOsc)]
  | _ => []

/-- The pairs of the sensor that change in a command: what a set writes, and for TMP.GAMB the sample (log entry 9). -/
def writtenPairs : Instr → List TmpPair
  | .tmpGamb => [.amb]
  | .tmpSupr _ => [.upper]
  | .tmpSlwr _ => [.lower]
  | .tmpScrt _ => [.crit]
  | _ => []

section Commands
variable {c : Config} {extra : BusDraw → Prop} {P : Memory → Prop}

/-- Whatever the six field writes of a date-time keep, they keep together. -/
theorem keeps_dateTimeSteps (dt : DateTime)
    (hfield : ∀ r m, (r, m) ∈ dateTimeFields → ∀ v, Keeps c extra P (writeField r m v) (fieldShape m)) :
    Keeps c extra P (dateTimeSteps dt) (List.replicate 9 plain) := by
  have h (f : TimeField) : Keeps c extra P (writeFieldBcd f (dateTimeField dt f)) (fieldShape (fieldMask f)) :=
    hfield _ _ (by cases f <;> simp [dateTimeFields]) _
  exact (((((h .second).append (h .minute)).append (h .hour)).append (h .day)).append (h .month)).append (h .year)

/-- Everything a command does to the register space: time passes, the fields it writes are written, the pairs it writes take
bytes. What all three keep, the command's steps keep. -/
theorem commandOf_keeps (i : Instr) (hc : c.Legal) (hage : Ageless c P)
    (hfield : ∀ r m, (r, m) ∈ writtenFields i → ∀ v, Keeps c extra P (writeField r m v) (fieldShape m))
    (hpair : ∀ q ∈ writtenPairs i, ∀ m hi lo, P m → P (m.writePair (tmpKey c q) hi lo)) :
    Keeps c extra P (commandOf i).steps (shape i) := by
  cases i with
  | rtcGclk => exact keeps_readBit hc hage .sec 7
  | rtcSclk d => exact (hfield .sec maskOsc (by simp [writtenFields]) (oscByte d)).append (keeps_tickVerify hc hage d)
  | rtcGbat => exact keeps_readBit hc hage .wkday 3
  | rtcSbat b => exact hfield .wkday maskBat (by simp [writtenFields]) (batByte b)
  | rtcGdt =>
    have h (f : TimeField) := keeps_readField (extra := extra) hc hage f
    exact (h .second).append ((h .minute).append ((h .hour).append ((h .day).append ((h .month).append (h .year)))))
  | rtcSdt dt => exact keeps_dateTimeSteps dt hfield
  | rtcRst =>
    have hdt := keeps_dateTimeSteps epoch (fun r m h => hfield r m (List.mem_append_left _ h))
    have hbat := hfield .wkday maskBat (by simp [writtenFields]) (batByte .off)
    have hosc := hfield .sec maskOsc (by simp [writtenFields]) (oscByte .stopped)
    exact ((hdt.append hbat).append hosc).append (keeps_tickVerify hc hage .stopped)
  | tmpGamb => exact keeps_getTemp hc hage (fun _ => hpair .amb (by simp [writtenPairs]))
  | tmpGupr => exact keeps_getTemp hc hage (fun h => by cases h)
  | tmpGlwr => exact keeps_getTemp hc hage (fun h => by cases h)
  | tmpGcrt => exact keeps_getTemp hc hage (fun h => by cases h)
  | tmpSupr x => exact keeps_setTemp hc hage x (hpair .upper (by simp [writtenPairs]))
  | tmpSlwr x => exact keeps_setTemp hc hage x (hpair .lower (by simp [writtenPairs]))
  | tmpScrt x => exact keeps_setTemp hc hage x (hpair .crit (by simp [writtenPairs]))
  | bcdEnc v => exact .nil
  | bcdDec b => exact .nil
  | tempDec h l => exact .nil
  | tempEnc t => exact .nil

end Commands

/-! ### The preservation invariant (20_memory.md R69) -/

/-- The draw of a transaction that does not fail. -/
abbrev Unfailing : BusDraw → Prop := fun d => d.fails = false

/-- The preserved bits of a register are those of `b`. -/
abbrev PreservedAre (c : Config) (x : RtcReg) (b : Byte) (m : Memory) : Prop :=
  m.read (rtcKey c x) &&& preservedMask x = b

section Preserved
variable {c : Config} {x : RtcReg} {b : Byte}

theorem ageless_preserved : Ageless c (PreservedAre c x b) := by
  intro s t hcfg ha hp
  subst hcfg
  have hkept := ha.kept x
  rw [State.rtc, State.rtc, ha.cfg] at hkept
  exact hkept.trans hp

/-- A byte that agrees with the register on the preserved bits may be written to it, and any byte to another cell. -/
theorem preserved_write {m : Memory} {k : Nat} {v : Byte} (hv : k = rtcKey c x → v &&& preservedMask x = b)
    (hp : PreservedAre c x b m) : PreservedAre c x b (m.write k v) := by
  by_cases hk : k = rtcKey c x
  · subst hk
    show (m.write _ v).read _ &&& _ = b
    rw [read_write_same]
    exact hv rfl
  · show (m.write _ v).read _ &&& _ = b
    rw [read_write_ne _ _ (Ne.symm hk)]
    exact hp

/-- The read half of a read-modify-write that does not fail: `OLD` holds the register's byte. -/
theorem rmwRead_ok {s : State} (hc : s.cfg.Legal) (hf : (s.busDraw 0).foreign = []) (hok : (s.busDraw 0).fails = false)
    (r : RtcReg) : ∃ t, Aged s t ∧ rmwRead r s = ({ t.takeBus with old := t.rtc r }, none) := by
  obtain ⟨t, ha, ht⟩ := readReg_spec hc hf r (fun b t => ({ t with old := b }, none))
  exact ⟨t, ha, by rw [rmwRead, ht, if_neg (by simp [hok])]⟩

/-- The write half of a read-modify-write whose mask leaves the preserved bits out, where `OLD` has them: they are kept. -/
theorem rmwWrite_preserved {s : State} (hc : c.Legal) (hs : Promised c Unfailing [plain] s) {m : Byte}
    (hm : preservedMask x &&& m = 0) (v : Byte) (hold : s.old &&& preservedMask x = b) :
    PreservedAre c x b (rmwWrite x m v s).1.mem := by
  obtain ⟨hforeign, hok⟩ := hs.bus 0 (by simp)
  obtain ⟨t, -, ht⟩ := writeReg_spec (hs.cfg ▸ hc) hforeign x (mergeBits s.old m v)
  rw [if_neg (by simp [hok]), hs.cfg] at ht
  rw [rmwWrite, ht]
  show (t.mem.write (rtcKey c x) _).read (rtcKey c x) &&& _ = b
  rw [read_write_same, mergeBits_and hm]
  exact hold

/-- A read-modify-write whose mask leaves the preserved bits out keeps them: `OLD` has them from the read on. -/
theorem keeps_rmwBits_preserved (hc : c.Legal) {m : Byte} (hm : preservedMask x &&& m = 0) (v : Byte) :
    Keeps c Unfailing (PreservedAre c x b) (rmwBits x m v) [plain, plain] where
  shaped := rmwBits_shaped x m v
  kept := fun s hs hp => by
    obtain ⟨hforeign, hok⟩ := hs.bus 0 (by simp)
    obtain ⟨t, ha, ht⟩ := rmwRead_ok (hs.cfg ▸ hc) hforeign hok x
    have hold : t.rtc x &&& preservedMask x = b := by
      rw [ha.kept x, State.rtc, hs.cfg]
      exact hp
    have hnext := hs.next (rmwRead_step x)
    rw [ht] at hnext
    rw [rmwBits, doSteps_ok ht, doSteps_singleton_mem]
    exact rmwWrite_preserved hc hnext hm v (by simpa using hold)

/-- A field whose mask leaves the preserved bits out. -/
theorem keeps_writeField_preserved (hc : c.Legal) {r : RtcReg} {m : Byte} (hm : r = x → preservedMask x &&& m = 0)
    (v : Byte) : Keeps c Unfailing (PreservedAre c x b) (writeField r m v) (fieldShape m) := by
  by_cases hr : r = x
  · subst hr
    have hmask := hm rfl
    unfold writeField fieldShape
    split
    · rename_i hfull
      refine keeps_writeReg hc ageless_preserved (fun _ => v) (fun n w hp => preserved_write (fun _ => ?_) hp)
      have hkept := mergeBits_and (o := n.read (rtcKey c r)) (v := w) hmask
      rw [hfull, mergeBits_full] at hkept
      exact hkept.trans hp
    · exact keeps_rmwBits_preserved hc hmask v
  · exact keeps_writeField hc ageless_preserved m v
      (fun _ _ hp => preserved_write (fun h => absurd ((rtcKey_inj hc).mp h) hr) hp)

theorem dateTimeFields_mask : ∀ p ∈ dateTimeFields, preservedMask p.1 &&& p.2 = 0 := by decide

/-- Every field some command writes, RTC.RST writes. -/
theorem writtenFields_subset_rst (i : Instr) : writtenFields i ⊆ writtenFields .rtcRst := by
  cases i with
  | rtcSclk d => simp [writtenFields]
  | rtcSbat b => simp [writtenFields]
  | rtcSdt dt => exact List.subset_append_left _ _
  | rtcRst => exact List.Subset.refl _
  | _ => exact List.nil_subset _

/-- Of the fields a command writes, only `OSC_EN` takes in a bit that is preserved elsewhere (42_rtc.md R151; 10_state.md
R35). -/
theorem writtenFields_mask {i : Instr} {r : RtcReg} {m : Byte} (h : (r, m) ∈ writtenFields i) (hr : r ≠ .sec) :
    preservedMask r &&& m = 0 := by
  rcases List.mem_append.mp (writtenFields_subset_rst i h) with hdt | hbits
  · exact dateTimeFields_mask _ hdt
  · obtain ⟨rfl, rfl⟩ : r = .wkday ∧ m = maskBat := by simpa [hr] using hbits
    decide

/-- A command without a failing transaction keeps the preserved bits of every register but `SEC`. -/
theorem exec_preserved {i : Instr} {s t : State} (hc : s.cfg.Legal) (hq : s.NoFailure 15) (hn : s.NoOtherBusMaster 15)
    (hx : exec i s = .next t) (hr : x ≠ .sec) : t.rtc x &&& preservedMask x = s.rtc x &&& preservedMask x := by
  obtain ⟨u, hu, -, hcfg, -⟩ := exec_blockFrame i s
  obtain rfl := Host.Outcome.next.inj (hu.symm.trans hx)
  have hkeeps : Keeps s.cfg Unfailing (PreservedAre s.cfg x (s.rtc x &&& preservedMask x)) (commandOf i).steps
      (shape i) := by
    refine commandOf_keeps i hc ageless_preserved (fun r m h v => ?_) (fun q _ m hi lo hp => ?_)
    · refine keeps_writeField_preserved hc (fun hrx => ?_) v
      subst hrx
      exact writtenFields_mask h hr
    · have h1 := preserved_write (v := hi) (fun h => absurd h.symm (rtcKey_ne_tmpKey hc x q)) hp
      exact preserved_write (fun h => absurd h.symm (rtcKey_ne_tmpKey_succ x q)) h1
  rw [State.rtc, hcfg]
  exact exec_keeps hkeeps hn hq hx rfl

/-- Settles O47: no field write takes in a preserved bit of `HOUR`, `MONTH` or `WKDAY`, and no tick changes one. -/
theorem preservedBitsAreKept : Obligations.PreservedBitsAreKept := by
  intro i s t hc hq hn hx
  have h {x : RtcReg} (hr : x ≠ .sec) := exec_preserved hc hq hn hx hr
  exact ⟨h (x := .hour) (by decide), h (x := .month) (by decide), h (x := .wkday) (by decide)⟩

end Preserved

/-! ### The frame of every command (20_memory.md R63; 60_exceptions.md R218) -/

/-- The registers whose fields a command writes are cells it stores to. -/
theorem writtenFields_stored (c : Config) {i : Instr} {r : RtcReg} {m : Byte} (h : (r, m) ∈ writtenFields i) :
    rtcKey c r ∈ storedKeys c i := by
  have hdt (h : (r, m) ∈ dateTimeFields) : rtcKey c r ∈ timeKeys c := by
    obtain ⟨f, -, hf⟩ := List.mem_map.mp h
    obtain ⟨rfl, -⟩ := Prod.mk.inj hf
    cases f <;> simp [fieldReg, timeKeys]
  cases i with
  | rtcSclk d => simp_all [writtenFields, storedKeys]
  | rtcSbat b => simp_all [writtenFields, storedKeys]
  | rtcSdt dt => exact hdt h
  | rtcRst =>
    rcases List.mem_append.mp h with h | h
    · exact List.mem_cons_of_mem _ (hdt h)
    · simp only [List.mem_cons, Prod.mk.injEq, List.not_mem_nil, or_false] at h
      rcases h with ⟨rfl, -⟩ | ⟨rfl, -⟩ <;> simp [storedKeys, timeKeys]
  | _ => cases h

/-- The pairs that change in a command are cells listed for it. -/
theorem writtenPairs_stored (c : Config) {i : Instr} {q : TmpPair} (h : q ∈ writtenPairs i) :
    pairKeys c q ⊆ storedKeys c i := by
  cases i with
  | tmpGamb => simp_all [writtenPairs, storedKeys]
  | tmpSupr x => simp_all [writtenPairs, storedKeys]
  | tmpSlwr x => simp_all [writtenPairs, storedKeys]
  | tmpScrt x => simp_all [writtenPairs, storedKeys]
  | _ => cases h

/-- A cell reads as `b`. -/
abbrev CellIs (a : Nat) (b : Byte) (m : Memory) : Prop := m.read a = b

section Frame
variable {c : Config} {a : Nat} {b : Byte}

theorem ageless_cell (ha : a ∉ timeKeys c) : Ageless c (CellIs a b) := by
  intro s t hcfg hst hp
  subst hcfg
  exact (hst.outside a ha).trans hp

theorem cell_write {m : Memory} {k : Nat} (v : Byte) (hk : a ≠ k) (hp : CellIs a b m) : CellIs a b (m.write k v) :=
  (read_write_ne m v hk).trans hp

/-- The steps of a command keep every cell that is neither one it stores to nor a time register. -/
theorem keeps_cell {i : Instr} {extra : BusDraw → Prop} (hc : c.Legal) (hstored : a ∉ storedKeys c i)
    (htime : a ∉ timeKeys c) : Keeps c extra (CellIs a b) (commandOf i).steps (shape i) := by
  have hne {k : Nat} (hk : k ∈ storedKeys c i) : a ≠ k := fun h => hstored (h ▸ hk)
  refine commandOf_keeps i hc (ageless_cell htime) (fun r m h v => ?_) (fun q h m hi lo hp => ?_)
  · exact keeps_writeField hc (ageless_cell htime) m v (fun _ w => cell_write w (hne (writtenFields_stored c h)))
  · have hq := writtenPairs_stored c h
    exact cell_write lo (hne (hq (by simp [pairKeys]))) (cell_write hi (hne (hq (by simp [pairKeys]))) hp)

end Frame

/-- Settles O45: a cell outside those a command stores to is kept by its writes, and one outside the time registers by the
ticks in its gaps. -/
theorem commandsStoreOnlyToTheirCells : Obligations.CommandsStoreOnlyToTheirCells := by
  intro i s t hc hn hx a ha
  obtain ⟨hstored, htime⟩ := not_or.mp (mt List.mem_append.mpr ha)
  exact exec_keeps (extra := fun _ => True) (keeps_cell hc hstored htime) hn (fun _ _ => trivial) hx rfl

/-! ### Failed transactions (20_memory.md R62; 60_exceptions.md R207, R208) -/

@[simp] theorem errResponse_busFault : errResponse busFault = 0x0300000000000001 := by decide

/-- What a failed transaction is answered with: RTC.RST catches it (60_exceptions.md R211). -/
theorem raisedResponse_busFault (i : Instr) :
    raisedResponse (commandOf i).catches busFault = if i = .rtcRst then 0 else 0x0300000000000001 := by
  by_cases hi : i = .rtcRst
  · subst hi
    decide
  · rw [if_neg hi, catches_false hi, raisedResponse_false, errResponse_busFault]

/-- A command whose steps end with a failed transaction answers what that raises. -/
theorem exec_busFault {i : Instr} {s t : State} {p : Payload} (hp : (commandOf i).start s.cfg = .ok p)
    (hf : (doSteps (commandOf i).steps { s.begin i.opcode with acc := p }).2 = some busFault) (hx : exec i s = .next t) :
    t.rsp = if i = .rtcRst then 0 else 0x0300000000000001 := by
  rw [exec_eq_run, runCommand_ok hp, finish_respond, hf] at hx
  obtain rfl := Host.Outcome.next.inj hx
  exact raisedResponse_busFault i

/-- Where the operand check passes and only the last step has a check of its own, every transaction of the command is reached
unless one fails, and the first to fail is answered. -/
theorem exec_fails {i : Instr} {s t : State} {p : Payload} {k : Nat} (hp : (commandOf i).start s.cfg = .ok p)
    (hlast : lastOnly (shape i) = true) (hk : k < busCount i) (hf : (s.busDraw k).fails = true)
    (hx : exec i s = .next t) : t.rsp = if i = .rtcRst then 0 else 0x0300000000000001 :=
  exec_busFault hp (doSteps_fails (commandOf_shaped i) hlast (by rwa [busOf_shape]) hf) hx

theorem rtcSdt_start_ok {dt : DateTime} (h : DateTimeLegal dt) (c : Config) : (rtcSdt dt).start c = .ok 0 := by
  obtain ⟨hy1, hy2, hm1, hm2, hd1, hd2, hh, hmin, hs⟩ := h
  have hcheck : checkDateTime dt = .ok () := by
    unfold checkDateTime
    rw [if_neg (by omega), if_neg (by omega), if_neg (by omega), if_neg (by omega), if_neg (by omega),
      if_neg (by omega)]
  simp [rtcSdt, hcheck]

theorem setTempStart_ok {c : Config} {x : Int} (hmin : c.tempMin16 ≤ x) (hmax : x ≤ c.tempMax16) :
    setTempStart x c = .ok 0 := by
  simp [setTempStart, tempEncode, show ¬ (x < c.tempMin16 ∨ x > c.tempMax16) by omega]

/-- The commands the first part of O41 names pass their operand check and only their last step has a check of its own. -/
theorem start_ok_and_lastOnly {i : Instr} {c : Config}
    (h : i ∈ [Instr.rtcGclk, .rtcGbat, .tmpGamb, .tmpGupr, .tmpGlwr, .tmpGcrt] ∨ (∃ d, i = .rtcSclk d) ∨
      (∃ b, i = .rtcSbat b) ∨ (∃ dt, i = .rtcSdt dt ∧ DateTimeLegal dt) ∨
      (∃ x, (i = .tmpSupr x ∨ i = .tmpSlwr x ∨ i = .tmpScrt x) ∧ c.tempMin16 ≤ x ∧ x ≤ c.tempMax16)) :
    (∃ p, (commandOf i).start c = .ok p) ∧ lastOnly (shape i) = true ∧ i ≠ .rtcRst := by
  rcases h with h | ⟨d, rfl⟩ | ⟨b, rfl⟩ | ⟨dt, rfl, hdt⟩ | ⟨x, h, hmin, hmax⟩
  · simp only [List.mem_cons, List.not_mem_nil, or_false] at h
    rcases h with rfl | rfl | rfl | rfl | rfl | rfl <;> exact ⟨⟨0, rfl⟩, rfl, by simp⟩
  · exact ⟨⟨0, rfl⟩, rfl, by simp⟩
  · exact ⟨⟨0, rfl⟩, rfl, by simp⟩
  · exact ⟨⟨0, rtcSdt_start_ok hdt c⟩, rfl, by simp⟩
  · rcases h with rfl | rfl | rfl <;> exact ⟨⟨0, setTempStart_ok hmin hmax⟩, rfl, by simp⟩

/-- A transaction that was made and failed was the command's last, and is answered. -/
theorem exec_made_failed {i : Instr} {s t : State} {k : Nat} (hx : exec i s = .next t)
    (hf : (s.busDraw k).fails = true) (hm : s.env.bus.taken + k < t.env.bus.taken) :
    t.env.bus.taken = s.env.bus.taken + (k + 1) ∧ t.rsp = if i = .rtcRst then 0 else 0x0300000000000001 := by
  rcases exec_cases i s with ⟨e, -, -, h⟩ | ⟨p, hp, u, e, hd, h⟩
  · obtain rfl := Host.Outcome.next.inj (h.symm.trans hx)
    rw [respond_env, begin_env] at hm
    omega
  · obtain rfl := Host.Outcome.next.inj (h.symm.trans hx)
    obtain ⟨hbus, htaken⟩ := doSteps_made (commandOf_shaped i) (s := { s.begin i.opcode with acc := p }) (n := k) hf
      (by rw [hd]; exact hm)
    refine ⟨?_, exec_busFault hp hbus hx⟩
    rw [hd] at htaken
    exact htaken

/-- Settles O41: the named commands reach every transaction unless one fails, and in every command a failed one is the
last. -/
theorem failedTransactionIsReported : Obligations.FailedTransactionIsReported := by
  intro i s t hx
  refine ⟨fun hi ⟨k, hk, hf⟩ => ?_, fun k => exec_made_failed hx⟩
  obtain ⟨⟨p, hp⟩, hlast, hrst⟩ := start_ok_and_lastOnly hi
  rw [exec_fails hp hlast hk hf hx, if_neg hrst]

end Sys2Proof.Machine
end

section
/-! PROOFS. The encoding (30_encoding.md R100 to R110): the decoder follows the opcode map, it and the encoder are inverse to
each other, and an illegal word is answered without a transaction. -/

namespace Sys2Proof

/-! ### The rows of the opcode map (R104) -/

/-- No two rows share an opcode: the search by a row's opcode finds that row. -/
theorem rowOf_opcode {r : Row} (hr : r ∈ opcodeMap) : rowOf r.opcode = some r := by
  fin_cases hr <;> rfl

/-- The column Match has the row's opcode in its top byte, and the column Mask covers that byte. -/
theorem row_columns {r : Row} (hr : r ∈ opcodeMap) :
    opcodeOf r.pattern = r.opcode ∧ opcodeOf r.mask = BitVec.allOnes 8 := by
  fin_cases hr <;> decide

theorem opcodeOf_and (v w : Word) : opcodeOf (v &&& w) = opcodeOf v &&& opcodeOf w := by
  simp only [opcodeOf, BitVec.extractLsb'_and]

/-- A word that selects a row has the row's opcode. -/
theorem opcode_of_selects {w : Word} {r : Row} (hr : r ∈ opcodeMap) (hw : w &&& r.mask = r.pattern) :
    r.opcode = opcodeOf w := by
  obtain ⟨hpattern, hmask⟩ := row_columns hr
  rw [← hpattern, ← hw, opcodeOf_and, hmask, BitVec.and_allOnes]

/-! ### The three outcomes of decoding (R105, R108) -/

theorem decode_of_opcode {w : Word} {r : Row} (hr : r ∈ opcodeMap) (ho : r.opcode = opcodeOf w) :
    decode w = if w &&& r.mask = r.pattern then .ok (r.operands (payloadOf w)) else .error .badMbz := by
  rw [decode, ← ho, rowOf_opcode hr]

/-- Everything `decode` can answer: no row has the word's opcode, or one has it and its mask decides. -/
theorem decode_cases (w : Word) :
    (decode w = .error .badOpcode ∧ ∀ r ∈ opcodeMap, r.opcode ≠ opcodeOf w) ∨
    ∃ r ∈ opcodeMap, r.opcode = opcodeOf w ∧
      ((w &&& r.mask = r.pattern ∧ decode w = .ok (r.operands (payloadOf w))) ∨
        (w &&& r.mask ≠ r.pattern ∧ decode w = .error .badMbz)) := by
  rcases rowOf_cases (opcodeOf w) with ⟨hnone, hall⟩ | ⟨r, hr, -, ho⟩
  · exact .inl ⟨by rw [decode, hnone], hall⟩
  · refine .inr ⟨r, hr, ho, ?_⟩
    rw [decode_of_opcode hr ho]
    by_cases hm : w &&& r.mask = r.pattern
    · exact .inl ⟨hm, if_pos hm⟩
    · exact .inr ⟨hm, if_neg hm⟩

theorem decode_eq_ok_iff {w : Word} {i : Instr} :
    decode w = .ok i ↔ ∃ r ∈ opcodeMap, w &&& r.mask = r.pattern ∧ r.operands (payloadOf w) = i := by
  constructor
  · intro h
    rcases decode_cases w with ⟨hd, -⟩ | ⟨r, hr, -, ⟨hm, hd⟩ | ⟨-, hd⟩⟩
    · cases hd.symm.trans h
    · exact ⟨r, hr, hm, Except.ok.inj (hd.symm.trans h)⟩
    · cases hd.symm.trans h
  · rintro ⟨r, hr, hm, rfl⟩
    rw [decode_of_opcode hr (opcode_of_selects hr hm), if_pos hm]

theorem decode_eq_badOpcode_iff {w : Word} :
    decode w = .error .badOpcode ↔ ∀ r ∈ opcodeMap, opcodeOf w ≠ r.opcode := by
  constructor
  · intro h r hr ho
    rw [decode_of_opcode hr ho.symm] at h
    split_ifs at h
    cases h
  · intro h
    rcases decode_cases w with ⟨hd, -⟩ | ⟨r, hr, ho, -⟩
    · exact hd
    · exact absurd ho.symm (h r hr)

theorem decode_eq_badMbz_iff {w : Word} :
    decode w = .error .badMbz ↔ ∃ r ∈ opcodeMap, opcodeOf w = r.opcode ∧ w &&& r.mask ≠ r.pattern := by
  constructor
  · intro h
    rcases decode_cases w with ⟨hd, -⟩ | ⟨r, hr, ho, ⟨-, hd⟩ | ⟨hm, -⟩⟩
    · cases hd.symm.trans h
    · cases hd.symm.trans h
    · exact ⟨r, hr, ho.symm, hm⟩
  · rintro ⟨r, hr, ho, hm⟩
    rw [decode_of_opcode hr ho.symm, if_neg hm]

/-- A word decodes exactly if it selects a row of the opcode map. -/
theorem decodes_iff_selects {w : Word} : (∃ i, decode w = .ok i) ↔ ∃ r ∈ opcodeMap, w &&& r.mask = r.pattern := by
  constructor
  · rintro ⟨i, hi⟩
    obtain ⟨r, hr, hm, -⟩ := decode_eq_ok_iff.mp hi
    exact ⟨r, hr, hm⟩
  · rintro ⟨r, hr, hm⟩
    exact ⟨_, decode_eq_ok_iff.mpr ⟨r, hr, hm, rfl⟩⟩

/-- The columns Match and Mask of the opcode map. -/
def matchMaskColumns : List (Word × Word) := opcodeMap.map fun r => (r.pattern, r.mask)

/-- The top byte of a Match is the row's opcode, so that the two columns alone say how each word decodes. -/
theorem decode_follows_columns (w : Word) :
    ((∃ i, decode w = .ok i) ↔ ∃ r ∈ matchMaskColumns, w &&& r.2 = r.1) ∧
    (decode w = .error .badOpcode ↔ ∀ r ∈ matchMaskColumns, opcodeOf w ≠ opcodeOf r.1) ∧
    (decode w = .error .badMbz ↔ ∃ r ∈ matchMaskColumns, opcodeOf w = opcodeOf r.1 ∧ w &&& r.2 ≠ r.1) := by
  have hop : ∀ r ∈ opcodeMap, opcodeOf r.pattern = r.opcode := fun r hr => (row_columns hr).1
  simp only [matchMaskColumns, List.mem_map, exists_exists_and_eq_and, forall_exists_index, and_imp,
    forall_apply_eq_imp_iff₂]
  refine ⟨decodes_iff_selects, ?_, ?_⟩
  · rw [decode_eq_badOpcode_iff]
    exact forall₂_congr fun r hr => by rw [hop r hr]
  · rw [decode_eq_badMbz_iff]
    exact exists_congr fun r => and_congr_right fun hr => by rw [hop r hr]

/-- Settles O28: the statement's list is the columns Match and Mask of the opcode map. -/
theorem decodeFollowsTheOpcodeMap : Obligations.DecodeFollowsTheOpcodeMap := decode_follows_columns

/-! ### Decoding an encoded command (R106) -/

theorem clockStateOf_payloadS1 (d : ClockState) : clockStateOf (stateBit (payloadS1 d.bit)) = d := by
  cases d <;> rfl

theorem batteryStateOf_payloadS1 (b : BatteryState) : batteryStateOf (stateBit (payloadS1 b.bit)) = b := by
  cases b <;> rfl

theorem toNat_value16_payloadV16 {v : Nat} (h : fitsU16 v = true) :
    (value16 (payloadV16 (BitVec.ofNat 16 v))).toNat = v := by
  rw [value16_v16, BitVec.toNat_ofNat, Nat.mod_eq_of_lt (of_decide_eq_true h)]

theorem toInt_value16_payloadV16 {t : Int} (h : fitsT16 t = true) : (value16 (payloadV16 (t16Bits t))).toInt = t := by
  rw [value16_v16, toInt_t16 t h]

/-- The row of a well-formed command reads the command's operands back from its payload. -/
theorem operands_payload : ∀ {i : Instr}, i.wellFormed = true →
    (rowOf i.opcode).map (fun r => r.operands i.payload) = some i
  | .bcdEnc _, h => congrArg (fun x => some (Instr.bcdEnc x)) (toNat_value16_payloadV16 h)
  | .bcdDec b, _ => congrArg (fun x => some (Instr.bcdDec x)) (lowByte_b8 b)
  | .tempDec hi lo, _ => congrArg₂ (fun x y => some (Instr.tempDec x y)) (highByte_hl hi lo) (lowByte_hl hi lo)
  | .tempEnc _, h => congrArg (fun x => some (Instr.tempEnc x)) (toInt_value16_payloadV16 h)
  | .rtcGclk, _ => rfl
  | .rtcSclk d, _ => congrArg (fun x => some (Instr.rtcSclk x)) (clockStateOf_payloadS1 d)
  | .rtcGbat, _ => rfl
  | .rtcSbat b, _ => congrArg (fun x => some (Instr.rtcSbat x)) (batteryStateOf_payloadS1 b)
  | .rtcGdt, _ => rfl
  | .rtcSdt dt, h => congrArg (fun x => some (Instr.rtcSdt x)) (dateTimeOf_dt dt h)
  | .rtcRst, _ => rfl
  | .tmpGamb, _ => rfl
  | .tmpGupr, _ => rfl
  | .tmpSupr _, h => congrArg (fun x => some (Instr.tmpSupr x)) (toInt_value16_payloadV16 h)
  | .tmpGlwr, _ => rfl
  | .tmpSlwr _, h => congrArg (fun x => some (Instr.tmpSlwr x)) (toInt_value16_payloadV16 h)
  | .tmpGcrt, _ => rfl
  | .tmpScrt _, h => congrArg (fun x => some (Instr.tmpScrt x)) (toInt_value16_payloadV16 h)

/-- Settles O29: the command's word selects its own row, and the row reads its operands back. -/
theorem decodeInvertsEncode : Obligations.DecodeInvertsEncode := by
  intro i hw
  obtain ⟨r, hr, hd⟩ := decode_ok i
  have hop := operands_payload hw
  rw [hr, Option.map_some, Option.some.injEq] at hop
  rw [hd, hop]

/-! ### Encoding a decoded command (R101) -/

/-- The operands of `i` fit their fields, and laid out again in them they make the payload of `w`. -/
def Recovers (w : Word) (i : Instr) : Prop := i.wellFormed = true ∧ i.payload = payloadOf w

section Formats

variable {w p : Word} (hp : p.extractLsb' 0 56 = 0)
include hp

/-- A T16 operand of format V16. -/
theorem t16_recovers (hw : w &&& 0xFFFFFFFFFFFF0000 = p) :
    fitsT16 (value16 (payloadOf w)).toInt = true ∧
      payloadV16 (t16Bits (value16 (payloadOf w)).toInt) = payloadOf w := by
  obtain ⟨hbits, hfits⟩ := t16_toInt (value16 (payloadOf w))
  exact ⟨hfits, by rw [hbits]; exact (payload_v16 hw hp).symm⟩

/-- The unsigned operand of format V16. -/
theorem u16_recovers (hw : w &&& 0xFFFFFFFFFFFF0000 = p) :
    fitsU16 (value16 (payloadOf w)).toNat = true ∧
      payloadV16 (BitVec.ofNat 16 (value16 (payloadOf w)).toNat) = payloadOf w :=
  ⟨decide_eq_true (value16 (payloadOf w)).isLt, by
    rw [BitVec.ofNat_toNat, BitVec.setWidth_eq]; exact (payload_v16 hw hp).symm⟩

theorem payloadHL_recovers (hw : w &&& 0xFFFFFFFFFFFF0000 = p) :
    payloadHL (highByte (payloadOf w)) (lowByte (payloadOf w)) = payloadOf w :=
  (v16_hl _).trans (payload_v16 hw hp).symm

theorem clockState_recovers (hw : w &&& 0xFFFFFFFFFFFFFFFE = p) :
    payloadS1 (clockStateOf (stateBit (payloadOf w))).bit = payloadOf w := by
  have hbit : ∀ b, (clockStateOf b).bit = b := by decide
  rw [hbit]; exact (payload_s1 hw hp).symm

theorem batteryState_recovers (hw : w &&& 0xFFFFFFFFFFFFFFFE = p) :
    payloadS1 (batteryStateOf (stateBit (payloadOf w))).bit = payloadOf w := by
  have hbit : ∀ b, (batteryStateOf b).bit = b := by decide
  rw [hbit]; exact (payload_s1 hw hp).symm

end Formats

/-- Each row reads from a word that selects it operands that recover the word's payload: by the row's format, since the mask
holds every bit that is no operand. The cases stand in the order of the rows of R104. -/
theorem row_recovers {w : Word} {r : Row} (hr : r ∈ opcodeMap) (hw : w &&& r.mask = r.pattern) :
    Recovers w (r.operands (payloadOf w)) := by
  fin_cases hr
  · exact u16_recovers rfl hw
  · exact ⟨rfl, (payload_b8 hw rfl).symm⟩
  · exact ⟨rfl, payloadHL_recovers rfl hw⟩
  · exact t16_recovers rfl hw
  · exact ⟨rfl, (payload_n hw rfl).symm⟩
  · exact ⟨rfl, clockState_recovers rfl hw⟩
  · exact ⟨rfl, (payload_n hw rfl).symm⟩
  · exact ⟨rfl, batteryState_recovers rfl hw⟩
  · exact ⟨rfl, (payload_n hw rfl).symm⟩
  · exact And.comm.mp (dt_dateTimeOf (payloadOf w))
  · exact ⟨rfl, (payload_n hw rfl).symm⟩
  · exact ⟨rfl, (payload_n hw rfl).symm⟩
  · exact ⟨rfl, (payload_n hw rfl).symm⟩
  · exact t16_recovers rfl hw
  · exact ⟨rfl, (payload_n hw rfl).symm⟩
  · exact t16_recovers rfl hw
  · exact ⟨rfl, (payload_n hw rfl).symm⟩
  · exact t16_recovers rfl hw

/-- Settles O30: the row's operands recover the payload, the decoded command has the word's opcode, and the two make up the
word. -/
theorem encodeInvertsDecode : Obligations.EncodeInvertsDecode := by
  intro w i h
  obtain ⟨r, hr, hm, rfl⟩ := decode_eq_ok_iff.mp h
  obtain ⟨hfits, hpayload⟩ := row_recovers hr hm
  refine ⟨hfits, ?_⟩
  rw [encode, Machine.decode_opcode h, hpayload, word_split]

/-! ### Worked encodings (R110) -/

/-- Settles O27, by decoding the sixteen words. -/
theorem workedEncodingsDecode : Obligations.WorkedEncodingsDecode := by
  unfold Obligations.WorkedEncodingsDecode
  decide

end Sys2Proof

namespace Sys2Proof.Machine

/-! ### Illegal words and the next state (R105) -/

/-- The response to an illegal word (60_exceptions.md R205). -/
theorem errResponse_illegal (d : IllegalDetail) :
    errResponse (.illegal d) = if d = .badOpcode then 0x0500000000000001 else 0x0500000000000002 := by
  cases d <;> decide

/-- Settles O32: the call accepts the word and ends at once with the response to an illegal one. -/
theorem illegalWordAnsweredWithoutTransaction : Obligations.IllegalWordAnsweredWithoutTransaction := by
  intro s w l d h hidle hd
  have hb : s.pop.busy = false := (pop_busy s).trans (idle_of_call h hidle)
  rw [step_call h, blockingCall_error hb hd, present_idle hb, pop_of_cons h, abort, errResponse_illegal]
  rfl

/-- Settles O37: every action of the host has a next state. -/
theorem everyStateHasANextState : Obligations.EveryStateHasANextState := by
  intro s
  obtain ⟨t, ht, -, -⟩ := step_frame s
  exact ⟨t, ht⟩

end Sys2Proof.Machine
end

section
/-! PROOFS. The BCD codec (40_bcd_codec.md R130 to R134): the two functions are inverse to each other, and the two commands
answer what their operand gives, without a transaction. -/

namespace Sys2Proof

/-! ### The words of an 8-bit and of a 16-bit operand (30_encoding.md R100, R101) -/

/-- The opcode and the payload stand in different bits of the word. -/
theorem commandWord_eq_or (op : Byte) (p : Payload) : commandWord op p = commandWord op 0 ||| p.setWidth 64 := by
  apply BitVec.eq_of_getLsbD_eq
  intro k hk
  simp only [commandWord, BitVec.getLsbD_or, BitVec.getLsbD_append, BitVec.getLsbD_setWidth]
  by_cases h : k < 56
  · simp [h, hk]
  · simp [h, BitVec.getLsbD_of_ge p k (by omega)]

theorem payloadB8_eq_setWidth (b : Byte) : payloadB8 b = b.setWidth 56 :=
  (BitVec.setWidth_eq_append (by decide)).symm

theorem payloadV16_eq_setWidth (v : BitVec 16) : payloadV16 v = v.setWidth 56 :=
  (BitVec.setWidth_eq_append (by decide)).symm

theorem commandWord_payloadB8 (op b : Byte) : commandWord op (payloadB8 b) = commandWord op 0 ||| b.setWidth 64 := by
  rw [commandWord_eq_or, payloadB8_eq_setWidth, BitVec.setWidth_setWidth (by decide)]

theorem commandWord_payloadV16 (op : Byte) (v : BitVec 16) :
    commandWord op (payloadV16 v) = commandWord op 0 ||| v.setWidth 64 := by
  rw [commandWord_eq_or, payloadV16_eq_setWidth, BitVec.setWidth_setWidth (by decide)]

theorem encode_bcdEnc {v : Nat} (h : v < 65536) : encode (.bcdEnc v) = 0x0100000000000000 ||| BitVec.ofNat 64 v := by
  rw [← BitVec.setWidth_ofNat_of_le_of_lt (w := 16) (by decide) h]
  exact commandWord_payloadV16 0x01 (BitVec.ofNat 16 v)

theorem encode_bcdDec (b : Byte) : encode (.bcdDec b) = 0x0200000000000000 ||| b.setWidth 64 :=
  commandWord_payloadB8 0x02 b

end Sys2Proof

namespace Sys2Proof.Machine

/-! ### The two functions in the digits of a number (R130, R131) -/

theorem bcdByte_eq (v : Nat) : bcdByte v = BitVec.ofNat 8 (v / 10 * 16 + v % 10) := by
  have hones : v % 10 < 2 ^ 4 := by omega
  rw [bcdByte, ← Nat.shiftLeft_add_eq_or_of_lt hones, Nat.shiftLeft_eq]

theorem toNat_highNibble (b : Byte) : (b >>> 4).toNat = b.toNat / 16 := by
  rw [BitVec.toNat_ushiftRight, Nat.shiftRight_eq_div_pow]

theorem toNat_lowNibble (b : Byte) : (b &&& 0x0F).toNat = b.toNat % 16 := by
  rw [BitVec.toNat_and]
  exact Nat.and_two_pow_sub_one_eq_mod b.toNat 4

theorem isBcd_iff (b : Byte) : isBcd b = true ↔ b.toNat / 16 ≤ 9 ∧ b.toNat % 16 ≤ 9 := by
  simp only [isBcd, toNat_highNibble, toNat_lowNibble, Bool.and_eq_true, decide_eq_true_eq]

theorem bcdValue_eq (b : Byte) : bcdValue b = b.toNat / 16 * 10 + b.toNat % 16 := by
  rw [bcdValue, toNat_highNibble, toNat_lowNibble]

/-- The low nibble is the ones digit of the value, since it is at most 9. -/
theorem bcdByte_bcdValue {b : Byte} (h : isBcd b = true) : bcdByte (bcdValue b) = b := by
  obtain ⟨-, hlow⟩ := (isBcd_iff b).mp h
  have hdigits : bcdValue b / 10 * 16 + bcdValue b % 10 = b.toNat := by rw [bcdValue_eq]; omega
  rw [bcdByte_eq, hdigits, BitVec.ofNat_toNat, BitVec.setWidth_eq]

theorem bcdEncode_ok {v : Nat} (h : v ≤ 99) : bcdEncode v = .ok (bcdByte v) := if_neg (by omega)

theorem bcdEncode_error {v : Nat} (h : ¬ v ≤ 99) : bcdEncode v = .error (.range .bcdValue) := if_pos (by omega)

theorem bcdDecode_ok {b : Byte} (k : FormatDetail) (h : isBcd b = true) : bcdDecode k b = .ok (bcdValue b) := if_pos h

theorem bcdDecode_error {b : Byte} (k : FormatDetail) (h : ¬ isBcd b = true) : bcdDecode k b = .error (.format k) :=
  if_neg h

/-- Settles O3: the byte of a value at most 99 is BCD and has that value, and a BCD byte is the byte of its value. -/
theorem bcdCodecsAreInverse : Obligations.BcdCodecsAreInverse := by
  refine ⟨fun v hv => ⟨bcdByte v, bcdEncode_ok hv, ?_⟩, fun b hhigh hlow => ?_⟩
  · rw [bcdDecode_ok _ (isBcd_bcdByte hv), bcdValue_bcdByte hv]
  · have hb : isBcd b = true := (isBcd_iff b).mpr ⟨hhigh, hlow⟩
    exact ⟨bcdValue b, bcdDecode_ok _ hb, by rw [bcdEncode_ok (bcdValue_le hb), bcdByte_bcdValue hb]⟩

/-! ### Commands without a transaction -/

/-- The response of a command that has no steps, from what its operand check gives. -/
def startResponse : Except Err Payload → Word
  | .ok p => okResponse p
  | .error e => errResponse e

/-- A command without steps answers what its operand check gives; nothing else changes but the hidden `ACC`. -/
theorem exec_of_steps_nil {i : Instr} (hi : (commandOf i).steps = []) (s : State) :
    ∃ a, exec i s = .next { s with
      rsp := startResponse ((commandOf i).start s.cfg)
      busy := false
      seq := .idle
      acc := a } := by
  rcases exec_cases i s with ⟨e, hstart, -, hx⟩ | ⟨p, hstart, t, e, hd, hx⟩
  · exact ⟨s.acc, by rw [hx, hstart]; rfl⟩
  · rw [hi] at hd
    obtain ⟨rfl, rfl⟩ := Prod.mk.inj hd
    exact ⟨p, by rw [hx, hstart]; rfl⟩

/-- The status `OK` is zero, so that a one-byte result is the whole response (30_encoding.md R102). -/
theorem okResponse_payloadB8 (b : Byte) : okResponse (payloadB8 b) = b.setWidth 64 := by
  refine (commandWord_payloadB8 0x00 b).trans ?_
  rw [show commandWord 0x00 0 = 0#64 by decide, BitVec.zero_or]

theorem okResponse_ofNat {n : Nat} (h : n < 256) : okResponse (payloadB8 (BitVec.ofNat 8 n)) = BitVec.ofNat 64 n := by
  rw [okResponse_payloadB8, BitVec.setWidth_ofNat_of_le_of_lt (by decide) h]

/-! ### BCD.ENC and BCD.DEC (R133, R134) -/

theorem startResponse_bcdEnc (v : Nat) (c : Config) : startResponse ((bcdEnc v).start c) =
    if v ≤ 99 then BitVec.ofNat 64 (v / 10 * 16 + v % 10) else 0x0100000000000001 := by
  by_cases h : v ≤ 99
  · simp only [bcdEnc, bcdEncode_ok h, startResponse, if_pos h]
    rw [bcdByte_eq, okResponse_ofNat (by omega)]
  · simp only [bcdEnc, bcdEncode_error h, startResponse, if_neg h]
    decide

theorem startResponse_bcdDec (b : Byte) (c : Config) : startResponse ((bcdDec b).start c) =
    if b.toNat / 16 ≤ 9 ∧ b.toNat % 16 ≤ 9 then BitVec.ofNat 64 (b.toNat / 16 * 10 + b.toNat % 16)
    else 0x0200000000000001 := by
  rw [← bcdValue_eq]
  by_cases h : isBcd b = true
  · have hvalue : bcdValue b < 256 := lt_of_le_of_lt (bcdValue_le h) (by decide)
    simp only [bcdDec, bcdDecode_ok _ h, startResponse, if_pos ((isBcd_iff b).mp h)]
    exact okResponse_ofNat hvalue
  · simp only [bcdDec, bcdDecode_error _ h, startResponse, if_neg (mt (isBcd_iff b).mpr h)]
    decide

/-- Settles O1: the word is the command's encoding, and BCD.ENC has no steps. -/
theorem bcdEncAnswersPackedByteOrRangeError : Obligations.BcdEncAnswersPackedByteOrRangeError := by
  intro s v
  refine ⟨fun hv => ?_, ?_⟩
  · rw [← encode_bcdEnc hv]
    exact decodeInvertsEncode _ (decide_eq_true hv)
  · rw [← startResponse_bcdEnc v s.cfg]
    exact exec_of_steps_nil (i := .bcdEnc v) rfl s

/-- Settles O2: the word is the command's encoding, and BCD.DEC has no steps. -/
theorem bcdDecAnswersValueOrFormatError : Obligations.BcdDecAnswersValueOrFormatError := by
  intro s b
  refine ⟨?_, ?_⟩
  · rw [← encode_bcdDec b]
    exact decodeInvertsEncode _ rfl
  · rw [← startResponse_bcdDec b s.cfg]
    exact exec_of_steps_nil (i := .bcdDec b) rfl s

end Sys2Proof.Machine
end

section
/-! PROOFS. The temperature codec (41_temperature_codec.md R140 to R146): decoding reads a 13-bit two's complement word, the
two functions are inverse to each other, and the two commands answer what their operand gives, without a transaction. -/

namespace Sys2Proof

/-! ### The words of the two commands (30_encoding.md R100, R101) -/

theorem encode_tempDec (hi lo : Byte) : encode (.tempDec hi lo) = 0x1100000000000000 ||| (hi ++ lo).setWidth 64 :=
  (congrArg (commandWord 0x11) (Laws.EncodesRow.payloadHL_eq hi lo)).trans (commandWord_payloadV16 0x11 (hi ++ lo))

theorem encode_tempEnc_toInt (v : BitVec 16) : encode (.tempEnc v.toInt) = 0x1200000000000000 ||| v.setWidth 64 :=
  (congrArg (fun b => commandWord 0x12 (payloadV16 b)) (t16_toInt v).1).trans (commandWord_payloadV16 0x12 v)

end Sys2Proof

namespace Sys2Proof.Machine

/-! ### The 13-bit word of two bytes (R140) -/

/-- A byte is appended as the low digit to the base 256. -/
theorem toNat_append_byte {n : Nat} (x : BitVec n) (y : Byte) : (x ++ y).toNat = x.toNat * 256 + y.toNat := by
  rw [BitVec.toNat_append, ← Nat.shiftLeft_add_eq_or_of_lt y.isLt, Nat.shiftLeft_eq]

/-- The word two bytes of a temperature pair hold: bits 7:5 of the high byte are no part of it. -/
def tempField (h l : Byte) : BitVec 13 := h.extractLsb' 0 5 ++ l

theorem toNat_tempField (h l : Byte) : (tempField h l).toNat = h.toNat % 32 * 256 + l.toNat := by
  rw [tempField, toNat_append_byte, BitVec.extractLsb'_toNat, Nat.shiftRight_zero]

theorem toNat_lowFive (h : Byte) : (h &&& 0x1F).toNat = h.toNat % 32 := by
  rw [BitVec.toNat_and]
  exact Nat.and_two_pow_sub_one_eq_mod h.toNat 5

/-- The sign bit of the word. -/
theorem getLsbD_lowFive (h : Byte) : (h &&& 0x1F).getLsbD 4 = decide (h.toNat / 16 % 2 = 1) := by
  rw [← BitVec.testBit_toNat, Nat.testBit_eq_decide_div_mod_eq, toNat_lowFive]
  exact decide_eq_decide.mpr (by omega)

/-- `TempDecode` is the signed value of the word (R141): with the sign set, the mask `0x0F` drops 16 * 256 from
the unsigned value, and taking away 4096 more makes the 8192 of two's complement. -/
theorem tempDecode_eq_toInt (h l : Byte) : tempDecode h l = (tempField h l).toInt := by
  have hl := l.isLt
  rw [BitVec.toInt_eq_toNat_cond, toNat_tempField, tempDecode, getLsbD_lowFive, toNat_lowFive, toNat_lowNibble]
  by_cases hsign : h.toNat / 16 % 2 = 1
  · rw [if_pos (decide_eq_true hsign), if_neg (by omega)]
    omega
  · rw [if_neg (mt of_decide_eq_true hsign), if_pos (by omega)]
    omega

/-! ### The two bytes of a temperature (R142) -/

theorem tempWord_eq_toNat (t : Int) : tempWord t = (BitVec.ofInt 13 t).toNat := by
  rw [BitVec.toNat_ofInt]
  rfl

theorem tempWord_lt (t : Int) : tempWord t < 8192 := tempWord_eq_toNat t ▸ (BitVec.ofInt 13 t).isLt

theorem toNat_tempHigh (t : Int) : (tempHigh t).toNat = tempWord t / 256 := by
  have hlt := tempWord_lt t
  rw [tempHigh, BitVec.toNat_ofNat, Nat.shiftRight_eq_div_pow]
  omega

theorem toNat_tempLow (t : Int) : (tempLow t).toNat = tempWord t % 256 := by
  have hmask : tempWord t &&& 0xFF = tempWord t % 256 := Nat.and_two_pow_sub_one_eq_mod _ 8
  rw [tempLow, BitVec.toNat_ofNat, hmask, Nat.mod_mod]

theorem tempField_high_low (t : Int) : tempField (tempHigh t) (tempLow t) = BitVec.ofInt 13 t := by
  have hlt := tempWord_lt t
  apply BitVec.eq_of_toNat_eq
  rw [toNat_tempField, toNat_tempHigh, toNat_tempLow, ← tempWord_eq_toNat]
  omega

/-- Bits 7:5 of the high byte are zero. -/
theorem tempHigh_append_tempLow (t : Int) : tempHigh t ++ tempLow t = (BitVec.ofInt 13 t).setWidth 16 := by
  have hlt := tempWord_lt t
  apply BitVec.eq_of_toNat_eq
  rw [toNat_append_byte, toNat_tempHigh, toNat_tempLow, BitVec.toNat_setWidth, ← tempWord_eq_toNat]
  omega

/-! ### The two functions are inverse to each other (R144) -/

theorem tempEncode_ok {c : Config} {t : Int} (hmin : c.tempMin16 ≤ t) (hmax : t ≤ c.tempMax16) :
    tempEncode c t = .ok (tempHigh t, tempLow t) := if_neg (by omega)

theorem tempEncode_error {c : Config} {t : Int} (h : ¬ (c.tempMin16 ≤ t ∧ t ≤ c.tempMax16)) :
    tempEncode c t = .error (.range .tempValue) := if_pos (by omega)

/-- A legal range lies within the 13 bits of the word. -/
theorem tempDecode_high_low {c : Config} {t : Int} (hc : c.Legal) (hmin : c.tempMin16 ≤ t) (hmax : t ≤ c.tempMax16) :
    tempDecode (tempHigh t) (tempLow t) = t := by
  obtain ⟨-, -, -, hlow, -, hhigh, -⟩ := hc
  rw [tempDecode_eq_toInt, tempField_high_low, BitVec.toInt_ofInt]
  exact Int.bmod_eq_of_le (by omega) (by omega)

/-- The word of a decoded temperature is the word it was decoded from. -/
theorem tempWord_tempDecode (h l : Byte) : tempWord (tempDecode h l) = h.toNat % 32 * 256 + l.toNat := by
  rw [tempWord_eq_toNat, tempDecode_eq_toInt, BitVec.ofInt_toInt, toNat_tempField]

theorem tempHigh_tempDecode (h l : Byte) : tempHigh (tempDecode h l) = h &&& 0x1F := by
  have hl := l.isLt
  apply BitVec.eq_of_toNat_eq
  rw [toNat_tempHigh, tempWord_tempDecode, toNat_lowFive]
  omega

theorem tempLow_tempDecode (h l : Byte) : tempLow (tempDecode h l) = l := by
  have hl := l.isLt
  apply BitVec.eq_of_toNat_eq
  rw [toNat_tempLow, tempWord_tempDecode]
  omega

/-- Settles O6: the two bytes of a temperature in range decode to it, and the bytes of a decoded temperature are those it was
decoded from, less the ignored bits. -/
theorem tempCodecsAreInverse : Obligations.TempCodecsAreInverse := by
  intro c hc
  refine ⟨fun t hmin hmax => ⟨_, _, tempEncode_ok hmin hmax, ?_⟩, fun h l hmin hmax => ?_⟩
  · exact tempDecode_high_low hc hmin hmax
  · rw [tempEncode_ok hmin hmax, tempHigh_tempDecode, tempLow_tempDecode]

/-! ### TEMP.DEC and TEMP.ENC (R145, R146) -/

/-- The status `OK` is zero, so that a 16-bit result is the whole response (30_encoding.md R102). -/
theorem okResponse_payloadV16 (v : BitVec 16) : okResponse (payloadV16 v) = v.setWidth 64 := by
  refine (commandWord_payloadV16 0x00 v).trans ?_
  rw [show commandWord 0x00 0 = 0#64 by decide, BitVec.zero_or]

theorem t16Bits_tempDecode (h l : Byte) : t16Bits (tempDecode h l) = (tempField h l).signExtend 16 := by
  rw [tempDecode_eq_toInt, t16Bits, BitVec.signExtend]

theorem startResponse_tempDec (hi lo : Byte) (c : Config) :
    startResponse ((tempDec hi lo).start c) = ((tempField hi lo).signExtend 16).setWidth 64 := by
  simp only [tempDec, startResponse, t16Bits_tempDecode, okResponse_payloadV16]

theorem okResponse_high_low (t : Int) :
    okResponse (payloadHL (tempHigh t) (tempLow t)) = (BitVec.ofInt 13 t).setWidth 64 := by
  rw [Laws.EncodesRow.payloadHL_eq, okResponse_payloadV16, tempHigh_append_tempLow, BitVec.setWidth_setWidth (by decide)]

theorem startResponse_tempEnc (t : Int) (c : Config) : startResponse ((tempEnc t).start c) =
    if c.tempMin16 ≤ t ∧ t ≤ c.tempMax16 then (BitVec.ofInt 13 t).setWidth 64 else 0x0100000000000002 := by
  by_cases h : c.tempMin16 ≤ t ∧ t ≤ c.tempMax16
  · obtain ⟨hmin, hmax⟩ := h
    simp only [tempEnc, tempEncode_ok hmin hmax, startResponse, if_pos (And.intro hmin hmax)]
    exact okResponse_high_low t
  · simp only [tempEnc, tempEncode_error h, startResponse, if_neg h]
    decide

/-- Settles O4: the word is the command's encoding, and TEMP.DEC has no steps. -/
theorem tempDecSignExtendsThirteenBits : Obligations.TempDecSignExtendsThirteenBits := by
  intro s hi lo
  refine ⟨?_, ?_⟩
  · rw [← encode_tempDec hi lo]
    exact decodeInvertsEncode _ rfl
  · rw [← tempField, ← startResponse_tempDec hi lo s.cfg]
    exact exec_of_steps_nil (i := .tempDec hi lo) rfl s

/-- Settles O5: the word is the command's encoding, and TEMP.ENC has no steps. -/
theorem tempEncAnswersThirteenBitsOrRangeError : Obligations.TempEncAnswersThirteenBitsOrRangeError := by
  intro s
  refine ⟨fun v => ?_, fun t => ?_⟩
  · rw [← encode_tempEnc_toInt v]
    exact decodeInvertsEncode _ (t16_toInt v).2
  · rw [← startResponse_tempEnc t s.cfg]
    exact exec_of_steps_nil (i := .tempEnc t) rfl s

end Sys2Proof.Machine
end

section
/-! PROOFS. The registers under the steps of a command: the gap before a transaction, the state each step leaves where its
transaction does not fail, and a field write told from the state before it (20_memory.md R63, R68, R70, R73; 60_exceptions.md
R216 to R220). -/

namespace Sys2Proof.Machine

/-! ### Time between two states -/

/-- The registers of `t` are those of `s` after some ticks of the device; `Aged` without its claim on the block's own
registers and on the draws, so that a step of the sequencer may lie between. -/
structure Drifted (s t : State) : Prop where
  cfg : t.cfg = s.cfg
  /-- Nothing outside the six time registers changes. -/
  outside : ∀ a, a ∉ timeKeys s.cfg → t.mem.read a = s.mem.read a
  /-- Preserved bits are kept, `OSC_EN` among them. -/
  kept : ∀ r, t.rtc r &&& preservedMask r = s.rtc r &&& preservedMask r
  /-- A well-formed seconds field stays well formed. -/
  second : fieldWithin .second (s.rtc .sec) 0 59 = true → fieldWithin .second (t.rtc .sec) 0 59 = true
  /-- A stopped clock does not change. -/
  stopped : s.oscEn = false → t.mem = s.mem

theorem Aged.drifted {s t : State} (h : Aged s t) : Drifted s t := ⟨h.cfg, h.outside, h.kept, h.second, h.stopped⟩

theorem Drifted.of_mem {s t : State} (hm : t.mem = s.mem) (hc : t.cfg = s.cfg) : Drifted s t where
  cfg := hc
  outside := fun _ _ => by rw [hm]
  kept := fun r => by rw [rtc_congr hm hc]
  second := fun h => by rw [rtc_congr hm hc]; exact h
  stopped := fun _ => hm

theorem Drifted.osc {s t : State} (h : Drifted s t) : t.oscEn = s.oscEn := bit7_eq_of_and (h.kept .sec)

theorem Drifted.trans {s t u : State} (h : Drifted s t) (g : Drifted t u) : Drifted s u where
  cfg := g.cfg.trans h.cfg
  outside := fun a ha => (g.outside a (by rw [h.cfg]; exact ha)).trans (h.outside a ha)
  kept := fun r => (g.kept r).trans (h.kept r)
  second := g.second ∘ h.second
  stopped := fun hs => (g.stopped (h.osc.trans hs)).trans (h.stopped hs)

theorem noFailure_zero (s : State) : s.NoFailure 0 := fun _ h => absurd h (Nat.not_lt_zero _)

theorem noFailure_succ {s : State} {n : Nat} (h : s.NoFailure n) (hn : (s.busDraw n).fails = false) :
    s.NoFailure (n + 1) := Nat.forall_lt_succ_right.mpr ⟨h, hn⟩

/-- The weekday register is no time register. -/
theorem Drifted.wkday {s t : State} (h : Drifted s t) (hc : s.cfg.Legal) : t.rtc .wkday = s.rtc .wkday := by
  rw [State.rtc, h.cfg]
  exact h.outside _ (wkday_not_timeKey hc)

theorem drifted_gap {s : State} (hc : s.cfg.Legal) (hf : (s.busDraw 0).foreign = []) : Drifted s s.gap :=
  (aged_gap hc hf).drifted

theorem drifted_settle {s : State} (hc : s.cfg.Legal) (hf : (s.settleDraw 0).foreign = []) : Drifted s s.settle := by
  obtain ⟨t, ha, ht, -⟩ := settle_spec hc hf
  rw [ht]
  exact ha.drifted.trans (.of_mem rfl rfl)

/-- No tick falls in the next `n` gaps: the clock is stopped, or the draws have none. -/
abbrev State.Still (n : Nat) (s : State) : Prop := s.oscEn = false ∨ s.NoGapTick 0 n

theorem State.Still.gap {s : State} {n : Nat} (h : s.Still n) (hn : 0 < n) (hf : (s.busDraw 0).foreign = []) :
    s.gap = s :=
  gap_still (h.imp_right fun hg => hg 0 hn (Nat.le_refl 0)) hf

/-! ### The gap before a transaction, on every configuration and in every environment -/

section Gap
variable (s : State)

@[simp] theorem gap_cfg : s.gap.cfg = s.cfg := (inside_gap s).1.cfg
@[simp] theorem gap_bus : s.gap.env.bus = s.env.bus := (inside_gap s).2.1
@[simp] theorem gap_settle : s.gap.env.settle = s.env.settle := (inside_gap s).2.2
@[simp] theorem gap_busDraw (k : Nat) : s.gap.busDraw k = s.busDraw k := busDraw_congr (gap_bus s) k
@[simp] theorem gap_settleDraw (k : Nat) : s.gap.settleDraw k = s.settleDraw k := settleDraw_congr (gap_settle s) k

theorem tick_acc : s.tick.acc = s.acc := by unfold State.tick; split <;> rfl

theorem ticks_acc (k : Nat) : (State.ticks k s).acc = s.acc := by
  induction k generalizing s with
  | zero => rfl
  | succ k ih => exact (ih s.tick).trans (tick_acc s)

@[simp] theorem gap_acc : s.gap.acc = s.acc := ticks_acc s _

@[simp] theorem settle_cfg : s.settle.cfg = s.cfg := (inside_settle s).1.cfg
@[simp] theorem settle_acc : s.settle.acc = s.acc := ticks_acc s _
@[simp] theorem settle_busDraw (k : Nat) : s.settle.busDraw k = s.busDraw k := busDraw_congr (inside_settle s).2.1 k
theorem settle_s1 : s.settle.s1 = s.s1 := congrArg (fun x => x.2.1) (ticks_scratch _ s)

@[simp] theorem advance_busDraw (k : Nat) : s.advance.busDraw k = s.busDraw k := busDraw_congr (by simp) k
@[simp] theorem advance_settleDraw (k : Nat) : s.advance.settleDraw k = s.settleDraw k := settleDraw_congr (by simp) k

end Gap

/-! ### The state a transaction leaves that does not fail -/

/-- After the read half of a read-modify-write. -/
def State.remember (r : RtcReg) (s : State) : State := { s.gap.takeBus with old := s.gap.rtc r }.advance

/-- After the write of a byte. -/
def State.store (r : RtcReg) (b : Byte) (s : State) : State :=
  { s.gap.takeBus with mem := s.gap.mem.write (rtcKey s.cfg r) b }.advance

/-- After the first sample of tick verification. -/
def State.sampleS1 (s : State) : State := { s.gap.takeBus with s1 := secondsSample (s.gap.rtc .sec) }.advance

section Steps
variable (s : State) (r : RtcReg) (b : Byte) (k : Nat)

@[simp] theorem remember_mem : (s.remember r).mem = s.gap.mem := by simp [State.remember]
@[simp] theorem remember_cfg : (s.remember r).cfg = s.cfg := by simp [State.remember]
@[simp] theorem remember_acc : (s.remember r).acc = s.acc := by simp [State.remember, State.takeBus]
@[simp] theorem remember_old : (s.remember r).old = s.gap.rtc r := by simp [State.remember]
@[simp] theorem remember_taken : (s.remember r).env.bus.taken = s.env.bus.taken + 1 := by
  simp [State.remember, State.takeBus, drawNext]
@[simp] theorem remember_settle : (s.remember r).env.settle = s.env.settle := by simp [State.remember]
@[simp] theorem remember_busDraw : (s.remember r).busDraw k = s.busDraw (k + 1) :=
  (advance_busDraw _ k).trans ((takeBus_busDraw s.gap k).trans (gap_busDraw s _))
@[simp] theorem remember_settleDraw : (s.remember r).settleDraw k = s.settleDraw k := settleDraw_congr (by simp) k

@[simp] theorem store_mem : (s.store r b).mem = s.gap.mem.write (rtcKey s.cfg r) b := by simp [State.store]
@[simp] theorem store_cfg : (s.store r b).cfg = s.cfg := by simp [State.store]
@[simp] theorem store_acc : (s.store r b).acc = s.acc := by simp [State.store, State.takeBus]
@[simp] theorem store_taken : (s.store r b).env.bus.taken = s.env.bus.taken + 1 := by
  simp [State.store, State.takeBus, drawNext]
@[simp] theorem store_settle : (s.store r b).env.settle = s.env.settle := by simp [State.store]
@[simp] theorem store_busDraw : (s.store r b).busDraw k = s.busDraw (k + 1) :=
  (advance_busDraw _ k).trans ((takeBus_busDraw s.gap k).trans (gap_busDraw s _))
@[simp] theorem store_settleDraw : (s.store r b).settleDraw k = s.settleDraw k := settleDraw_congr (by simp) k

@[simp] theorem sampleS1_mem : s.sampleS1.mem = s.gap.mem := by simp [State.sampleS1]
@[simp] theorem sampleS1_cfg : s.sampleS1.cfg = s.cfg := by simp [State.sampleS1]
@[simp] theorem sampleS1_acc : s.sampleS1.acc = s.acc := by simp [State.sampleS1, State.takeBus]
@[simp] theorem sampleS1_s1 : s.sampleS1.s1 = secondsSample (s.gap.rtc .sec) := by simp [State.sampleS1]
@[simp] theorem sampleS1_taken : s.sampleS1.env.bus.taken = s.env.bus.taken + 1 := by
  simp [State.sampleS1, State.takeBus, drawNext]
@[simp] theorem sampleS1_settle : s.sampleS1.env.settle = s.env.settle := by simp [State.sampleS1]
@[simp] theorem sampleS1_busDraw : s.sampleS1.busDraw k = s.busDraw (k + 1) :=
  (advance_busDraw _ k).trans ((takeBus_busDraw s.gap k).trans (gap_busDraw s _))
@[simp] theorem sampleS1_settleDraw : s.sampleS1.settleDraw k = s.settleDraw k := settleDraw_congr (by simp) k

@[simp] theorem store_rtc_same : (s.store r b).rtc r = b := by simp [State.rtc]

end Steps

/-! ### The steps themselves -/

section Run
variable {s : State}

theorem readReg_ok (h : (s.busDraw 0).fails = false) (r : RtcReg) (use : Byte → State → StepOut) :
    readReg r use s = use (s.gap.rtc r) s.gap.takeBus := by
  rw [readReg_gap, if_neg (by simp [h])]

theorem readReg_failed (h : (s.busDraw 0).fails = true) (r : RtcReg) (use : Byte → State → StepOut) :
    readReg r use s = (s.gap.takeBus, some busFault) := by
  rw [readReg_gap, if_pos h]

theorem writeReg_ok (h : (s.busDraw 0).fails = false) (r : RtcReg) (b : Byte) :
    writeReg r b s = ({ s.gap.takeBus with mem := s.gap.mem.write (rtcKey s.cfg r) b }, none) := by
  rw [writeReg_gap, if_neg (by simp [h])]

theorem writeReg_failed (h : (s.busDraw 0).fails = true) (r : RtcReg) (b : Byte) :
    writeReg r b s =
      ({ s.gap.takeBus with mem := s.gap.mem.write (rtcKey s.cfg r) (s.busDraw 0).lo }, some busFault) := by
  rw [writeReg_gap, if_pos h]

theorem doSteps_writeReg (h : (s.busDraw 0).fails = false) (r : RtcReg) (b : Byte) (fs : List SeqStep) :
    doSteps (writeReg r b :: fs) s = doSteps fs (s.store r b) := doSteps_ok (writeReg_ok h r b)

theorem doSteps_rmwRead (h : (s.busDraw 0).fails = false) (r : RtcReg) (fs : List SeqStep) :
    doSteps (rmwRead r :: fs) s = doSteps fs (s.remember r) := doSteps_ok (readReg_ok h r _)

theorem doSteps_rmwWrite (h : (s.busDraw 0).fails = false) (r : RtcReg) (m v : Byte) (fs : List SeqStep) :
    doSteps (rmwWrite r m v :: fs) s = doSteps fs (s.store r (mergeBits s.old m v)) :=
  doSteps_writeReg h r _ fs

theorem doSteps_sampleFirst (h : (s.busDraw 0).fails = false) (fs : List SeqStep) :
    doSteps (sampleFirst :: fs) s = doSteps fs s.sampleS1 := doSteps_ok (readReg_ok h .sec _)

theorem doSteps_waitSettle (fs : List SeqStep) : doSteps (waitSettle :: fs) s = doSteps fs s.settle.advance :=
  doSteps_ok rfl

end Run

/-! ### The write of a field -/

/-- Before the write half of a read-modify-write only time has passed, and where no tick falls in the two gaps none has. -/
theorem remember_gap_spec {s : State} (hc : s.cfg.Legal) (hf0 : (s.busDraw 0).foreign = [])
    (hf1 : (s.busDraw 1).foreign = []) (r : RtcReg) :
    Drifted s (s.remember r).gap ∧ (s.Still 2 → (s.remember r).gap.mem = s.mem) := by
  have hread : Drifted s (s.remember r) := (drifted_gap hc hf0).trans (.of_mem (by simp) (by simp))
  have hf : ((s.remember r).busDraw 0).foreign = [] := by simpa using hf1
  refine ⟨hread.trans (drifted_gap (by simpa using hc) hf), fun h => ?_⟩
  have hstill : (s.remember r).Still 1 :=
    h.imp (fun ho => hread.osc.trans ho) fun hg k hk _ => by simpa using hg (k + 1) (by omega) (by omega)
  rw [hstill.gap (by omega) hf, remember_mem, h.gap (by omega) hf0]

/-- The bits of a register a command writes: `WriteField` of this mask and value (20_memory.md R70). -/
structure FieldWrite where
  reg : RtcReg
  mask : Byte
  value : Byte

/-- The steps of field writes, one after the other. -/
def writeSteps (l : List FieldWrite) : List SeqStep := l.flatMap fun w => writeField w.reg w.mask w.value

/-- The transactions of a field write: a whole-byte field has no read half. -/
def FieldWrite.cost (w : FieldWrite) : Nat := if w.mask = 0xFF then 1 else 2

/-- The state a field write leaves where no transaction fails. -/
def State.writeField (s : State) (w : FieldWrite) : State :=
  if w.mask = 0xFF then s.store w.reg w.value
  else (s.remember w.reg).store w.reg (mergeBits (s.gap.rtc w.reg) w.mask w.value)

section Field
variable {s : State} {w : FieldWrite}

theorem writeField_whole (h : w.mask = 0xFF) : s.writeField w = s.store w.reg w.value := if_pos h

theorem writeField_bits (h : w.mask ≠ 0xFF) :
    s.writeField w = (s.remember w.reg).store w.reg (mergeBits (s.gap.rtc w.reg) w.mask w.value) := if_neg h

theorem cost_whole (h : w.mask = 0xFF) : w.cost = 1 := if_pos h
theorem cost_bits (h : w.mask ≠ 0xFF) : w.cost = 2 := if_neg h

theorem doSteps_writeField (h : s.NoFailure w.cost) :
    doSteps (writeField w.reg w.mask w.value) s = (s.writeField w, none) := by
  by_cases hm : w.mask = 0xFF
  · rw [cost_whole hm] at h
    rw [writeField, if_pos hm, writeField_whole hm, doSteps_writeReg (h 0 (by omega)), doSteps_nil]
  · rw [cost_bits hm] at h
    rw [writeField, if_neg hm, rmwBits, writeField_bits hm, doSteps_rmwRead (h 0 (by omega)),
      doSteps_rmwWrite (by simpa using h 1 (by omega)), doSteps_nil, remember_old]

@[simp] theorem writeField_cfg : (s.writeField w).cfg = s.cfg := by unfold State.writeField; split <;> simp
@[simp] theorem writeField_acc : (s.writeField w).acc = s.acc := by unfold State.writeField; split <;> simp
@[simp] theorem writeField_settle : (s.writeField w).env.settle = s.env.settle := by
  unfold State.writeField; split <;> simp
@[simp] theorem writeField_settleDraw (k : Nat) : (s.writeField w).settleDraw k = s.settleDraw k :=
  settleDraw_congr (by simp) k
@[simp] theorem writeField_taken : (s.writeField w).env.bus.taken = s.env.bus.taken + w.cost := by
  unfold State.writeField FieldWrite.cost; split <;> simp
@[simp] theorem writeField_busDraw (k : Nat) : (s.writeField w).busDraw k = s.busDraw (k + w.cost) := by
  unfold State.writeField FieldWrite.cost; split <;> simp

/-- The state just before the byte of a field write is written: only time has passed, and where no tick falls in the gaps
none has. The byte has the bits outside the mask that the register held at the read. -/
theorem writeField_spec (hc : s.cfg.Legal) (hf : ∀ k < w.cost, (s.busDraw k).foreign = []) :
    ∃ t o, Drifted s t ∧ o &&& preservedMask w.reg = s.rtc w.reg &&& preservedMask w.reg ∧
      (s.writeField w).mem = t.mem.write (rtcKey s.cfg w.reg) (mergeBits o w.mask w.value) ∧
      (s.Still w.cost → t.mem = s.mem ∧ o = s.rtc w.reg) := by
  by_cases hm : w.mask = 0xFF
  · rw [cost_whole hm] at hf ⊢
    have hf0 := hf 0 (by omega)
    refine ⟨s.gap, s.rtc w.reg, drifted_gap hc hf0, rfl, ?_, fun h => ⟨by rw [h.gap (by omega) hf0], rfl⟩⟩
    rw [writeField_whole hm, store_mem, hm, mergeBits_full]
  · rw [cost_bits hm] at hf ⊢
    have hf0 := hf 0 (by omega)
    obtain ⟨hdrift, hstill⟩ := remember_gap_spec hc hf0 (hf 1 (by omega)) w.reg
    refine ⟨(s.remember w.reg).gap, s.gap.rtc w.reg, hdrift, (drifted_gap hc hf0).kept _, ?_, fun h => ?_⟩
    · rw [writeField_bits hm, store_mem, remember_cfg]
    · exact ⟨hstill h, by rw [h.gap (by omega) hf0]⟩

/-- A field write keeps the preserved bits of every register, where its own mask leaves them out. -/
theorem writeField_kept (hc : s.cfg.Legal) (hf : ∀ k < w.cost, (s.busDraw k).foreign = []) {r : RtcReg}
    (hm : r = w.reg → preservedMask r &&& w.mask = 0) :
    (s.writeField w).rtc r &&& preservedMask r = s.rtc r &&& preservedMask r := by
  obtain ⟨t, o, ht, ho, hmem, -⟩ := writeField_spec hc hf
  rw [State.rtc, writeField_cfg, hmem]
  by_cases hr : r = w.reg
  · subst hr
    rw [read_write_same, mergeBits_and (hm rfl), ho]
  · rw [read_write_ne _ _ (mt (rtcKey_inj hc).mp hr), ← ht.kept r, State.rtc, ht.cfg]

theorem doSteps_rmwBits (hm : w.mask ≠ 0xFF) (h : s.NoFailure 2) (fs : List SeqStep) :
    doSteps (rmwBits w.reg w.mask w.value ++ fs) s = doSteps fs (s.writeField w) := by
  have hw := doSteps_writeField (w := w) (by rwa [cost_bits hm])
  rw [writeField, if_neg hm] at hw
  exact doSteps_append_ok hw

theorem doSteps_rmwBits_readFails (h : (s.busDraw 0).fails = true) (r : RtcReg) (m v : Byte) (fs : List SeqStep) :
    doSteps (rmwBits r m v ++ fs) s = (s.gap.takeBus, some busFault) :=
  doSteps_raise (readReg_failed h r _)

theorem doSteps_rmwBits_writeFails (h0 : (s.busDraw 0).fails = false) (h1 : (s.busDraw 1).fails = true) (r : RtcReg)
    (m v : Byte) (fs : List SeqStep) :
    doSteps (rmwBits r m v ++ fs) s =
      ({ (s.remember r).gap.takeBus with
        mem := (s.remember r).gap.mem.write (rtcKey s.cfg r) (s.busDraw 1).lo }, some busFault) := by
  rw [rmwBits, List.cons_append, doSteps_rmwRead h0, List.cons_append,
    doSteps_raise (f := rmwWrite r m v) (writeReg_failed (by simpa using h1) r _), remember_cfg, remember_busDraw]

end Field

/-! ### Field writes one after the other -/

/-- A memory with a field write done to it at once. -/
def FieldWrite.apply (c : Config) (m : Memory) (w : FieldWrite) : Memory :=
  m.write (rtcKey c w.reg) (mergeBits (m.read (rtcKey c w.reg)) w.mask w.value)

/-- The transactions of field writes. -/
def writesCost (l : List FieldWrite) : Nat := (l.map FieldWrite.cost).sum

section Fields
variable {s : State} {l : List FieldWrite}

theorem doSteps_writeSteps (h : s.NoFailure (writesCost l)) :
    doSteps (writeSteps l) s = (l.foldl State.writeField s, none) := by
  induction l generalizing s with
  | nil => rfl
  | cons w l ih =>
    simp only [writesCost, List.map_cons, List.sum_cons] at h
    have hw := doSteps_writeField (w := w) fun k hk => h k (by omega)
    have hl : (s.writeField w).NoFailure (writesCost l) := fun k hk => by
      simp only [writesCost] at hk
      simpa using h (k + w.cost) (by omega)
    exact (doSteps_append_ok hw).trans (ih hl)

@[simp] theorem writeFields_cfg : (l.foldl State.writeField s).cfg = s.cfg := by
  induction l generalizing s with
  | nil => rfl
  | cons w l ih => exact ih.trans writeField_cfg

@[simp] theorem writeFields_acc : (l.foldl State.writeField s).acc = s.acc := by
  induction l generalizing s with
  | nil => rfl
  | cons w l ih => exact ih.trans writeField_acc

@[simp] theorem writeFields_settleDraw (k : Nat) : (l.foldl State.writeField s).settleDraw k = s.settleDraw k := by
  induction l generalizing s with
  | nil => rfl
  | cons w l ih => exact ih.trans (writeField_settleDraw k)

@[simp] theorem writeFields_taken :
    (l.foldl State.writeField s).env.bus.taken = s.env.bus.taken + writesCost l := by
  induction l generalizing s with
  | nil => rfl
  | cons w l ih =>
    rw [List.foldl_cons, ih, writeField_taken, writesCost, writesCost, List.map_cons, List.sum_cons, Nat.add_assoc]

@[simp] theorem writeFields_busDraw (k : Nat) :
    (l.foldl State.writeField s).busDraw k = s.busDraw (k + writesCost l) := by
  induction l generalizing s with
  | nil => rfl
  | cons w l ih =>
    rw [List.foldl_cons, ih, writeField_busDraw, writesCost, writesCost, List.map_cons, List.sum_cons]
    congr 1
    omega

/-- A field write that does not set `OSC_EN` leaves the clock as still as it was. -/
theorem State.Still.writeField {w : FieldWrite} {n : Nat} (h : s.Still (w.cost + n)) (hc : s.cfg.Legal)
    (hf : ∀ k < w.cost, (s.busDraw k).foreign = []) (hw : w.reg = .sec → (w.value &&& w.mask).getLsbD 7 = false) :
    (s.writeField w).Still n := by
  refine h.imp (fun ho => ?_) fun hg k hk _ => by simpa using hg (k + w.cost) (by omega) (by omega)
  obtain ⟨t, o, -, -, hmem, hstill⟩ := writeField_spec hc hf
  obtain ⟨ht, rfl⟩ := hstill (.inl ho)
  rw [State.oscEn, State.rtc, writeField_cfg, hmem, ht]
  by_cases hr : w.reg = .sec
  · have ho7 : (s.rtc .sec).getLsbD 7 = false := ho
    have hv7 := hw hr
    rw [← hr, read_write_same, hr]
    simp only [mergeBits, BitVec.getLsbD_or, BitVec.getLsbD_and, ho7, hv7, Bool.false_and, Bool.or_false]
  · rw [read_write_ne _ _ (mt (rtcKey_inj hc).mp (Ne.symm hr))]
    exact ho

/-- Field writes without a tick in their gaps are done at once. -/
theorem writeFields_mem (h : s.Still (writesCost l)) (hc : s.cfg.Legal)
    (hf : ∀ k < writesCost l, (s.busDraw k).foreign = [])
    (hl : ∀ w ∈ l, w.reg = .sec → (w.value &&& w.mask).getLsbD 7 = false) :
    (l.foldl State.writeField s).mem = l.foldl (FieldWrite.apply s.cfg) s.mem := by
  induction l generalizing s with
  | nil => rfl
  | cons w l ih =>
    simp only [writesCost, List.map_cons, List.sum_cons] at h hf
    simp only [List.forall_mem_cons] at hl
    obtain ⟨hw, hl⟩ := hl
    have hfw : ∀ k < w.cost, (s.busDraw k).foreign = [] := fun k hk => hf k (by omega)
    obtain ⟨t, o, -, -, hmem, hstill⟩ := writeField_spec hc hfw
    obtain ⟨ht, rfl⟩ := hstill (h.imp_right fun hg k hk hk0 => hg k (by omega) hk0)
    have hfl : ∀ k < writesCost l, ((s.writeField w).busDraw k).foreign = [] := fun k hk => by
      simp only [writesCost] at hk
      simpa using hf (k + w.cost) (by omega)
    rw [List.foldl_cons, List.foldl_cons, ih (h.writeField hc hfw hw) (by simpa using hc) hfl hl, writeField_cfg, hmem,
      ht]
    rfl

end Fields

end Sys2Proof.Machine
end

section
/-! PROOFS. What a command does, from what its steps do: its frame, its draws, the answer to its first failing transaction, and
the state at its acceptance. -/

namespace Sys2Proof.Machine

/-! ### The frame of a command -/

theorem blockFrame_of_exec {i : Instr} {s t : State} (hx : exec i s = .next t) : s.BlockFrame t := by
  obtain ⟨u, hu, hframe⟩ := exec_blockFrame i s
  obtain rfl := Host.Outcome.next.inj (hu.symm.trans hx)
  exact hframe

theorem cfg_of_exec {i : Instr} {s t : State} (hx : exec i s = .next t) : t.cfg = s.cfg := by
  obtain ⟨-, hcfg, -⟩ := blockFrame_of_exec hx
  exact hcfg

section Premises
variable {i : Instr} {s t : State} {extra : BusDraw → Prop} {P : Memory → Prop}

/-- The premises about as many transactions as the command has are what its steps are promised. -/
theorem promised_of_busCount (p : Payload) (hn : s.NoOtherBusMaster (busCount i))
    (hextra : ∀ k < busCount i, extra (s.busDraw k)) :
    Promised s.cfg extra (shape i) { s.begin i.opcode with acc := p } := by
  obtain ⟨hbus, hsettle⟩ := hn
  have hs : settleOf (shape i) ≤ 1 := by cases i <;> simp [settleOf_shape, settleCount]
  refine ⟨rfl, fun k hk => ?_, fun k hk => ?_⟩
  · rw [busOf_shape] at hk
    exact ⟨hbus k hk, hextra k hk⟩
  · obtain rfl : k = 0 := by omega
    exact hsettle

/-- `exec_keeps` under the premises about as many transactions as the command has. -/
theorem exec_keeps_of_busCount (hk : Keeps s.cfg extra P (commandOf i).steps (shape i))
    (hn : s.NoOtherBusMaster (busCount i)) (hextra : ∀ k < busCount i, extra (s.busDraw k))
    (hx : exec i s = .next t) (hp : P s.mem) : P t.mem := by
  rcases exec_cases i s with ⟨e, -, -, h⟩ | ⟨p, -, u, e, hd, h⟩
  · obtain rfl := Host.Outcome.next.inj (h.symm.trans hx)
    exact hp
  · obtain rfl := Host.Outcome.next.inj (h.symm.trans hx)
    have hu := hk.kept _ (promised_of_busCount p hn hextra) hp
    rw [hd] at hu
    exact hu

/-- Outside the cells it stores to and the time registers a command leaves every cell as it was. -/
theorem exec_sameOutside (hc : s.cfg.Legal) (hn : s.NoOtherBusMaster (busCount i)) (hx : exec i s = .next t) {a : Nat}
    (hstored : a ∉ storedKeys s.cfg i) (htime : a ∉ timeKeys s.cfg) : t.mem.read a = s.mem.read a :=
  exec_keeps_of_busCount (extra := fun _ => True) (keeps_cell hc hstored htime) hn (fun _ _ => trivial) hx rfl

/-- A command without a failing transaction keeps the preserved bits of every register of which its masks leave them out. -/
theorem exec_kept_of_masks (hc : s.cfg.Legal) (hq : s.NoFailure (busCount i)) (hn : s.NoOtherBusMaster (busCount i))
    (hx : exec i s = .next t) {x : RtcReg} (hmask : ∀ m, (x, m) ∈ writtenFields i → preservedMask x &&& m = 0) :
    t.rtc x &&& preservedMask x = s.rtc x &&& preservedMask x := by
  have hkeeps : Keeps s.cfg Unfailing (PreservedAre s.cfg x (s.rtc x &&& preservedMask x)) (commandOf i).steps
      (shape i) := by
    refine commandOf_keeps i hc ageless_preserved (fun r m h v => ?_) (fun q _ m hi lo hp => ?_)
    · exact keeps_writeField_preserved hc (fun hr => hmask m (hr ▸ h)) v
    · have hhigh := preserved_write (v := hi) (fun h => absurd h.symm (rtcKey_ne_tmpKey hc x q)) hp
      exact preserved_write (fun h => absurd h.symm (rtcKey_ne_tmpKey_succ x q)) hhigh
  rw [State.rtc, cfg_of_exec hx]
  exact exec_keeps_of_busCount hkeeps hn hq hx rfl

/-- Only RTC.SCLK and RTC.RST have `OSC_EN` in the mask of a write; RTC.SDT writes the seconds beside it. -/
theorem exec_oscEn (hc : s.cfg.Legal) (hq : s.NoFailure (busCount i)) (hn : s.NoOtherBusMaster (busCount i))
    (hclk : ∀ d, i ≠ .rtcSclk d) (hrst : i ≠ .rtcRst) (hx : exec i s = .next t) : t.oscEn = s.oscEn := by
  refine bit7_eq_of_and (exec_kept_of_masks (x := .sec) hc hq hn hx fun m hm => ?_)
  cases i with
  | rtcSclk d => exact absurd rfl (hclk d)
  | rtcRst => exact absurd rfl hrst
  | rtcSdt dt => exact dateTimeFields_mask _ hm
  | rtcSbat b => simp [writtenFields] at hm
  | _ => cases hm

end Premises

/-- Settles O48: the masks of every other command leave `OSC_EN` out, and no tick changes it. -/
theorem onlySclkAndRstChangeOscEn : Obligations.OnlySclkAndRstChangeOscEn := by
  intro i s t hc hq ⟨hbus, hsettle⟩ hclk hrst hx
  have hcount : busCount i ≤ 15 := by cases i <;> simp [busCount]
  exact exec_oscEn hc (fun k hk => hq k (by omega)) ⟨fun k hk => hbus k (by omega), hsettle⟩ hclk hrst hx

/-! ### Draws -/

section Draws
variable {α : Type} (d : Draws α)

theorem drawNext_iterate_taken (n : Nat) : (drawNext^[n] d).taken = d.taken + n := by
  induction n generalizing d with
  | zero => rfl
  | succ n ih => rw [Function.iterate_succ_apply, ih, Nat.add_comm n 1, ← Nat.add_assoc]; rfl

theorem drawAt_iterate (free : Nat → α) (n k : Nat) : drawAt free (drawNext^[n] d) k = drawAt free d (k + n) := by
  induction n generalizing d with
  | zero => rfl
  | succ n ih => rw [Function.iterate_succ_apply, ih, drawAt_next, Nat.add_assoc]

end Draws

/-- A command takes bus draws one after the other. -/
theorem exec_bus {i : Instr} {s t : State} (hx : exec i s = .next t) : ∃ n, t.env.bus = drawNext^[n] s.env.bus := by
  rcases exec_cases i s with ⟨e, -, -, h⟩ | ⟨p, -, u, e, hd, h⟩
  · obtain rfl := Host.Outcome.next.inj (h.symm.trans hx)
    exact ⟨0, rfl⟩
  · obtain rfl := Host.Outcome.next.inj (h.symm.trans hx)
    have hu := doSteps_keeps (fun _ v => ∃ n, v.env.bus = drawNext^[n] s.env.bus) (fs := (commandOf i).steps) (n := 0)
      (s := { s.begin i.opcode with acc := p }) (fun _ _ hv => hv) (fun f hf _ v ⟨n, hv⟩ => ?_)
      (fun _ v hv => by rwa [advance_env]) ⟨0, rfl⟩
    · rw [hd] at hu
      exact hu
    · obtain ⟨⟨wait, raises⟩, hspec⟩ := shaped_mem (commandOf_shaped i) hf
      cases wait with
      | true => exact ⟨n, (hspec.bus v).trans hv⟩
      | false => exact ⟨n + 1, by rw [Function.iterate_succ_apply', ← hv]; exact hspec.bus v⟩

/-- The draws after a command are those it has not taken. -/
theorem exec_busDraw {i : Instr} {s t : State} {n : Nat} (hx : exec i s = .next t)
    (hn : t.env.bus.taken = s.env.bus.taken + n) (k : Nat) : t.busDraw k = s.busDraw (k + n) := by
  obtain ⟨m, hm⟩ := exec_bus hx
  obtain rfl : m = n := by
    rw [hm, drawNext_iterate_taken] at hn
    omega
  rw [State.busDraw, hm, drawAt_iterate]
  rfl

/-! ### The ends of a command -/

/-- The state in which a command begins its steps: accepted, and the operand check passed with this payload. -/
def State.accept (op : Byte) (p : Payload) (s : State) : State := { s.begin op with acc := p }

section Accept
variable (s : State) (op : Byte) (p : Payload)

@[simp] theorem accept_mem : (s.accept op p).mem = s.mem := rfl
@[simp] theorem accept_cfg : (s.accept op p).cfg = s.cfg := rfl
@[simp] theorem accept_env : (s.accept op p).env = s.env := rfl
@[simp] theorem accept_acc : (s.accept op p).acc = p := rfl
@[simp] theorem accept_rtc (r : RtcReg) : (s.accept op p).rtc r = s.rtc r := rfl
@[simp] theorem accept_oscEn : (s.accept op p).oscEn = s.oscEn := rfl
@[simp] theorem accept_busDraw (k : Nat) : (s.accept op p).busDraw k = s.busDraw k := rfl
@[simp] theorem accept_settleDraw (k : Nat) : (s.accept op p).settleDraw k = s.settleDraw k := rfl

theorem tick_accept : (s.accept op p).tick = s.tick.accept op p := by
  unfold State.tick
  rw [accept_oscEn]
  split <;> rfl

theorem ticks_accept (k : Nat) : State.ticks k (s.accept op p) = (State.ticks k s).accept op p := by
  induction k generalizing s with
  | zero => rfl
  | succ k ih => rw [State.ticks, State.ticks, tick_accept, ih]

theorem drifted_of_accept {s t : State} {op : Byte} {p : Payload} (h : Drifted (s.accept op p) t) : Drifted s t :=
  Drifted.trans (t := s.accept op p) (.of_mem rfl rfl) h

/-- The device does not see a command's acceptance. -/
@[simp] theorem gap_accept : (s.accept op p).gap = s.gap.accept op p := by
  simp only [State.gap, accept_busDraw, accept_cfg, ticks_accept]
  rfl

end Accept

section Ends
variable {i : Instr} {s u : State} {p : Payload}

theorem exec_of_start (hp : (commandOf i).start s.cfg = .ok p) :
    exec i s = .next (finish (commandOf i).catches (doSteps (commandOf i).steps (s.accept i.opcode p))) := by
  rw [exec_eq_run, runCommand_ok hp]
  rfl

theorem exec_ok (hp : (commandOf i).start s.cfg = .ok p)
    (hd : doSteps (commandOf i).steps (s.accept i.opcode p) = (u, none)) :
    exec i s = .next (u.respond (okResponse u.acc)) := by
  rw [exec_of_start hp, hd]
  rfl

theorem exec_raise {e : Err} (hp : (commandOf i).start s.cfg = .ok p)
    (hd : doSteps (commandOf i).steps (s.accept i.opcode p) = (u, some e)) :
    exec i s = .next (u.respond (raisedResponse (commandOf i).catches e)) := by
  rw [exec_of_start hp, hd]
  exact congrArg _ (raised_respond _ e u)

/-- The first transaction to fail is made and is the last, and is answered, where only the last step has a check of its own. -/
theorem exec_first_failure {t : State} {k : Nat} (hp : (commandOf i).start s.cfg = .ok p)
    (hlast : lastOnly (shape i) = true) (hk : k < busCount i) (hq : s.NoFailure k) (hf : (s.busDraw k).fails = true)
    (hx : exec i s = .next t) :
    t.env.bus.taken = s.env.bus.taken + (k + 1) ∧ t.rsp = if i = .rtcRst then 0 else 0x0300000000000001 := by
  refine exec_made_failed hx hf ?_
  have hreach := doSteps_reaches (commandOf_shaped i) hlast (s := s.accept i.opcode p) (n := k)
    (by rwa [busOf_shape]) hq
  cases hd : doSteps (commandOf i).steps (s.accept i.opcode p) with
  | mk u e =>
    rw [hd] at hreach
    cases e with
    | none => obtain rfl := Host.Outcome.next.inj ((exec_ok hp hd).symm.trans hx); exact hreach
    | some e => obtain rfl := Host.Outcome.next.inj ((exec_raise hp hd).symm.trans hx); exact hreach

end Ends

theorem okResponse_zero : okResponse 0 = 0 := by decide

theorem okResponse_payloadS1 (b : Bool) : okResponse (payloadS1 b) = if b then 1 else 0 := by cases b <;> decide

end Sys2Proof.Machine
end

section
/-! PROOFS. The clock state and the battery state (42_rtc.md R157 to R160): RTC.GCLK and RTC.GBAT answer one bit of one
register, RTC.SBAT writes one bit. -/

namespace Sys2Proof.Machine

/-! ### The commands that answer one bit (R157, R159) -/

/-- A command that answers one bit of a register, read after the gap. -/
theorem exec_readBit {i : Instr} {r : RtcReg} {n : Nat} (hi : commandOf i = ⟨noCheck, [readBit r n], false⟩) (s : State) :
    ∃ t, exec i s = .next t ∧ t.mem = s.gap.mem ∧ t.env.bus.taken = s.env.bus.taken + 1 ∧
      t.rsp = if (s.busDraw 0).fails then 0x0300000000000001 else if (s.gap.rtc r).getLsbD n then 1 else 0 := by
  have hp : (commandOf i).start s.cfg = .ok 0 := by rw [hi]; rfl
  have hsteps : (commandOf i).steps = [readBit r n] := by rw [hi]
  cases hf : (s.busDraw 0).fails with
  | true =>
    have hd := doSteps_raise (fs := []) (readReg_failed (s := s.accept i.opcode 0) hf r
      fun b t => ({ t with acc := payloadS1 (b.getLsbD n) }, none))
    refine ⟨_, exec_raise hp (hsteps ▸ hd), by simp, by simp [State.takeBus, drawNext], ?_⟩
    rw [hi, respond_rsp, raisedResponse_false, errResponse_busFault, if_pos rfl]
  | false =>
    have hd := doSteps_ok (fs := []) (readReg_ok (s := s.accept i.opcode 0) hf r
      fun b t => ({ t with acc := payloadS1 (b.getLsbD n) }, none))
    refine ⟨_, exec_ok hp (hsteps ▸ hd), by simp, by simp [State.takeBus, drawNext], ?_⟩
    rw [respond_rsp, advance_acc, okResponse_payloadS1, gap_accept]
    rfl

/-- The same where no other master writes, for a bit no tick changes. -/
theorem exec_readBit_answers {i : Instr} {r : RtcReg} {n : Nat} (hi : commandOf i = ⟨noCheck, [readBit r n], false⟩)
    (hbit : ∀ {s t : State}, s.cfg.Legal → Drifted s t → (t.rtc r).getLsbD n = (s.rtc r).getLsbD n) {s : State}
    (hc : s.cfg.Legal) (hf : (s.busDraw 0).foreign = []) :
    ∃ t, exec i s = .next t ∧ s.BlockFrame t ∧
      t.rsp = (if (s.busDraw 0).fails then 0x0300000000000001 else if (s.rtc r).getLsbD n then 1 else 0) ∧
      t.env.bus.taken = s.env.bus.taken + 1 ∧
      s.SameOutside t (timeKeys s.cfg) ∧ (s.oscEn = false → s.SameOutside t []) ∧ s.gap.SameOutside t [] := by
  have hgap := drifted_gap hc hf
  obtain ⟨t, hx, hmem, htaken, hrsp⟩ := exec_readBit hi s
  rw [hbit hc hgap] at hrsp
  refine ⟨t, hx, blockFrame_of_exec hx, hrsp, htaken, fun a ha => ?_, fun ho a _ => ?_, fun a _ => ?_⟩
  · rw [hmem, hgap.outside a ha]
  · rw [hmem, hgap.stopped ho]
  · rw [hmem]

/-- Settles O7: `OSC_EN` is a preserved bit of `SEC`. -/
theorem gclkAnswersEnableBit : Obligations.GclkAnswersEnableBit :=
  ⟨by decide, fun _ hc ⟨hbus, _⟩ => exec_readBit_answers (i := .rtcGclk) rfl (fun _ h => h.osc) hc (hbus 0 Nat.one_pos)⟩

/-- RTC.GBAT: no tick changes `WKDAY`. -/
theorem exec_gbat {s : State} (hc : s.cfg.Legal) (hf : (s.busDraw 0).foreign = []) :
    ∃ t, exec .rtcGbat s = .next t ∧ s.BlockFrame t ∧
      t.rsp = (if (s.busDraw 0).fails then 0x0300000000000001 else if (s.rtc .wkday).getLsbD 3 then 1 else 0) ∧
      t.env.bus.taken = s.env.bus.taken + 1 ∧
      s.SameOutside t (timeKeys s.cfg) ∧ (s.oscEn = false → s.SameOutside t []) ∧ s.gap.SameOutside t [] :=
  exec_readBit_answers rfl (fun hc h => by rw [h.wkday hc]) hc hf

/-- Settles O12. -/
theorem gbatAnswersBatteryBit : Obligations.GbatAnswersBatteryBit :=
  ⟨by decide, fun _ hc ⟨hbus, _⟩ => exec_gbat hc (hbus 0 Nat.one_pos)⟩

/-! ### RTC.SBAT (R160) -/

/-- The bit RTC.SBAT writes. -/
def batWrite (b : BatteryState) : FieldWrite := ⟨.wkday, maskBat, batByte b⟩

theorem maskBat_ne_full : maskBat ≠ 0xFF := by decide

theorem mergeBits_bat_bit (o : Byte) (b : BatteryState) :
    (mergeBits o maskBat (batByte b)).getLsbD 3 = decide (b = .on) := by
  cases b <;> simp [mergeBits, maskBat, batByte, BatteryState.bit]

theorem mergeBits_bat (o : Byte) (b : BatteryState) :
    mergeBits o maskBat (batByte b) = (o &&& 0xF7) ||| (if b = .on then 0x08 else 0x00) := by
  cases b <;> rfl

/-- Everything RTC.SBAT does: `WKDAY` is written after time has passed, unless the read fails. -/
theorem exec_sbat (b : BatteryState) {s : State} (hc : s.cfg.Legal) (hn : s.NoOtherBusMaster 2) :
    ∃ t g, exec (.rtcSbat b) s = .next t ∧ Drifted s g ∧ (s.Still 2 → g.mem = s.mem) ∧
      t.mem = (if (s.busDraw 0).fails then g.mem else g.mem.write (rtcKey s.cfg .wkday)
        (if (s.busDraw 1).fails then (s.busDraw 1).lo else mergeBits (s.rtc .wkday) maskBat (batByte b))) ∧
      t.env.bus.taken = s.env.bus.taken + (if (s.busDraw 0).fails then 1 else 2) ∧
      t.rsp = (if (s.busDraw 0).fails ∨ (s.busDraw 1).fails then 0x0300000000000001 else 0) := by
  obtain ⟨hbus, -⟩ := hn
  have hf0 := hbus 0 (by omega)
  have hgap := drifted_gap hc hf0
  obtain ⟨hdrift, hstill⟩ := remember_gap_spec (s := s.accept 0x23 0) hc hf0 (hbus 1 (by omega)) .wkday
  have hp : (commandOf (.rtcSbat b)).start s.cfg = .ok 0 := rfl
  have hlast : lastOnly (shape (.rtcSbat b)) = true := rfl
  cases h0 : (s.busDraw 0).fails with
  | true =>
    have hx := exec_raise hp (doSteps_rmwBits_readFails (s := s.accept 0x23 0) h0 .wkday maskBat (batByte b) [])
    obtain ⟨htaken, hrsp⟩ := exec_first_failure hp hlast (k := 0) Nat.two_pos (noFailure_zero s) h0 hx
    exact ⟨_, s.gap, hx, hgap, fun h => by rw [h.gap (by omega) hf0], by simp, htaken, hrsp⟩
  | false =>
    have hq1 : s.NoFailure 1 := noFailure_succ (noFailure_zero s) h0
    cases h1 : (s.busDraw 1).fails with
    | true =>
      have hx := exec_raise hp
        (doSteps_rmwBits_writeFails (s := s.accept 0x23 0) h0 h1 .wkday maskBat (batByte b) [])
      obtain ⟨htaken, hrsp⟩ := exec_first_failure hp hlast (k := 1) Nat.one_lt_two hq1 h1 hx
      exact ⟨_, _, hx, drifted_of_accept hdrift, hstill, by simp, htaken, hrsp⟩
    | false =>
      have hd := doSteps_rmwBits (s := s.accept 0x23 0) (w := batWrite b) maskBat_ne_full (noFailure_succ hq1 h1) []
      refine ⟨_, _, exec_ok (i := .rtcSbat b) hp hd, drifted_of_accept hdrift, hstill, ?_, ?_, ?_⟩
      · rw [respond_mem, writeField_bits (w := batWrite b) maskBat_ne_full, store_mem, remember_cfg, gap_accept,
          accept_rtc, ← hgap.wkday hc]
        rfl
      · rw [respond_env, writeField_taken, cost_bits (w := batWrite b) maskBat_ne_full]
        rfl
      · rw [respond_rsp, writeField_acc]
        exact okResponse_zero

/-- Settles O13, by the two transactions in turn: nothing but `WKDAY` is written, and no tick changes it. -/
theorem sbatWritesBatteryBitOnly : Obligations.SbatWritesBatteryBitOnly := by
  refine ⟨by decide, by decide, fun s b hc hn => ?_⟩
  obtain ⟨t, g, hx, hg, hstill, hmem, htaken, hrsp⟩ := exec_sbat b hc hn
  have hframe {a : Nat} (ha : a ≠ rtcKey s.cfg .wkday) : t.mem.read a = g.mem.read a := by
    rw [hmem]
    split
    · rfl
    · exact read_write_ne _ _ ha
  refine ⟨t, hx, blockFrame_of_exec hx, hrsp, ?_, htaken, fun a ha => ?_, fun h a ha => ?_⟩
  · rw [State.rtc, cfg_of_exec hx, hmem, ← mergeBits_bat]
    split
    · rw [← hg.wkday hc, State.rtc, hg.cfg]
    · exact read_write_same _ _ _
  · rw [hframe (List.ne_of_not_mem_cons ha), hg.outside a (List.not_mem_of_not_mem_cons ha)]
  · rw [hframe (List.ne_of_not_mem_cons ha), hstill h]

/-- Settles O14: the draw RTC.GBAT takes is the third, and it answers the bit RTC.SBAT wrote. -/
theorem batteryStateReadsBackAsSet : Obligations.BatteryStateReadsBackAsSet := by
  intro s t b hc hq ⟨hbus, hsettle⟩ hx
  obtain ⟨t', g, hx', hg, -, hmem, htaken, -⟩ := exec_sbat b hc ⟨fun k hk => hbus k (by omega), hsettle⟩
  obtain rfl := Host.Outcome.next.inj (hx'.symm.trans hx)
  have h0 := hq 0 (by omega)
  have hwk : t'.rtc .wkday = mergeBits (s.rtc .wkday) maskBat (batByte b) := by
    rw [State.rtc, cfg_of_exec hx, hmem, h0, hq 1 (by omega)]
    exact read_write_same _ _ _
  have hcfg : t'.cfg.Legal := by rwa [cfg_of_exec hx]
  have hdraw : t'.busDraw 0 = s.busDraw 2 := exec_busDraw hx (by simpa [h0] using htaken) 0
  obtain ⟨u, hu, -, hrsp, -, hframe, -⟩ := exec_gbat hcfg (by rw [hdraw]; exact hbus 2 (by omega))
  refine ⟨u, hu, ?_, ?_⟩
  · rw [hrsp, hdraw, hq 2 (by omega), hwk, mergeBits_bat_bit]
    simp
  · rw [State.rtc, cfg_of_exec hu, hframe _ (wkday_not_timeKey hcfg)]
    show t'.rtc .wkday &&& 0xF7 = _
    rw [hwk]
    exact mergeBits_and (by decide)

end Sys2Proof.Machine
end

section
/-! PROOFS. Tick verification and RTC.SCLK (42_rtc.md R154, R158, R165; 60_exceptions.md R217, R220; 70_reset_and_hazards.md
R247, R251): what the seconds do during the settle wait, and what the two samples say of it. -/

namespace Sys2Proof.Machine

/-! ### The seconds of a running clock -/

theorem fieldOf_congr {f : TimeField} {a b : Byte} (h : a &&& fieldMask f = b &&& fieldMask f) :
    fieldOf f a = fieldOf f b := congrArg bcdValue h

theorem fieldWithin_congr {f : TimeField} {a b : Byte} {lo hi : Nat} (h : a &&& fieldMask f = b &&& fieldMask f) :
    fieldWithin f a lo hi = fieldWithin f b lo hi := by rw [fieldWithin, h, fieldWithin]

section Seconds
variable {s : State} (hc : s.cfg.Legal) (ho : s.oscEn = true) (hs : fieldWithin .second (s.rtc .sec) 0 59 = true)
include hc ho hs

theorem ticks_change_seconds {k : Nat} (h1 : 1 ≤ k) (h59 : k ≤ 59) :
    (State.ticks k s).rtc .sec &&& 0x7F ≠ s.rtc .sec &&& 0x7F := by
  intro h
  have hticks := ticks_second hc ho hs k
  obtain ⟨-, -, hle⟩ := fieldWithin_iff.mp hs
  rw [fieldOf_congr (f := .second) h] at hticks
  omega

/-- A tick before the seconds wrap writes `SEC` alone. -/
theorem tick_below_wrap (h58 : fieldOf .second (s.rtc .sec) ≤ 58) : s.SameOutside s.tick [rtcKey s.cfg .sec] := by
  intro a ha
  have hsec : a ≠ rtcKey s.cfg .sec := List.ne_of_not_mem_cons ha
  rw [tick_running ho]
  show (s.mem.writeClock s.cfg (tickRegs (s.tickDraw 0) s.clock)).read a = _
  rw [tickRegs_below_wrap (c := s.clock) hs h58]
  by_cases htime : a ∈ timeKeys s.cfg
  · simp only [timeKeys, List.mem_cons, List.not_mem_nil, or_false, hsec, false_or] at htime
    rcases htime with rfl | rfl | rfl | rfl | rfl <;> exact read_writeClock hc _ _
  · exact read_writeClock_outside _ htime

/-- So do ticks that end before the seconds wrap. -/
theorem ticks_below_wrap {k : Nat} (hk : fieldOf .second (s.rtc .sec) + k ≤ 59) :
    s.SameOutside (State.ticks k s) [rtcKey s.cfg .sec] := by
  induction k generalizing s with
  | zero => exact fun _ _ => rfl
  | succ k ih =>
    have haged := aged_tick hc
    have hone : fieldOf .second (s.tick.rtc .sec) = (fieldOf .second (s.rtc .sec) + 1) % 60 :=
      ticks_second hc ho hs 1
    have hrest := ih (s := s.tick) (by rwa [haged.cfg]) (haged.osc.trans ho) (haged.second hs) (by omega)
    rw [haged.cfg] at hrest
    exact fun a ha => (hrest a ha).trans (tick_below_wrap hc ho hs (by omega) a ha)

end Seconds

/-- Settles O53: the seconds advance modulo 60. -/
theorem fewerThanSixtyTicksChangeTheSeconds : Obligations.FewerThanSixtyTicksChangeTheSeconds :=
  fun _ _ hc ho hs => ticks_change_seconds hc ho hs

/-! ### The settle wait -/

theorem settle_running {s : State} (ho : s.oscEn = true) (hf : (s.settleDraw 0).foreign = []) :
    s.settle = (State.ticks (min (s.settleDraw 0).ticks s.cfg.settleTicksMax) s).takeSettle := by
  simp [State.settle, ho, hf, State.takeSettle]

/-- A settle wait without a tick and without a foreign write changes no register. -/
theorem settle_still_mem {s : State} (h : s.oscEn = false ∨ (s.settleDraw 0).ticks = 0)
    (hf : (s.settleDraw 0).foreign = []) : s.settle.mem = s.mem := by
  cases ho : s.oscEn with
  | false => rw [settle_stopped ho hf]; rfl
  | true =>
    have hticks : (s.settleDraw 0).ticks = 0 := h.resolve_left (by simp [ho])
    rw [settle_running ho hf, hticks, Nat.zero_min]
    rfl

/-! ### Tick verification (R154) -/

theorem secondsSample_eq_iff {a b : Byte} : secondsSample a = secondsSample b ↔ a &&& 0x7F = b &&& 0x7F := by
  have hmask (c : Byte) : c &&& 0x7F = (secondsSample c).setWidth 8 := by
    apply BitVec.eq_of_getLsbD_eq
    intro k hk
    simp only [secondsSample, BitVec.getLsbD_and, BitVec.getLsbD_setWidth, BitVec.getLsbD_extractLsb']
    interval_cases k <;> simp
  rw [hmask, hmask]
  refine ⟨congrArg _, fun h => ?_⟩
  simpa using congrArg (BitVec.setWidth 7) h

/-- The last step gives the state of the steps, its transaction counted or not. -/
theorem doSteps_singleton {f : SeqStep} {s w : State} {e : Option Err} (h : f s = (w, e)) :
    ∃ q, doSteps [f] s = ({ w with seq := q }, e) := by
  cases e with
  | none => exact ⟨w.advance.seq, (doSteps_ok h).trans (by unfold State.advance; split <;> rfl)⟩
  | some e => exact ⟨w.seq, doSteps_raise h⟩

/-- After the second sample, whose transaction has no gap. -/
def State.sampleS2 (s : State) : State := { s.takeBus with s2 := secondsSample (s.rtc .sec) }

theorem sampleSecond_ok {s : State} (h : (s.busDraw 0).fails = false) (d : ClockState) :
    sampleSecond d s =
      (s.sampleS2, if confirms d s.s1 s.sampleS2.s2 then none else some (.hardware .tickVerify)) := by
  rw [sampleSecond_spec, if_neg (Bool.eq_false_iff.mp h)]
  rfl

/-- Tick verification without a failing transaction, on every device: the second sample is the seconds field as it then
stands, and the two samples decide. -/
theorem doSteps_tickVerify (d : ClockState) {s : State} (h : s.NoFailure 2) :
    ∃ t, doSteps (tickVerify d) s = (t, if confirms d t.s1 t.s2 then none else some (.hardware .tickVerify)) ∧
      t.mem = s.sampleS1.settle.mem ∧ t.cfg = s.cfg ∧ t.acc = s.acc ∧ t.s1 = secondsSample (s.gap.rtc .sec) ∧
      t.s2 = secondsSample (t.rtc .sec) ∧ t.env.bus.taken = s.env.bus.taken + 2 ∧
      t.env.settle.taken = s.env.settle.taken + 1 := by
  have h1 : (s.sampleS1.settle.advance.busDraw 0).fails = false := by simpa using h 1 (by omega)
  obtain ⟨-, hbus, hsettle⟩ := inside_settle s.sampleS1
  obtain ⟨q, hlast⟩ := doSteps_singleton (sampleSecond_ok h1 d)
  refine ⟨{ s.sampleS1.settle.advance.sampleS2 with seq := q }, ?_, ?_, ?_, ?_, ?_, ?_, ?_, ?_⟩
  · rw [tickVerify, doSteps_sampleFirst (h 0 (by omega)), doSteps_waitSettle]
    exact hlast
  · exact advance_mem _
  · exact (advance_cfg _).trans (by simp)
  · exact (advance_acc _).trans (by simp)
  · exact (advance_s1 _).trans (by simp [settle_s1])
  · rfl
  · show s.sampleS1.settle.advance.env.bus.taken + 1 = _
    simp [hbus]
  · show s.sampleS1.settle.advance.env.settle.taken = _
    simp [hsettle, drawNext]

section Sample
variable {s : State}

theorem sampleS1_rtc (s : State) (r : RtcReg) : s.sampleS1.rtc r = s.gap.rtc r := by simp [State.rtc]

theorem drifted_sampleS1 (hc : s.cfg.Legal) (hf : (s.busDraw 0).foreign = []) : Drifted s s.sampleS1 :=
  (drifted_gap hc hf).trans (.of_mem (by simp) (by simp))

theorem sampleS1_still_mem (h : s.oscEn = false ∨ (s.busDraw 0).gap = 0) (hf : (s.busDraw 0).foreign = []) :
    s.sampleS1.mem = s.mem := by rw [sampleS1_mem, gap_still h hf]

end Sample

/-! ### RTC.SCLK up to its verification (R158) -/

/-- The bit RTC.SCLK writes. -/
def oscWrite (d : ClockState) : FieldWrite := ⟨.sec, maskOsc, oscByte d⟩

/-- The state in which RTC.SCLK begins its verification, where its first two transactions do not fail. -/
def State.oscWritten (d : ClockState) (s : State) : State := (s.accept 0x21 0).writeField (oscWrite d)

theorem maskOsc_ne_full : maskOsc ≠ 0xFF := by decide

theorem mergeBits_osc (o : Byte) (d : ClockState) :
    mergeBits o maskOsc (oscByte d) = (o &&& 0x7F) ||| (if d = .running then 0x80 else 0x00) := by
  cases d <;> rfl

theorem getLsbD_osc (o : Byte) (d : ClockState) :
    (mergeBits o maskOsc (oscByte d)).getLsbD 7 = decide (d = .running) := by
  cases d <;> simp [mergeBits, maskOsc, oscByte, ClockState.bit]

theorem and_seconds_of_stopped {b : Byte} (h : b.getLsbD 7 = false) : b &&& 0x7F = b := by
  have hmask : ∀ k < 8, k ≠ 7 → (0x7F : Byte).getLsbD k = true := by decide
  apply BitVec.eq_of_getLsbD_eq
  intro k hk
  by_cases h7 : k = 7
  · rw [BitVec.getLsbD_and, h7, h]
    rfl
  · rw [BitVec.getLsbD_and, hmask k hk h7, Bool.and_true]

section Written
variable (d : ClockState) (s : State)

@[simp] theorem oscWritten_cfg : (s.oscWritten d).cfg = s.cfg := by simp [State.oscWritten]
@[simp] theorem oscWritten_acc : (s.oscWritten d).acc = 0 := by simp [State.oscWritten]
@[simp] theorem oscWritten_settle : (s.oscWritten d).env.settle = s.env.settle := by simp [State.oscWritten]
@[simp] theorem oscWritten_settleDraw (k : Nat) : (s.oscWritten d).settleDraw k = s.settleDraw k := by
  simp [State.oscWritten]

@[simp] theorem oscWritten_taken : (s.oscWritten d).env.bus.taken = s.env.bus.taken + 2 := by
  rw [State.oscWritten, writeField_taken, cost_bits (w := oscWrite d) maskOsc_ne_full]
  rfl

@[simp] theorem oscWritten_busDraw (k : Nat) : (s.oscWritten d).busDraw k = s.busDraw (k + 2) := by
  rw [State.oscWritten, writeField_busDraw, cost_bits (w := oscWrite d) maskOsc_ne_full]
  rfl

/-- The seconds written back are those read after the first gap. -/
theorem oscWritten_sec : (s.oscWritten d).rtc .sec = mergeBits (s.gap.rtc .sec) maskOsc (oscByte d) := by
  rw [State.oscWritten, writeField_bits (w := oscWrite d) maskOsc_ne_full]
  exact (store_rtc_same _ _ _).trans (by rw [gap_accept]; rfl)

theorem oscWritten_oscEn : (s.oscWritten d).oscEn = decide (d = .running) := by
  rw [State.oscEn, oscWritten_sec, getLsbD_osc]

theorem oscWritten_seconds : (s.oscWritten d).rtc .sec &&& 0x7F = s.gap.rtc .sec &&& 0x7F := by
  rw [oscWritten_sec]
  exact mergeBits_and (by decide)

variable {d s}

/-- Without a tick in the two gaps RTC.SCLK has written no cell but `SEC`. -/
theorem oscWritten_still (hc : s.cfg.Legal) (hf : ∀ k < 2, (s.busDraw k).foreign = []) (h : s.Still 2) :
    s.SameOutside (s.oscWritten d) [rtcKey s.cfg .sec] := by
  have hcost : (oscWrite d).cost = 2 := cost_bits maskOsc_ne_full
  obtain ⟨t, o, -, -, hmem, hstill⟩ := writeField_spec (s := s.accept 0x21 0) (w := oscWrite d) hc
    fun k hk => hf k (by omega)
  obtain ⟨ht, -⟩ := hstill (by rw [hcost]; exact h)
  intro a ha
  rw [State.oscWritten, hmem, ht]
  exact read_write_ne _ _ (List.ne_of_not_mem_cons ha)

end Written

/-- RTC.SCLK without a failing transaction, on every device: the answer is decided by the two samples. -/
theorem exec_sclk (d : ClockState) {s : State} (h : s.NoFailure 4) :
    ∃ t, exec (.rtcSclk d) s = .next t ∧ t.mem = (s.oscWritten d).sampleS1.settle.mem ∧
      t.s1 = secondsSample ((s.oscWritten d).sampleS1.rtc .sec) ∧ t.s2 = secondsSample (t.rtc .sec) ∧
      t.rsp = (if confirms d t.s1 t.s2 then 0 else 0x0300000000000002) ∧
      t.env.bus.taken = s.env.bus.taken + 4 ∧ t.env.settle.taken = s.env.settle.taken + 1 := by
  have hp : (commandOf (.rtcSclk d)).start s.cfg = .ok 0 := rfl
  have hwritten := doSteps_rmwBits (s := s.accept 0x21 0) (w := oscWrite d) maskOsc_ne_full
    (fun k hk => h k (by omega)) (tickVerify d)
  obtain ⟨t, hverify, hmem, -, hacc, hs1, hs2, hbus, hsettle⟩ := doSteps_tickVerify d (s := s.oscWritten d)
    fun k hk => by rw [oscWritten_busDraw]; exact h _ (by omega)
  have hsteps := hwritten.trans hverify
  rw [oscWritten_taken] at hbus
  rw [oscWritten_settle] at hsettle
  cases hconf : confirms d t.s1 t.s2 with
  | true =>
    rw [hconf, if_pos rfl] at hsteps
    refine ⟨_, exec_ok (i := .rtcSclk d) hp hsteps, hmem, by rwa [sampleS1_rtc], hs2, ?_, hbus, hsettle⟩
    rw [respond_rsp, respond_s1, respond_s2, hconf, hacc, oscWritten_acc, if_pos rfl]
    exact okResponse_zero
  | false =>
    rw [hconf, if_neg Bool.false_ne_true] at hsteps
    refine ⟨_, exec_raise (i := .rtcSclk d) hp hsteps, hmem, by rwa [sampleS1_rtc], hs2, ?_, hbus, hsettle⟩
    rw [respond_rsp, respond_s1, respond_s2, hconf, if_neg Bool.false_ne_true]
    show raisedResponse false (.hardware .tickVerify) = _
    decide

theorem secondsSample_osc (d : ClockState) (s : State) :
    secondsSample ((s.oscWritten d).rtc .sec) = secondsSample (s.gap.rtc .sec) :=
  secondsSample_eq_iff.mpr (oscWritten_seconds d s)

/-- RTC.SCLK stores to `SEC`, which is a time register. -/
theorem exec_sclk_frame {d : ClockState} {s t : State} (hc : s.cfg.Legal) (hn : s.NoOtherBusMaster 4)
    (hx : exec (.rtcSclk d) s = .next t) : s.SameOutside t (timeKeys s.cfg) := by
  intro a ha
  have hsec : a ∉ storedKeys s.cfg (.rtcSclk d) := fun h => ha (List.mem_singleton.mp h ▸ List.mem_cons_self)
  exact exec_sameOutside (i := .rtcSclk d) hc hn hx hsec ha

/-! ### RTC.SCLK on a device that conforms -/

/-- Without a tick in its gap the first sample finds the registers as the write left them. -/
theorem first_sample_mem {s : State} {d : ClockState} (hn : s.NoOtherBusMaster 4) (h : d = .stopped ∨ s.NoGapTick 2 3) :
    (s.oscWritten d).sampleS1.mem = (s.oscWritten d).mem := by
  obtain ⟨hbus, -⟩ := hn
  refine sampleS1_still_mem (h.imp (fun hd => ?_) fun hg => ?_) (by rw [oscWritten_busDraw]; exact hbus 2 (by omega))
  · rw [oscWritten_oscEn, hd]
    rfl
  · rw [oscWritten_busDraw]
    exact hg 2 (by omega) (by omega)

section Premises
variable {s : State} (d : ClockState) (hc : s.cfg.Legal) (hn : s.NoOtherBusMaster 4)
include hc hn

/-- At the first sample only time has passed since the write. -/
theorem drifted_first_sample : Drifted (s.oscWritten d) (s.oscWritten d).sampleS1 := by
  obtain ⟨hbus, -⟩ := hn
  exact drifted_sampleS1 (by simpa using hc) (by rw [oscWritten_busDraw]; exact hbus 2 (by omega))

theorem first_sample_oscEn : (s.oscWritten d).sampleS1.oscEn = decide (d = .running) :=
  (drifted_first_sample d hc hn).osc.trans (oscWritten_oscEn d s)

/-- At the second sample only time has passed since the write. -/
theorem drifted_second_sample : Drifted (s.oscWritten d) (s.oscWritten d).sampleS1.settle := by
  obtain ⟨-, hsettle⟩ := id hn
  exact (drifted_first_sample d hc hn).trans (drifted_settle (by simpa using hc) (by simpa using hsettle))

/-- A running clock has made the ticks of the wait at the second sample. -/
theorem second_sample_running : (s.oscWritten .running).sampleS1.settle.mem =
    (State.ticks (min (s.settleDraw 0).ticks s.cfg.settleTicksMax) (s.oscWritten .running).sampleS1).mem := by
  obtain ⟨-, hsettle⟩ := id hn
  rw [settle_running (first_sample_oscEn .running hc hn) (by simpa using hsettle)]
  simp

/-- Neither the write of `OSC_EN` nor a tick makes a well-formed seconds field malformed. -/
theorem first_sample_within (hs : fieldWithin .second (s.rtc .sec) 0 59 = true) :
    fieldWithin .second ((s.oscWritten d).sampleS1.rtc .sec) 0 59 = true := by
  refine (drifted_first_sample d hc hn).second ?_
  obtain ⟨hbus, -⟩ := hn
  rw [fieldWithin_congr (f := .second) (oscWritten_seconds d s)]
  exact (drifted_gap hc (hbus 0 (by omega))).second hs

end Premises

/-- Without a tick in the settle wait the second sample finds the registers as the first. -/
theorem second_sample_mem {s : State} {d : ClockState} (hc : s.cfg.Legal) (hn : s.NoOtherBusMaster 4)
    (h : d = .stopped ∨ (s.settleDraw 0).ticks = 0) :
    (s.oscWritten d).sampleS1.settle.mem = (s.oscWritten d).sampleS1.mem := by
  obtain ⟨-, hsettle⟩ := id hn
  refine settle_still_mem (h.imp (fun hd => ?_) fun hticks => by simpa using hticks) (by simpa using hsettle)
  rw [first_sample_oscEn d hc hn, hd]
  rfl

/-- Settles O11: the write stops the clock, so that the two samples are the same byte. -/
theorem sclkStoppedConfirmedAndWritesBackSecondsRead : Obligations.SclkStoppedConfirmedAndWritesBackSecondsRead := by
  refine ⟨by decide, fun s hc hq hn => ?_⟩
  obtain ⟨t, hx, hmem, hs1, hs2, hrsp, hbus, hsettle⟩ := exec_sclk .stopped hq
  have hfirst := first_sample_mem (d := .stopped) hn (.inl rfl)
  have hsecond := second_sample_mem (d := .stopped) hc hn (.inl rfl)
  have hreg (r : RtcReg) : t.rtc r = (s.oscWritten .stopped).rtc r :=
    rtc_congr (hmem.trans (hsecond.trans hfirst)) ((cfg_of_exec hx).trans (oscWritten_cfg _ s).symm) r
  have hsec : t.rtc .sec = s.gap.rtc .sec &&& 0x7F := by
    rw [hreg, oscWritten_sec, mergeBits_osc]
    simp
  have hstill (h : s.Still 2) : s.SameOutside t [rtcKey s.cfg .sec] := by
    obtain ⟨hforeign, -⟩ := id hn
    intro a ha
    rw [hmem, hsecond, hfirst]
    exact oscWritten_still hc (fun k hk => hforeign k (by omega)) h a ha
  refine ⟨t, hx, blockFrame_of_exec hx, ?_, ?_, hsec, hbus, hsettle, exec_sclk_frame hc hn hx, fun ho a _ => ?_,
    fun hg => hstill (.inr hg)⟩
  · have hsame : t.s1 = t.s2 := by
      rw [hs1, hs2, hreg, rtc_congr hfirst (by simp)]
    rw [hrsp, if_pos (by simp [confirms, hsame])]
  · rw [State.oscEn, hreg]
    exact oscWritten_oscEn .stopped s
  · by_cases ha : a = rtcKey s.cfg .sec
    · obtain ⟨hforeign, -⟩ := id hn
      have hgap : s.gap = s := State.Still.gap (n := 1) (.inl ho) (by omega) (hforeign 0 (by omega))
      rw [hgap, and_seconds_of_stopped ho, State.rtc, cfg_of_exec hx] at hsec
      rw [ha]
      exact hsec
    · exact hstill (.inl ho) a (by simpa using ha)

/-- Settles O8: the fewest ticks of a healthy oscillator are one, the most are 59, so that the samples differ. -/
theorem sclkRunningConfirmedWhenOscillatorHealthy : Obligations.SclkRunningConfirmedWhenOscillatorHealthy := by
  intro s hc hq hn hhealthy hs
  obtain ⟨hforeign, -⟩ := id hn
  obtain ⟨-, -, -, -, -, -, hmin, hminmax, hmax⟩ := id hc
  obtain ⟨t, hx, hmem, hs1, hs2, hrsp, hbus, hsettle⟩ := exec_sclk .running hq
  have hlow : 1 ≤ min (s.settleDraw 0).ticks s.cfg.settleTicksMax := by
    have hticks : s.cfg.settleTicksMin ≤ (s.settleDraw 0).ticks := hhealthy
    omega
  have ho : (s.oscWritten .running).sampleS1.oscEn = true := first_sample_oscEn .running hc hn
  have hcv : (s.oscWritten .running).sampleS1.cfg.Legal := by simpa using hc
  have hwithin := first_sample_within .running hc hn hs
  have haged := aged_ticks hcv (min (s.settleDraw 0).ticks s.cfg.settleTicksMax)
  have hwait := hmem.trans (second_sample_running hc hn)
  have hreg (r : RtcReg) := rtc_congr hwait ((cfg_of_exec hx).trans (haged.cfg.trans (by simp)).symm) r
  refine ⟨t, hx, blockFrame_of_exec hx, ?_, ?_, hbus, hsettle, exec_sclk_frame hc hn hx, fun hg => ?_⟩
  · have hdiffer : t.s1 ≠ t.s2 := by
      rw [hs1, hs2, hreg]
      exact fun h => ticks_change_seconds hcv ho hwithin hlow (by omega) (secondsSample_eq_iff.mp h).symm
    rw [hrsp, if_pos (by simpa [confirms] using hdiffer)]
  · rw [State.oscEn, hreg]
    exact haged.osc.trans ho
  · have hfirst := first_sample_mem (d := .running) hn (.inr hg)
    have hread : fieldOf .second ((s.oscWritten .running).sampleS1.rtc .sec) = fieldOf .second (s.gap.rtc .sec) := by
      rw [rtc_congr hfirst (by simp), fieldOf_congr (f := .second) (oscWritten_seconds .running s)]
    refine ⟨?_, fun hstill hminute a ha => ?_⟩
    · rw [hreg, ticks_second hcv ho hwithin, hread]
    · rw [State.Still.gap hstill (by omega) (hforeign 0 (by omega))] at hread
      have hbelow := ticks_below_wrap hcv ho hwithin (by rw [hread]; exact hminute) a (by simpa using ha)
      rw [hwait, hbelow, hfirst]
      exact oscWritten_still hc (fun k hk => hforeign k (by omega)) hstill a ha

/-- A dead oscillator leaves the samples equal, and the bit as written. -/
theorem sclk_dead_oscillator {s : State} (hc : s.cfg.Legal) (hq : s.NoFailure 4) (hn : s.NoOtherBusMaster 4)
    (hticks : (s.settleDraw 0).ticks = 0) :
    ∃ t, exec (.rtcSclk .running) s = .next t ∧ s.BlockFrame t ∧ t.rsp = 0x0300000000000002 ∧ t.oscEn = true ∧
      s.SameOutside t (timeKeys s.cfg) ∧
      (s.NoGapTick 2 3 → t.rtc .sec = (s.gap.rtc .sec &&& 0x7F) ||| 0x80 ∧
        (s.oscEn = false ∨ s.NoGapTick 0 2 → s.SameOutside t [rtcKey s.cfg .sec])) := by
  obtain ⟨hforeign, -⟩ := id hn
  obtain ⟨t, hx, hmem, hs1, hs2, hrsp, -, -⟩ := exec_sclk .running hq
  have hsecond := hmem.trans (second_sample_mem hc hn (.inr hticks))
  have hcfg : t.cfg = s.cfg := cfg_of_exec hx
  have hreg (r : RtcReg) : t.rtc r = (s.oscWritten .running).sampleS1.rtc r :=
    rtc_congr hsecond (hcfg.trans (by simp)) r
  refine ⟨t, hx, blockFrame_of_exec hx, ?_, ?_, exec_sclk_frame hc hn hx, fun hg => ⟨?_, fun hstill a ha => ?_⟩⟩
  · rw [hrsp, if_neg (by simp [confirms, hs1, hs2, hreg])]
  · rw [State.oscEn, hreg]
    exact first_sample_oscEn .running hc hn
  · rw [hreg, rtc_congr (first_sample_mem hn (.inr hg)) (by simp), oscWritten_sec, mergeBits_osc, if_pos rfl]
  · rw [hsecond, first_sample_mem hn (.inr hg)]
    exact oscWritten_still hc (fun k hk => hforeign k (by omega)) hstill a ha

/-- A device that writes `SEC` while the clock is stopped: the second sample is the byte it wrote. -/
theorem sclk_disturbed {s : State} (hq : s.NoFailure 4) (hforeign : ∀ k < 4, (s.busDraw k).foreign = [])
    {b : Byte} (hb : (s.settleDraw 0).foreign = [(rtcKey s.cfg .sec, b)]) :
    ∃ t, exec (.rtcSclk .stopped) s = .next t ∧ s.BlockFrame t ∧
      t.rsp = (if b &&& 0x7F = s.gap.rtc .sec &&& 0x7F then 0 else 0x0300000000000002) := by
  obtain ⟨t, hx, hmem, hs1, hs2, hrsp, -, -⟩ := exec_sclk .stopped hq
  have hfirst : (s.oscWritten .stopped).sampleS1.mem = (s.oscWritten .stopped).mem :=
    sampleS1_still_mem (.inl (oscWritten_oscEn .stopped s)) (by rw [oscWritten_busDraw]; exact hforeign 2 (by omega))
  have hs1' : t.s1 = secondsSample (s.gap.rtc .sec) := by
    rw [hs1, rtc_congr hfirst (by simp), secondsSample_osc]
  have hs2' : t.s2 = secondsSample b := by
    have ho : (s.oscWritten .stopped).sampleS1.oscEn = false :=
      (oscEn_congr hfirst (by simp)).trans (oscWritten_oscEn .stopped s)
    rw [settle_stopped_foreign ho] at hmem
    simp only [sampleS1_settleDraw, oscWritten_settleDraw, hb] at hmem
    rw [hs2, State.rtc, cfg_of_exec hx, hmem]
    exact congrArg secondsSample (read_write_same _ _ _)
  refine ⟨t, hx, blockFrame_of_exec hx, ?_⟩
  rw [hrsp]
  refine if_congr ?_ rfl rfl
  rw [hs1', hs2', ← secondsSample_eq_iff]
  exact beq_iff_eq.trans eq_comm

/-- Settles O9: with a dead oscillator, on every device, and on one that does not conform. -/
theorem sclkUnconfirmedFaultsWithoutRollback : Obligations.SclkUnconfirmedFaultsWithoutRollback := by
  refine ⟨fun s hc hq hn hticks => sclk_dead_oscillator hc hq hn hticks, fun s d hq => ?_,
    fun s b _ hq hforeign hb => sclk_disturbed hq hforeign hb⟩
  obtain ⟨t, hx, -, -, hs2, hrsp, -, -⟩ := exec_sclk d hq
  refine ⟨t, hx, blockFrame_of_exec hx, hs2, ?_⟩
  rw [hrsp]
  cases d with
  | running => by_cases h : t.s1 = t.s2 <;> simp [confirms, h]
  | stopped => by_cases h : t.s1 = t.s2 <;> simp [confirms, h]

/-! ### RTC.SCLK with a failing transaction (R158 corner case (c)) -/

section Failures
variable {s : State} (d : ClockState)

theorem exec_sclk_readFails (h0 : (s.busDraw 0).fails = true) :
    ∃ t, exec (.rtcSclk d) s = .next t ∧ t.mem = s.gap.mem := by
  have hd := doSteps_rmwBits_readFails (s := s.accept 0x21 0) h0 .sec maskOsc (oscByte d) (tickVerify d)
  exact ⟨_, exec_raise (i := .rtcSclk d) rfl hd, by simp⟩

theorem exec_sclk_writeFails (h0 : (s.busDraw 0).fails = false) (h1 : (s.busDraw 1).fails = true) :
    ∃ t, exec (.rtcSclk d) s = .next t ∧
      t.mem = ((s.accept 0x21 0).remember .sec).gap.mem.write (rtcKey s.cfg .sec) (s.busDraw 1).lo := by
  have hd := doSteps_rmwBits_writeFails (s := s.accept 0x21 0) h0 h1 .sec maskOsc (oscByte d) (tickVerify d)
  exact ⟨_, exec_raise (i := .rtcSclk d) rfl hd, by simp⟩

theorem exec_sclk_firstSampleFails (hq : s.NoFailure 2) (h2 : (s.busDraw 2).fails = true) :
    ∃ t, exec (.rtcSclk d) s = .next t ∧ t.mem = (s.oscWritten d).sampleS1.mem := by
  have hwritten := doSteps_rmwBits (s := s.accept 0x21 0) (w := oscWrite d) maskOsc_ne_full hq (tickVerify d)
  have hsample := doSteps_raise (fs := [waitSettle, sampleSecond d]) (f := sampleFirst)
    (readReg_failed (s := s.oscWritten d) (by rwa [oscWritten_busDraw]) .sec _)
  exact ⟨_, exec_raise (i := .rtcSclk d) rfl (hwritten.trans hsample), by simp⟩

theorem exec_sclk_secondSampleFails (hq : s.NoFailure 3) (h3 : (s.busDraw 3).fails = true) :
    ∃ t, exec (.rtcSclk d) s = .next t ∧ t.mem = (s.oscWritten d).sampleS1.settle.mem := by
  have hwritten := doSteps_rmwBits (s := s.accept 0x21 0) (w := oscWrite d) maskOsc_ne_full
    (fun k hk => hq k (by omega)) (tickVerify d)
  have hfirst := doSteps_sampleFirst (s := s.oscWritten d) (by rw [oscWritten_busDraw]; exact hq 2 (by omega))
    [waitSettle, sampleSecond d]
  have hfails : ((s.oscWritten d).sampleS1.settle.advance.busDraw 0).fails = true := by simpa using h3
  have hsecond := sampleSecond_spec d (s.oscWritten d).sampleS1.settle.advance
  rw [if_pos hfails] at hsecond
  have hsteps := (hwritten.trans hfirst).trans ((doSteps_waitSettle [sampleSecond d]).trans (doSteps_raise hsecond))
  exact ⟨_, exec_raise (i := .rtcSclk d) rfl hsteps, by simp⟩

end Failures

/-- After a sample that fails only time has passed since the write, and none where the clock is stopped or no tick falls. -/
theorem sclk_sampleFails_spec {s : State} {d : ClockState} {k : Nat} (hc : s.cfg.Legal) (hn : s.NoOtherBusMaster 4)
    (hk2 : 2 ≤ k) (hk4 : k < 4) (hq : s.NoFailure k) (hf : (s.busDraw k).fails = true) :
    ∃ t, exec (.rtcSclk d) s = .next t ∧ t.oscEn = decide (d = .running) ∧
      (d = .stopped ∨ (s.NoGapTick 2 3 ∧ (k = 2 ∨ (s.settleDraw 0).ticks = 0)) → t.mem = (s.oscWritten d).mem) := by
  have hwritten := oscWritten_oscEn d s
  obtain rfl | rfl : k = 2 ∨ k = 3 := by omega
  · obtain ⟨t, hx, hmem⟩ := exec_sclk_firstSampleFails d hq hf
    have hcfg : t.cfg = s.cfg := cfg_of_exec hx
    refine ⟨t, hx, ?_, fun h => ?_⟩
    · exact (oscEn_congr hmem (hcfg.trans (by simp))).trans (first_sample_oscEn d hc hn)
    · rw [hmem, first_sample_mem hn (h.imp_right And.left)]
  · obtain ⟨t, hx, hmem⟩ := exec_sclk_secondSampleFails d hq hf
    have hcfg : t.cfg = s.cfg := cfg_of_exec hx
    refine ⟨t, hx, ?_, fun h => ?_⟩
    · exact (oscEn_congr hmem (hcfg.trans (by simp))).trans ((drifted_second_sample d hc hn).osc.trans hwritten)
    · rw [hmem, second_sample_mem hc hn (h.imp_right fun ⟨_, hwait⟩ => by simpa using hwait),
        first_sample_mem hn (h.imp_right And.left)]

/-- Settles O10, by the transaction that fails: the read, the write, or one of the two samples. -/
theorem sclkBusFailureLeavesWhatWasWritten : Obligations.SclkBusFailureLeavesWhatWasWritten := by
  intro s d k hc hn hk hq hf
  obtain ⟨hforeign, -⟩ := id hn
  have hf0 := hforeign 0 (by omega)
  obtain ⟨t, hx, -⟩ := exec_blockFrame (.rtcSclk d) s
  have hcfg : t.cfg = s.cfg := cfg_of_exec hx
  obtain ⟨htaken, hrsp⟩ := exec_first_failure (i := .rtcSclk d) (p := 0) rfl rfl hk hq hf hx
  refine ⟨t, hx, blockFrame_of_exec hx, hrsp, htaken, ?_, ?_, ?_, exec_sclk_frame hc hn hx⟩
  · rintro rfl
    obtain ⟨u, hu, hmem⟩ := exec_sclk_readFails d hf
    obtain rfl := Host.Outcome.next.inj (hu.symm.trans hx)
    refine ⟨?_, fun h a _ => ?_⟩
    · rw [rtc_congr hmem (hcfg.trans (gap_cfg s).symm)]
      exact (drifted_gap hc hf0).kept .sec
    · rw [hmem, State.Still.gap h (by omega) hf0]
  · rintro rfl
    obtain ⟨u, hu, hmem⟩ := exec_sclk_writeFails d (hq 0 (by omega)) hf
    obtain rfl := Host.Outcome.next.inj (hu.symm.trans hx)
    obtain ⟨-, hstill⟩ := remember_gap_spec (s := s.accept 0x21 0) hc hf0 (hforeign 1 (by omega)) .sec
    refine ⟨?_, fun h a ha => ?_⟩
    · rw [State.rtc, hcfg, hmem, read_write_same]
    · rw [hmem, read_write_ne _ _ (List.ne_of_not_mem_cons ha), hstill h]
      rfl
  · intro hk2
    obtain ⟨u, hu, hosc, hmem⟩ := sclk_sampleFails_spec (d := d) hc hn hk2 hk hq hf
    obtain rfl := Host.Outcome.next.inj (hu.symm.trans hx)
    refine ⟨by simp [hosc], fun h => ⟨?_, fun hstill a ha => ?_⟩⟩
    · rw [rtc_congr (hmem h) (hcfg.trans (by simp)), oscWritten_sec, mergeBits_osc]
    · rw [hmem h]
      exact oscWritten_still hc (fun j hj => hforeign j (by omega)) hstill a ha

end Sys2Proof.Machine
end

section
/-! PROOFS. The date and time commands (42_rtc.md R151 to R156, R161 to R163, R166): the calendar check, the six reads of
RTC.GDT, the nine transactions of RTC.SDT and RTC.RST on a stopped clock. -/

namespace Sys2Proof.Machine

/-! ### The calendar (R155, R156) -/

/-- Settles O55, month by month; only February depends on the year. -/
theorem daysInMonthFollowsTheTable : Obligations.DaysInMonthFollowsTheTable := by
  intro y _ _
  have hfebruary : daysInMonth y 2 = if y % 4 = 0 then 29 else 28 := by simp [daysInMonth, isLeap]
  rw [← hfebruary]
  rfl

theorem errResponse_range (d : RangeDetail) : errResponse (.range d) = (0x01 : Byte) ++ (0 : BitVec 48) ++ rangeCode d := by
  cases d <;> decide

/-- An operand the calendar check refuses changes nothing but the response. -/
theorem exec_sdt_refused {s : State} {dt : DateTime} {d : RangeDetail} (h : checkDateTime dt = .error (.range d)) :
    exec (.rtcSdt dt) s = .next { s with rsp := errResponse (.range d), busy := false, seq := .idle } := by
  have hstart : (commandOf (.rtcSdt dt)).start s.cfg = .error (.range d) := by simp [commandOf, rtcSdt, h]
  rw [exec_eq_run, runCommand_error hstart]
  rfl

/-- Settles O16, by the first check that fails. -/
theorem sdtReportsFirstRangeErrorAndTouchesNothing : Obligations.SdtReportsFirstRangeErrorAndTouchesNothing := by
  intro s dt k hk
  obtain ⟨d, hcheck, rfl⟩ : ∃ d, checkDateTime dt = .error (.range d) ∧ rangeCode d = k := by
    unfold checkDateTime
    split_ifs at hk ⊢ <;> exact ⟨_, rfl, Option.some.inj hk⟩
  rw [exec_sdt_refused hcheck, errResponse_range]

/-! ### The reads of RTC.GDT (R152, R161) -/

/-- What the reads of these fields answer, the first of them being transaction number `k` and `a` the result so far, where the
registers do not change meanwhile. -/
def State.fieldsAnswer (s : State) : Nat → List TimeField → Payload → Word
  | _, [], a => okResponse a
  | k, f :: fs, a =>
    if (s.busDraw k).fails then 0x0300000000000001
    else if ¬ isBcd (s.rtc (fieldReg f) &&& fieldMask f) then errResponse (.format (.field f))
    else s.fieldsAnswer (k + 1) fs (a ||| fieldResult f (bcdValue (s.rtc (fieldReg f) &&& fieldMask f)))

/-- How many transactions have been made when the reads of these fields end, the first being number `k`. -/
def State.fieldsRead (s : State) : Nat → List TimeField → Nat
  | k, [] => k
  | k, f :: fs =>
    if (s.busDraw k).fails ∨ ¬ isBcd (s.rtc (fieldReg f) &&& fieldMask f) then k + 1 else s.fieldsRead (k + 1) fs

/-- After the read of a field whose result is `a`. -/
def State.accumulate (s : State) (a : Payload) : State := { s.takeBus with acc := s.acc ||| a }

section Accumulate
variable (s : State) (a : Payload)

@[simp] theorem accumulate_mem : (s.accumulate a).mem = s.mem := rfl
@[simp] theorem accumulate_cfg : (s.accumulate a).cfg = s.cfg := rfl
@[simp] theorem accumulate_acc : (s.accumulate a).acc = s.acc ||| a := rfl
@[simp] theorem accumulate_taken : (s.accumulate a).env.bus.taken = s.env.bus.taken + 1 := rfl
@[simp] theorem accumulate_busDraw (k : Nat) : (s.accumulate a).busDraw k = s.busDraw (k + 1) := takeBus_busDraw s k

end Accumulate

/-- A read of a field in a gap without a tick. -/
theorem readField_still {s : State} (h : s.Still 1) (hf : (s.busDraw 0).foreign = []) (f : TimeField) :
    readField f s =
      if (s.busDraw 0).fails then (s.takeBus, some busFault)
      else if ¬ isBcd (s.rtc (fieldReg f) &&& fieldMask f) then (s.takeBus, some (.format (.field f)))
      else (s.accumulate (fieldResult f (bcdValue (s.rtc (fieldReg f) &&& fieldMask f))), none) := by
  rw [readField, readReg_still (h.imp_right fun hg => hg 0 (by omega) (by omega)) hf]
  by_cases hb : isBcd (s.rtc (fieldReg f) &&& fieldMask f) = true
  · simp only [bcdDecode_ok _ hb, if_neg (not_not.mpr hb)]
    rfl
  · simp only [bcdDecode_error _ hb, if_pos hb]

/-- The answer and the transactions of the reads, from a state `u` that has read the first `k` fields of `s`. -/
theorem doSteps_readFields {s u : State} {k : Nat} {fs : List TimeField} (hmem : u.mem = s.mem) (hcfg : u.cfg = s.cfg)
    (hdraw : ∀ j, u.busDraw j = s.busDraw (j + k)) (htaken : u.env.bus.taken = s.env.bus.taken + k)
    (hstill : s.Still (k + fs.length)) (hforeign : ∀ j < k + fs.length, (s.busDraw j).foreign = []) :
    ∃ v e, doSteps (fs.map readField) u = (v, e) ∧ v.mem = s.mem ∧
      (match e with | none => okResponse v.acc | some e => raisedResponse false e) = s.fieldsAnswer k fs u.acc ∧
      v.env.bus.taken = s.env.bus.taken + s.fieldsRead k fs := by
  induction fs generalizing u k with
  | nil => exact ⟨u, none, rfl, hmem, rfl, htaken⟩
  | cons f fs ih =>
    simp only [List.length_cons] at hstill hforeign
    have hu : u.Still 1 := hstill.imp (fun ho => (oscEn_congr hmem hcfg).trans ho) fun hg j hj _ => by
      rw [hdraw]
      exact hg _ (by omega) (by omega)
    have hread := readField_still hu (by rw [hdraw]; exact hforeign _ (by omega)) f
    rw [hdraw, Nat.zero_add, rtc_congr hmem hcfg] at hread
    rw [List.map_cons, State.fieldsAnswer, State.fieldsRead]
    cases hfail : (s.busDraw k).fails with
    | true =>
      rw [if_pos hfail] at hread
      refine ⟨_, _, doSteps_raise hread, hmem, ?_, ?_⟩
      · simp [raisedResponse_false]
      · simp [htaken, Nat.add_assoc]
    | false =>
      rw [if_neg (by simp [hfail])] at hread
      by_cases hb : isBcd (s.rtc (fieldReg f) &&& fieldMask f) = true
      · rw [if_neg (by simp [hb])] at hread
        obtain ⟨v, e, hv, hvmem, hans, hvtaken⟩ := ih (k := k + 1)
          (u := (u.accumulate (fieldResult f (bcdValue (s.rtc (fieldReg f) &&& fieldMask f)))).advance)
          (by simpa using hmem) (by simpa using hcfg)
          (fun j => by simp [hdraw, Nat.add_right_comm j 1 k, Nat.add_assoc])
          (by simp [htaken, Nat.add_assoc]) (by rwa [Nat.add_right_comm]) (fun j hj => hforeign j (by omega))
        refine ⟨v, e, (doSteps_ok hread).trans hv, hvmem, ?_, ?_⟩
        · rw [hans]
          simp [hb]
        · rw [hvtaken]
          simp [hb]
      · rw [if_pos hb] at hread
        refine ⟨_, _, doSteps_raise hread, hmem, ?_, ?_⟩
        · simp [hb, raisedResponse_false]
        · simp [hb, htaken, Nat.add_assoc]

/-- The fields in the order RTC.GDT reads them. -/
def gdtFields : List TimeField := [.second, .minute, .hour, .day, .month, .year]

/-- RTC.GDT without a tick before its last read. -/
theorem exec_gdt {s : State} (hforeign : ∀ k < 6, (s.busDraw k).foreign = []) (hstill : s.Still 6) :
    ∃ t, exec .rtcGdt s = .next t ∧ t.mem = s.mem ∧ t.rsp = s.fieldsAnswer 0 gdtFields 0 ∧
      t.env.bus.taken = s.env.bus.taken + s.fieldsRead 0 gdtFields := by
  obtain ⟨v, e, hd, hmem, hans, htaken⟩ := doSteps_readFields (s := s) (u := s.accept 0x24 0) (k := 0) (fs := gdtFields)
    rfl rfl (fun _ => rfl) rfl hstill hforeign
  cases e with
  | none => exact ⟨_, exec_ok (i := .rtcGdt) rfl hd, hmem, hans, htaken⟩
  | some e => exact ⟨_, exec_raise (i := .rtcGdt) rfl hd, hmem, hans, htaken⟩

theorem bcdValue_lt (b : Byte) : bcdValue b < 256 := by
  have hb := b.isLt
  rw [bcdValue_eq]
  omega

theorem byte_and_full (b : Byte) : b &&& 0xFF = b := BitVec.and_allOnes

/-- The six results stand in different bits of the response (30_encoding.md R102). -/
theorem okResponse_or (y : BitVec 16) (mo d h mi s : Byte) :
    okResponse ((0 : Payload) ||| s.setWidth 56 ||| mi.setWidth 56 <<< 8 ||| h.setWidth 56 <<< 16 ||| d.setWidth 56 <<< 24 |||
      mo.setWidth 56 <<< 32 ||| y.setWidth 56 <<< 40) = (0 : Byte) ++ y ++ mo ++ d ++ h ++ mi ++ s := by
  apply BitVec.eq_of_getLsbD_eq
  intro k hk
  simp only [okResponse, responseWord, statusCode, BitVec.getLsbD_append, BitVec.getLsbD_or, BitVec.getLsbD_shiftLeft,
    BitVec.getLsbD_setWidth]
  interval_cases k <;> simp

theorem okResponse_fieldResults {y mo d h mi s : Nat} (hy : y < 256) (hmo : mo < 256) (hd : d < 256) (hh : h < 256)
    (hmi : mi < 256) (hs : s < 256) :
    okResponse ((0 : Payload) ||| fieldResult .second s ||| fieldResult .minute mi ||| fieldResult .hour h |||
      fieldResult .day d ||| fieldResult .month mo ||| fieldResult .year y) =
      (0 : Byte) ++ BitVec.ofNat 16 (2000 + y) ++ BitVec.ofNat 8 mo ++ BitVec.ofNat 8 d ++ BitVec.ofNat 8 h ++
        BitVec.ofNat 8 mi ++ BitVec.ofNat 8 s := by
  have hbyte {n : Nat} (hn : n < 256) : BitVec.ofNat 56 n = (BitVec.ofNat 8 n).setWidth 56 :=
    (BitVec.setWidth_ofNat_of_le_of_lt (by decide) hn).symm
  have hyear : BitVec.ofNat 56 (2000 + y) = (BitVec.ofNat 16 (2000 + y)).setWidth 56 :=
    (BitVec.setWidth_ofNat_of_le_of_lt (by decide) (by omega)).symm
  rw [← okResponse_or]
  simp only [fieldResult, hbyte hs, hbyte hmi, hbyte hh, hbyte hd, hbyte hmo, hyear]

theorem errResponse_field (f : TimeField) : errResponse (.format (.field f)) =
    match f with
    | .second => 0x0200000000000010
    | .minute => 0x0200000000000011
    | .hour => 0x0200000000000012
    | .day => 0x0200000000000013
    | .month => 0x0200000000000014
    | .year => 0x0200000000000015 := by
  cases f <;> decide

/-- Settles O15: the fields are read in turn, each checked as it is read. -/
theorem gdtAnswersFieldsOrFirstError : Obligations.GdtAnswersFieldsOrFirstError := by
  refine ⟨by decide, fun s hc ⟨hforeign, _⟩ hstill => ?_⟩
  obtain ⟨t, hx, hmem, hrsp, htaken⟩ := exec_gdt hforeign hstill
  refine ⟨t, hx, blockFrame_of_exec hx, fun a _ => by rw [hmem], ?_, ?_⟩
  · rw [hrsp]
    simp only [gdtFields, State.fieldsAnswer, errResponse_field, fieldReg, fieldMask, byte_and_full]
    rw [okResponse_fieldResults (bcdValue_lt _) (bcdValue_lt _) (bcdValue_lt _) (bcdValue_lt _) (bcdValue_lt _)
      (bcdValue_lt _)]
  · rw [htaken]
    simp only [gdtFields, State.fieldsRead, fieldReg, fieldMask, byte_and_full, ite_self]

/-! ### The registers after field writes without a tick -/

/-- What a field write makes of the byte of register `r`. -/
def FieldWrite.onReg (r : RtcReg) (b : Byte) (w : FieldWrite) : Byte :=
  if w.reg = r then mergeBits b w.mask w.value else b

/-- Field writes done at once, one register at a time. -/
theorem read_foldl_apply {c : Config} (hc : c.Legal) (l : List FieldWrite) (m : Memory) (r : RtcReg) :
    (l.foldl (FieldWrite.apply c) m).read (rtcKey c r) = l.foldl (FieldWrite.onReg r) (m.read (rtcKey c r)) := by
  induction l generalizing m with
  | nil => rfl
  | cons w l ih =>
    rw [List.foldl_cons, List.foldl_cons, ih, FieldWrite.apply, FieldWrite.onReg, read_write]
    by_cases hr : w.reg = r
    · rw [if_pos hr, if_pos (by rw [hr]), hr]
    · rw [if_neg hr, if_neg (mt (rtcKey_inj hc).mp (Ne.symm hr))]

/-- The registers after field writes without a tick in their gaps. -/
theorem writeFields_rtc {s : State} {l : List FieldWrite} (h : s.Still (writesCost l)) (hc : s.cfg.Legal)
    (hf : ∀ k < writesCost l, (s.busDraw k).foreign = [])
    (hl : ∀ w ∈ l, w.reg = .sec → (w.value &&& w.mask).getLsbD 7 = false) (r : RtcReg) :
    (l.foldl State.writeField s).rtc r = l.foldl (FieldWrite.onReg r) (s.rtc r) := by
  rw [State.rtc, writeFields_cfg, writeFields_mem h hc hf hl]
  exact read_foldl_apply hc l s.mem r

theorem not_fieldMask (f : TimeField) : ~~~fieldMask f = preservedMask (fieldReg f) := by cases f <;> decide

/-- Of the old byte a field write takes the preserved bits only. -/
theorem putField_congr {f : TimeField} {a b : Byte} (v : Nat)
    (h : a &&& preservedMask (fieldReg f) = b &&& preservedMask (fieldReg f)) : putField f a v = putField f b v := by
  rw [putField, putField, mergeBits, mergeBits, not_fieldMask, h]

theorem putField_eq {f : TimeField} {v : Nat} (b : Byte) (h : v ≤ fieldMax f) :
    putField f b v = (b &&& preservedMask (fieldReg f)) ||| bcdByte v := by
  rw [putField, mergeBits, not_fieldMask, bcdByte_fits h]

/-! ### RTC.SDT (R162) -/

/-- The write of one field, its values being `v`. -/
def fieldWrite (v : TimeField → Nat) (f : TimeField) : FieldWrite := ⟨fieldReg f, fieldMask f, bcdByte (v f)⟩

/-- The writes of the fields after the seconds, in their fixed order. -/
def laterWrites (v : TimeField → Nat) : List FieldWrite :=
  [TimeField.minute, .hour, .day, .month, .year].map (fieldWrite v)

/-- The writes of the six fields in their fixed order. -/
def fieldWrites (v : TimeField → Nat) : List FieldWrite := fieldWrite v .second :: laterWrites v

theorem dateTimeSteps_eq (dt : DateTime) : dateTimeSteps dt = writeSteps (fieldWrites (dateTimeField dt)) := rfl

theorem fieldWrites_cost (v : TimeField → Nat) : writesCost (fieldWrites v) = 9 := rfl

theorem laterWrites_cost (v : TimeField → Nat) : writesCost (laterWrites v) = 7 := rfl

theorem secondWrite_cost (v : TimeField → Nat) : (fieldWrite v .second).cost = 2 := rfl

/-- The later writes leave `SEC` alone and write each its own register. -/
theorem laterWrites_onReg (v : TimeField → Nat) (f : TimeField) (b : Byte) :
    (laterWrites v).foldl (FieldWrite.onReg (fieldReg f)) b = if f = .second then b else putField f b (v f) := by
  cases f <;> rfl

theorem laterWrites_reg {v : TimeField → Nat} {w : FieldWrite} (h : w ∈ laterWrites v) : w.reg ≠ .sec := by
  obtain ⟨f, hf, rfl⟩ := List.mem_map.mp h
  fin_cases hf <;> simp [fieldWrite, fieldReg]

/-- Where no tick falls after the first write, each time register holds its field with its preserved bits as they were. -/
theorem fieldWrites_registers {s : State} {v : TimeField → Nat} (hc : s.cfg.Legal)
    (hforeign : ∀ k < 9, (s.busDraw k).foreign = []) (hstill : s.oscEn = false ∨ s.NoGapTick 2 9) (f : TimeField) :
    ((fieldWrites v).foldl State.writeField s).rtc (fieldReg f) = putField f (s.rtc (fieldReg f)) (v f) := by
  have hfirst : ∀ k < (fieldWrite v .second).cost, (s.busDraw k).foreign = [] := fun k hk =>
    hforeign k (by rw [secondWrite_cost] at hk; omega)
  have hkept (r : RtcReg) := writeField_kept (w := fieldWrite v .second) hc hfirst (r := r)
    (by rintro rfl; exact dateTimeFields_mask _ List.mem_cons_self)
  have hlater : (s.writeField (fieldWrite v .second)).Still (writesCost (laterWrites v)) :=
    hstill.imp (fun ho => (bit7_eq_of_and (hkept .sec)).trans ho) fun hg k hk _ => by
      rw [laterWrites_cost] at hk
      rw [writeField_busDraw, secondWrite_cost]
      exact hg (k + 2) (by omega) (by omega)
  have hvalues := writeFields_rtc hlater (by simpa using hc)
    (fun k hk => by
      rw [laterWrites_cost] at hk
      rw [writeField_busDraw, secondWrite_cost]
      exact hforeign (k + 2) (by omega))
    (fun w hw hr => absurd hr (laterWrites_reg hw)) (fieldReg f)
  rw [laterWrites_onReg] at hvalues
  rw [fieldWrites, List.foldl_cons, hvalues]
  by_cases hf : f = .second
  · subst hf
    obtain ⟨u, o, -, ho, hmem, -⟩ := writeField_spec (w := fieldWrite v .second) hc hfirst
    rw [if_pos rfl, State.rtc, writeField_cfg, hmem]
    exact (read_write_same _ _ _).trans (putField_congr (f := .second) _ ho)
  · rw [if_neg hf]
    exact putField_congr _ (hkept _)

/-! ### RTC.SDT (R162) -/

theorem daysInMonth_le (y m : Nat) : daysInMonth y m ≤ 31 := by
  unfold daysInMonth
  split <;> try omega
  split <;> omega

/-- The fields of a legal date-time fit their registers. -/
theorem dateTimeField_le {dt : DateTime} (h : DateTimeLegal dt) (f : TimeField) : dateTimeField dt f ≤ fieldMax f := by
  obtain ⟨hy1, hy2, hm1, hm2, hd1, hd2, hh, hmin, hs⟩ := h
  have hdays := daysInMonth_le dt.year dt.month
  cases f with
  | second => exact (by omega : dt.second ≤ 79)
  | minute => exact (by omega : dt.minute ≤ 99)
  | hour => exact (by omega : dt.hour ≤ 39)
  | day => exact (by omega : dt.day ≤ 99)
  | month => exact (by omega : dt.month ≤ 19)
  | year => exact (by omega : dt.year - 2000 ≤ 99)

/-- RTC.SDT with a legal operand and no failing transaction. -/
theorem exec_sdt {s : State} {dt : DateTime} (hdt : DateTimeLegal dt) (hq : s.NoFailure 9) :
    exec (.rtcSdt dt) s =
      .next (((fieldWrites (dateTimeField dt)).foldl State.writeField (s.accept 0x25 0)).respond 0) := by
  have hd : doSteps (dateTimeSteps dt) (s.accept 0x25 0) =
      ((fieldWrites (dateTimeField dt)).foldl State.writeField (s.accept 0x25 0), none) := by
    rw [dateTimeSteps_eq]
    exact doSteps_writeSteps (by rwa [fieldWrites_cost])
  rw [exec_ok (i := .rtcSdt dt) (rtcSdt_start_ok hdt _) hd, writeFields_acc, accept_acc, okResponse_zero]

/-- Where no tick falls after the first write each register holds its field, the preserved bits as they were. -/
theorem sdt_registers {s t : State} {dt : DateTime} (hc : s.cfg.Legal) (hdt : DateTimeLegal dt) (hq : s.NoFailure 9)
    (hforeign : ∀ k < 9, (s.busDraw k).foreign = []) (hstill : s.oscEn = false ∨ s.NoGapTick 2 9)
    (hx : exec (.rtcSdt dt) s = .next t) (f : TimeField) :
    t.rtc (fieldReg f) = putField f (s.rtc (fieldReg f)) (dateTimeField dt f) := by
  have ht := Host.Outcome.next.inj ((exec_sdt hdt hq).symm.trans hx)
  rw [← ht, respond_rtc, fieldWrites_registers (s := s.accept 0x25 0) hc hforeign hstill f, accept_rtc]

theorem sdt_taken {s t : State} {dt : DateTime} (hdt : DateTimeLegal dt) (hq : s.NoFailure 9)
    (hx : exec (.rtcSdt dt) s = .next t) : t.env.bus.taken = s.env.bus.taken + 9 := by
  have ht := Host.Outcome.next.inj ((exec_sdt hdt hq).symm.trans hx)
  rw [← ht, respond_env, writeFields_taken, fieldWrites_cost, accept_env]

/-- A register without preserved bits. -/
theorem and_zero_or (a b : Byte) : (a &&& 0x00) ||| b = b := by simp

/-- Settles O17: each field write keeps the preserved bits, and without a tick no later one touches its register. -/
theorem sdtWritesSixFieldsPreservingBits : Obligations.SdtWritesSixFieldsPreservingBits := by
  intro s dt hc hdt hq hn
  have hx := exec_sdt hdt hq
  refine ⟨_, hx, blockFrame_of_exec hx, rfl, sdt_taken hdt hq hx, fun a ha => ?_, ?_, fun hstill => ?_⟩
  · exact exec_sameOutside (i := .rtcSdt dt) hc hn hx ha ha
  · exact exec_oscEn (i := .rtcSdt dt) hc hq hn (fun _ => by simp) (by simp) hx
  · obtain ⟨hforeign, -⟩ := hn
    have hreg (f : TimeField) := (sdt_registers hc hdt hq hforeign hstill hx f).trans
      (putField_eq _ (dateTimeField_le hdt f))
    simp only [bcdByte_eq] at hreg
    exact ⟨hreg .second, (hreg .minute).trans (and_zero_or _ _), hreg .hour, (hreg .day).trans (and_zero_or _ _),
      hreg .month, (hreg .year).trans (and_zero_or _ _)⟩

/-! ### RTC.SDT, then RTC.GDT (R166) -/

/-- Reads that do not fail, of fields that hold BCD, answer their values. -/
theorem fieldsAnswer_ok {s : State} {v : TimeField → Nat} {k : Nat} {fs : List TimeField} (a : Payload)
    (hq : ∀ j < fs.length, (s.busDraw (k + j)).fails = false)
    (hbcd : ∀ f, isBcd (s.rtc (fieldReg f) &&& fieldMask f) = true)
    (hv : ∀ f, bcdValue (s.rtc (fieldReg f) &&& fieldMask f) = v f) :
    s.fieldsAnswer k fs a = okResponse (fs.foldl (fun a f => a ||| fieldResult f (v f)) a) := by
  induction fs generalizing k a with
  | nil => rfl
  | cons f fs ih =>
    have hfirst : (s.busDraw k).fails = false := hq 0 (by simp)
    rw [State.fieldsAnswer, if_neg (by simp [hfirst]), if_neg (by simp [hbcd]), hv, List.foldl_cons]
    exact ih _ fun j hj => by
      rw [Nat.add_assoc, Nat.add_comm 1 j]
      exact hq (j + 1) (by simpa using hj)

/-- Settles O18: the draws RTC.GDT takes are those after RTC.SDT's nine, and its fields hold the date-time set. -/
theorem sdtThenGdtReturnsSameDateTime : Obligations.SdtThenGdtReturnsSameDateTime := by
  intro s t dt hc hdt hq ⟨hforeign, hsettle⟩ hstill hx
  have hq9 : s.NoFailure 9 := fun k hk => hq k (by omega)
  have hf9 : ∀ k < 9, (s.busDraw k).foreign = [] := fun k hk => hforeign k (by omega)
  have hdraw := exec_busDraw hx (sdt_taken hdt hq9 hx)
  have hosc : t.oscEn = s.oscEn :=
    exec_oscEn (i := .rtcSdt dt) hc hq9 ⟨hf9, hsettle⟩ (fun _ => by simp) (by simp) hx
  have hreg := sdt_registers hc hdt hq9 hf9 (hstill.imp_right fun hg k hk hk2 => hg k (by omega) hk2) hx
  have hle := dateTimeField_le hdt
  obtain ⟨u, hu, -, hrsp, -⟩ := exec_gdt (s := t) (fun k hk => by rw [hdraw]; exact hforeign _ (by omega))
    (hstill.imp (fun ho => hosc.trans ho) fun hg k hk _ => by rw [hdraw]; exact hg _ (by omega) (by omega))
  refine ⟨u, hu, ?_⟩
  rw [hrsp, fieldsAnswer_ok (v := dateTimeField dt) 0
    (fun j hj => by rw [hdraw]; exact hq _ (by simp only [gdtFields, List.length_cons, List.length_nil] at hj; omega))
    (fun f => by rw [hreg]; exact isBcd_putField _ (hle f)) (fun f => by rw [hreg]; exact fieldOf_putField _ (hle f))]
  have hlt (f : TimeField) : dateTimeField dt f < 256 :=
    Nat.lt_of_le_of_lt ((hle f).trans (fieldMax_le f)) (by decide)
  obtain ⟨hy2000, -⟩ := hdt
  have hyear : 2000 + dateTimeField dt .year = dt.year := Nat.add_sub_of_le hy2000
  exact (okResponse_fieldResults (hlt .year) (hlt .month) (hlt .day) (hlt .hour) (hlt .minute) (hlt .second)).trans
    (by rw [hyear]; rfl)

/-! ### RTC.RST on a stopped clock (R163) -/

/-- The writes of RTC.RST: the epoch, the battery off, the clock stopped. -/
def rstWrites : List FieldWrite := fieldWrites (dateTimeField epoch) ++ [batWrite .off, oscWrite .stopped]

theorem rstWrites_cost : writesCost rstWrites = 13 := rfl

theorem rtcRst_steps : rtcRst.steps = writeSteps rstWrites ++ tickVerify .stopped := rfl

theorem rstWrites_stopped : ∀ w ∈ rstWrites, w.reg = .sec → (w.value &&& w.mask).getLsbD 7 = false := by decide

/-- The state in which RTC.RST begins its verification, where no transaction has failed. -/
def State.rstWritten (s : State) : State := rstWrites.foldl State.writeField (s.accept 0x26 (payloadS1 true))

theorem rstWritten_rtc {s : State} (hc : s.cfg.Legal) (hforeign : ∀ k < 15, (s.busDraw k).foreign = [])
    (ho : s.oscEn = false) (r : RtcReg) : s.rstWritten.rtc r = rstWrites.foldl (FieldWrite.onReg r) (s.rtc r) :=
  writeFields_rtc (s := s.accept 0x26 (payloadS1 true)) (.inl ho) hc
    (fun k hk => hforeign k (by rw [rstWrites_cost] at hk; omega)) rstWrites_stopped r

/-- On a stopped clock RTC.RST's verification finds the registers as its writes left them. -/
theorem exec_rst_stopped {s : State} (hc : s.cfg.Legal) (hq : s.NoFailure 15) (hn : s.NoOtherBusMaster 15)
    (ho : s.oscEn = false) : ∃ t, exec .rtcRst s = .next t ∧ t.rsp = 1 ∧
      ∀ r, t.rtc r = rstWrites.foldl (FieldWrite.onReg r) (s.rtc r) := by
  obtain ⟨hforeign, hsettle⟩ := hn
  have hdraw (k : Nat) : s.rstWritten.busDraw k = s.busDraw (k + 13) := by simp [State.rstWritten, rstWrites_cost]
  have hwrites := doSteps_writeSteps (s := s.accept 0x26 (payloadS1 true)) (l := rstWrites)
    fun k hk => hq k (by rw [rstWrites_cost] at hk; omega)
  obtain ⟨u, hverify, hmem, hcfg, hacc, hs1, hs2, -, -⟩ := doSteps_tickVerify .stopped (s := s.rstWritten)
    fun k hk => by rw [hdraw]; exact hq _ (by omega)
  have hstopped : s.rstWritten.oscEn = false := by
    rw [State.oscEn, rstWritten_rtc hc hforeign ho]
    exact getLsbD_osc _ .stopped
  have hfirst : s.rstWritten.sampleS1.mem = s.rstWritten.mem :=
    sampleS1_still_mem (.inl hstopped) (by rw [hdraw]; exact hforeign _ (by omega))
  have hsecond : s.rstWritten.sampleS1.settle.mem = s.rstWritten.sampleS1.mem :=
    settle_still_mem (.inl ((oscEn_congr hfirst (by simp)).trans hstopped))
      (by simpa [State.rstWritten] using hsettle)
  have hreg (r : RtcReg) : u.rtc r = s.rstWritten.rtc r := rtc_congr (hmem.trans (hsecond.trans hfirst)) hcfg r
  have hsame : confirms .stopped u.s1 u.s2 = true := by
    rw [hs1, hs2, hreg, ← sampleS1_rtc, rtc_congr hfirst (by simp)]
    simp [confirms]
  rw [hsame, if_pos rfl] at hverify
  have hsteps : doSteps rtcRst.steps (s.accept 0x26 (payloadS1 true)) = (u, none) := by
    rw [rtcRst_steps]
    exact (doSteps_append_ok hwrites).trans hverify
  refine ⟨_, exec_ok (i := .rtcRst) rfl hsteps, ?_, fun r => ?_⟩
  · rw [respond_rsp, hacc, State.rstWritten, writeFields_acc, accept_acc]
    decide
  · rw [respond_rtc, hreg, rstWritten_rtc hc hforeign ho]

/-- Settles O20, register by register. -/
theorem rstOnStoppedClockEndsAtEpoch : Obligations.RstOnStoppedClockEndsAtEpoch := by
  refine ⟨by decide, fun s hc hq hn ho => ?_⟩
  obtain ⟨t, hx, hrsp, hreg⟩ := exec_rst_stopped hc hq hn ho
  have hfield (f : TimeField) (hf : f ≠ .second) : t.rtc (fieldReg f) =
      (s.rtc (fieldReg f) &&& preservedMask (fieldReg f)) ||| bcdByte (dateTimeField epoch f) := by
    rw [hreg, ← putField_eq _ (dateTimeField_le (by decide) f)]
    cases f with
    | second => exact absurd rfl hf
    | _ => rfl
  have hsec : t.rtc .sec = 0x00 := by
    have hepoch : putField .second (s.rtc .sec) 0 &&& 0x7F = bcdByte 0 := putField_field _ (Nat.zero_le _)
    rw [hreg]
    show mergeBits (putField .second (s.rtc .sec) 0) maskOsc (oscByte .stopped) = 0x00
    rw [mergeBits_osc, hepoch]
    decide
  have hwkday : t.rtc .wkday = s.rtc .wkday &&& 0xF7 := by
    rw [hreg]
    exact (mergeBits_bat _ .off).trans BitVec.or_zero
  refine ⟨t, hx, blockFrame_of_exec hx, hrsp, hsec, ?_, ?_, hwkday, ?_, hfield .month (by decide), ?_, fun a ha => ?_⟩
  · exact (hfield .minute (by decide)).trans (and_zero_or _ _)
  · exact (hfield .hour (by decide)).trans BitVec.or_zero
  · exact (hfield .day (by decide)).trans (and_zero_or _ _)
  · exact (hfield .year (by decide)).trans (and_zero_or _ _)
  · exact exec_sameOutside (i := .rtcRst) hc hn hx ha (List.not_mem_of_not_mem_cons ha)

end Sys2Proof.Machine
end

section
/-! PROOFS. The temperature registers (43_temperature_registers.md R180 to R190): the commands that get a pair answer what one
read of it decodes to, the commands that set a pair write it in one transaction or refuse the temperature, and a threshold
reads back as it was set. -/

namespace Sys2Proof.Machine

/-! ### The words of the set commands (30_encoding.md R100, R101) -/

/-- The word with a command's opcode and a 16-bit operand is the command's encoding. -/
theorem decode_t16Word {i : Instr} {op : Byte} {v : BitVec 16} {w : Word} (hop : i.opcode = op)
    (hw : commandWord op 0 = w) (hwf : i.wellFormed = true) (hp : i.payload = payloadV16 (t16Bits v.toInt)) :
    decode (w ||| v.setWidth 64) = .ok i := by
  have hword : encode i = w ||| v.setWidth 64 := by
    rw [encode, hp, hop, (t16_toInt v).1, commandWord_payloadV16, hw]
  rw [← hword]
  exact decodeInvertsEncode i hwf

/-! ### The two bytes of a temperature, cut from its 13-bit word (41_temperature_codec.md R142) -/

theorem tempHigh_eq_extract (x : Int) : tempHigh x = ((BitVec.ofInt 13 x).extractLsb' 8 5).setWidth 8 := by
  have hlt := tempWord_lt x
  apply BitVec.eq_of_toNat_eq
  rw [toNat_tempHigh, BitVec.toNat_setWidth, BitVec.extractLsb'_toNat, ← tempWord_eq_toNat, Nat.shiftRight_eq_div_pow]
  omega

theorem tempLow_eq_extract (x : Int) : tempLow x = (BitVec.ofInt 13 x).extractLsb' 0 8 := by
  apply BitVec.eq_of_toNat_eq
  rw [toNat_tempLow, BitVec.extractLsb'_toNat, ← tempWord_eq_toNat, Nat.shiftRight_zero]

/-! ### The cells of a pair (20_memory.md R64, R67) -/

theorem read_writePair_outside {m : Memory} {c : Config} {q : TmpPair} {hi lo : Byte} {a : Nat}
    (ha : a ∉ pairKeys c q) : (m.writePair (tmpKey c q) hi lo).read a = m.read a := by
  simp only [pairKeys, List.mem_cons, List.not_mem_nil, or_false, not_or] at ha
  obtain ⟨hhigh, hlow⟩ := ha
  rw [read_writePair, if_neg hlow, if_neg hhigh]

theorem tmpHi_of_writePair {t : State} {m : Memory} {q : TmpPair} {hi lo : Byte}
    (h : t.mem = m.writePair (tmpKey t.cfg q) hi lo) : t.tmpHi q = hi := by
  rw [State.tmpHi, h, read_writePair, if_neg (Nat.succ_ne_self _).symm, if_pos rfl]

theorem tmpLo_of_writePair {t : State} {m : Memory} {q : TmpPair} {hi lo : Byte}
    (h : t.mem = m.writePair (tmpKey t.cfg q) hi lo) : t.tmpLo q = lo := by
  rw [State.tmpLo, h, read_writePair, if_pos rfl]

/-- No tick changes a pair of the sensor. -/
theorem Drifted.tmpHi {s t : State} (h : Drifted s t) (hc : s.cfg.Legal) (q : TmpPair) : t.tmpHi q = s.tmpHi q := by
  rw [State.tmpHi, h.cfg]
  exact h.outside _ (tmpKey_not_timeKey hc q)

theorem Drifted.tmpLo {s t : State} (h : Drifted s t) (q : TmpPair) : t.tmpLo q = s.tmpLo q := by
  rw [State.tmpLo, h.cfg]
  exact h.outside _ (tmpKey_succ_not_timeKey q)

/-- What is as the gap left it is as before the gap, but for the time registers of a running clock. -/
theorem sameOutside_of_gap {s t : State} {ks : List Nat} (hc : s.cfg.Legal) (hf : (s.busDraw 0).foreign = [])
    (h : s.gap.SameOutside t ks) :
    s.SameOutside t (ks ++ timeKeys s.cfg) ∧ (s.oscEn = false → s.SameOutside t ks) := by
  have hgap := drifted_gap hc hf
  refine ⟨fun a ha => ?_, fun ho a ha => ?_⟩
  · obtain ⟨hks, htime⟩ := not_or.mp (mt List.mem_append.mpr ha)
    rw [h a hks, hgap.outside a htime]
  · rw [h a ha, hgap.stopped ho]

/-! ### One transaction on a pair, in terms of the gap before it (R180) -/

/-- The registers a successful read of a pair finds after its gap: for `TAMB` the sensor has measured (60_exceptions.md
R222). -/
def State.sensed (q : TmpPair) (s : State) : State :=
  if q = .amb then s.gap.sample (s.busDraw 0).hi (s.busDraw 0).lo else s.gap

/-- The two bytes `SetTemp` leaves in its pair: the encoding, or the draw of a failed write (20_memory.md R63). -/
def State.pairSet (x : Int) (s : State) : Byte × Byte :=
  if (s.busDraw 0).fails then ((s.busDraw 0).hi, (s.busDraw 0).lo) else (tempHigh x, tempLow x)

section Sensed
variable {s : State} {q : TmpPair}

theorem sensed_threshold (hq : q ≠ .amb) : s.sensed q = s.gap := if_neg hq

theorem sensed_amb_mem : (s.sensed .amb).mem = s.gap.mem.writePair (tmpKey (s.sensed .amb).cfg .amb)
    (s.busDraw 0).hi (s.busDraw 0).lo := rfl

@[simp] theorem sensed_cfg : (s.sensed q).cfg = s.cfg := by
  unfold State.sensed
  split <;> exact gap_cfg s

@[simp] theorem sensed_bus : (s.sensed q).env.bus = s.env.bus := by
  unfold State.sensed
  split <;> exact gap_bus s

theorem sensed_accept (op : Byte) (p : Payload) : (s.accept op p).sensed q = (s.sensed q).accept op p := by
  unfold State.sensed
  rw [gap_accept, accept_busDraw]
  split <;> rfl

theorem getTemp_failed (h : (s.busDraw 0).fails = true) : getTemp q s = (s.gap.takeBus, some busFault) := if_pos h

theorem getTemp_ok (h : (s.busDraw 0).fails = false) :
    getTemp q s = ({ (s.sensed q).takeBus with
      acc := payloadV16 (t16Bits (tempDecode ((s.sensed q).tmpHi q) ((s.sensed q).tmpLo q))) }, none) := by
  refine (if_neg (by simp [h])).trans ?_
  unfold State.sensed
  split <;> rfl

theorem setTemp_eq (x : Int) : setTemp q x s =
    ({ s.gap.takeBus with mem := s.gap.mem.writePair (tmpKey s.cfg q) (s.pairSet x).1 (s.pairSet x).2 },
      if (s.busDraw 0).fails then some busFault else none) := by
  rw [← gap_cfg s]
  unfold setTemp writePair State.pairSet
  split <;> rfl

end Sensed

/-! ### The commands on a pair (R180) -/

/-- A command of one step does what the step does, and answers. -/
theorem exec_singleton {i : Instr} {f : SeqStep} {s u : State} {p : Payload} {e : Option Err}
    (hp : (commandOf i).start s.cfg = .ok p) (hsteps : (commandOf i).steps = [f]) (hcatch : (commandOf i).catches = false)
    (hf : f (s.accept i.opcode p) = (u, e)) :
    ∃ t, exec i s = .next t ∧ t.mem = u.mem ∧ t.env = u.env ∧ t.rsp = e.elim (okResponse u.acc) errResponse := by
  obtain ⟨q, hd⟩ := doSteps_singleton hf
  rw [← hsteps] at hd
  cases e with
  | none => exact ⟨_, exec_ok hp hd, rfl, rfl, rfl⟩
  | some e => exact ⟨_, exec_raise hp hd, rfl, rfl, by rw [respond_rsp, hcatch, raisedResponse_false]; rfl⟩

/-- `GetTemp` of a pair: the answer is what the two bytes read decode to. -/
theorem exec_getTemp {i : Instr} {q : TmpPair} (hi : commandOf i = getCommand q) (s : State) :
    ∃ t, exec i s = .next t ∧ t.env.bus.taken = s.env.bus.taken + 1 ∧
      t.mem = (if (s.busDraw 0).fails then s.gap else s.sensed q).mem ∧
      t.rsp = if (s.busDraw 0).fails then 0x0300000000000001
        else (t16Bits (tempDecode ((s.sensed q).tmpHi q) ((s.sensed q).tmpLo q))).setWidth 64 := by
  have hstart : (commandOf i).start s.cfg = .ok 0 := by rw [hi]; rfl
  have hsteps : (commandOf i).steps = [getTemp q] := by rw [hi]; rfl
  have hcatch : (commandOf i).catches = false := by rw [hi]; rfl
  cases hf : (s.busDraw 0).fails with
  | true =>
    obtain ⟨t, hx, hmem, henv, hrsp⟩ := exec_singleton hstart hsteps hcatch (getTemp_failed hf)
    refine ⟨t, hx, ?_, ?_, hrsp.trans errResponse_busFault⟩
    · rw [henv, takeBus_busTaken, gap_bus, accept_env]
    · rw [hmem, takeBus_mem, gap_accept, accept_mem, if_pos rfl]
  | false =>
    obtain ⟨t, hx, hmem, henv, hrsp⟩ := exec_singleton hstart hsteps hcatch (getTemp_ok hf)
    rw [sensed_accept] at hmem henv hrsp
    refine ⟨t, hx, ?_, hmem, hrsp.trans (okResponse_payloadV16 _)⟩
    rw [henv]
    exact congrArg (·.taken + 1) sensed_bus

/-- `SetTemp` of a temperature in range. -/
theorem exec_setTemp {i : Instr} {q : TmpPair} {x : Int} (hi : commandOf i = setCommand q x) {s : State}
    (hmin : s.cfg.tempMin16 ≤ x) (hmax : x ≤ s.cfg.tempMax16) :
    ∃ t, exec i s = .next t ∧ t.env.bus.taken = s.env.bus.taken + 1 ∧
      t.mem = s.gap.mem.writePair (tmpKey t.cfg q) (s.pairSet x).1 (s.pairSet x).2 ∧
      t.rsp = if (s.busDraw 0).fails then 0x0300000000000001 else 0 := by
  have hstart : (commandOf i).start s.cfg = .ok 0 := by rw [hi]; exact setTempStart_ok hmin hmax
  have hsteps : (commandOf i).steps = [setTemp q x] := by rw [hi]; rfl
  have hcatch : (commandOf i).catches = false := by rw [hi]; rfl
  obtain ⟨t, hx, hmem, henv, hrsp⟩ := exec_singleton hstart hsteps hcatch (setTemp_eq x)
  rw [gap_accept] at hmem henv hrsp
  refine ⟨t, hx, ?_, ?_, ?_⟩
  · rw [henv]
    exact congrArg (·.taken + 1) (gap_bus s)
  · rw [hmem, cfg_of_exec hx]
    rfl
  · rw [hrsp, accept_busDraw]
    split
    · exact errResponse_busFault
    · exact okResponse_zero

/-- `SetTemp` of a temperature out of range: the encoding comes before the bus. -/
theorem exec_setTemp_refused {i : Instr} {q : TmpPair} {x : Int} (hi : commandOf i = setCommand q x) {s : State}
    (h : x < s.cfg.tempMin16 ∨ x > s.cfg.tempMax16) :
    exec i s = .next { s with rsp := 0x0100000000000002, busy := false, seq := .idle } := by
  have hstart : (commandOf i).start s.cfg = .error (.range .tempValue) := by
    rw [hi]
    simp only [setCommand, setTempStart, tempEncode, if_pos h]
  have hrsp : errResponse (.range .tempValue) = 0x0100000000000002 := by decide
  rw [exec_eq_run, runCommand_error hstart, ← hrsp]
  rfl

/-! ### The thresholds (R182 to R187, R190) -/

/-- A command that gets a threshold reads the pair as it was before the gap. -/
theorem exec_getThreshold {i : Instr} {q : TmpPair} (hi : commandOf i = getCommand q) (hq : q ≠ .amb) {s : State}
    (hc : s.cfg.Legal) (hf : (s.busDraw 0).foreign = []) :
    ∃ t, exec i s = .next t ∧ t.env.bus.taken = s.env.bus.taken + 1 ∧ t.mem = s.gap.mem ∧
      t.rsp = if (s.busDraw 0).fails then 0x0300000000000001
        else (t16Bits (tempDecode (s.tmpHi q) (s.tmpLo q))).setWidth 64 := by
  have hgap := drifted_gap hc hf
  obtain ⟨t, hx, htaken, hmem, hrsp⟩ := exec_getTemp hi s
  rw [sensed_threshold hq, hgap.tmpHi hc, hgap.tmpLo] at hrsp
  rw [sensed_threshold hq, ite_self] at hmem
  exact ⟨t, hx, htaken, hmem, hrsp⟩

/-- Settles O23: no tick changes a threshold, and the read leaves every cell as it finds it. -/
theorem thresholdGetsDecodeTheirPair : Obligations.ThresholdGetsDecodeTheirPair := by
  refine ⟨by decide, by decide, by decide, fun s hc ⟨hbus, _⟩ p hp => ?_⟩
  obtain ⟨hi, hq⟩ : commandOf p.1 = getCommand p.2 ∧ p.2 ≠ .amb := by
    simp only [List.mem_cons, List.not_mem_nil, or_false] at hp
    rcases hp with rfl | rfl | rfl <;> exact ⟨rfl, by decide⟩
  have hf := hbus 0 Nat.one_pos
  obtain ⟨t, hx, htaken, hmem, hrsp⟩ := exec_getThreshold hi hq hc hf
  have hgap : s.gap.SameOutside t [] := fun a _ => by rw [hmem]
  obtain ⟨htime, hstopped⟩ := sameOutside_of_gap hc hf hgap
  rw [t16Bits_tempDecode] at hrsp
  exact ⟨t, hx, blockFrame_of_exec hx, hrsp, htaken, htime, hstopped, hgap⟩

/-- Settles O25: the words are the commands' encodings, and the one write leaves the encoding or the draw in the pair. -/
theorem thresholdSetsWriteTheirPair : Obligations.ThresholdSetsWriteTheirPair := by
  refine ⟨fun v => ⟨?_, ?_, ?_⟩, fun s x p hp => ?_⟩
  · exact decode_t16Word (op := 0x33) rfl (by decide) (t16_toInt v).2 rfl
  · exact decode_t16Word (op := 0x35) rfl (by decide) (t16_toInt v).2 rfl
  · exact decode_t16Word (op := 0x37) rfl (by decide) (t16_toInt v).2 rfl
  · have hi : commandOf p.1 = setCommand p.2 x := by
      simp only [List.mem_cons, List.not_mem_nil, or_false] at hp
      rcases hp with rfl | rfl | rfl <;> rfl
    refine ⟨exec_setTemp_refused hi, fun hc ⟨hbus, _⟩ hmin hmax => ?_⟩
    obtain ⟨t, hx, htaken, hmem, hrsp⟩ := exec_setTemp hi hmin hmax
    have hgap : s.gap.SameOutside t (pairKeys s.cfg p.2) := fun a ha => by
      rw [hmem, cfg_of_exec hx, read_writePair_outside ha]
    obtain ⟨htime, hstopped⟩ := sameOutside_of_gap hc (hbus 0 Nat.one_pos) hgap
    refine ⟨t, hx, blockFrame_of_exec hx, hrsp, ?_, htaken, htime, hstopped, hgap⟩
    rw [tmpHi_of_writePair hmem, tmpLo_of_writePair hmem, ← tempHigh_eq_extract, ← tempLow_eq_extract]
    rfl

/-- Settles O26: the pair set holds the encoding, no tick before the get changes it, and it decodes to the temperature. -/
theorem thresholdReadsBackAsSet : Obligations.ThresholdReadsBackAsSet := by
  intro s t x hc hq ⟨hbus, _⟩ hmin hmax p hp hx
  obtain ⟨q, hset, hget, hamb⟩ : ∃ q, commandOf p.1 = setCommand q x ∧ commandOf p.2 = getCommand q ∧ q ≠ .amb := by
    simp only [List.mem_cons, List.not_mem_nil, or_false] at hp
    rcases hp with rfl | rfl | rfl <;> exact ⟨_, rfl, rfl, by decide⟩
  obtain ⟨t', hx', htaken, hmem, -⟩ := exec_setTemp hset hmin hmax
  obtain rfl := Host.Outcome.next.inj (hx'.symm.trans hx)
  have hpair : s.pairSet x = (tempHigh x, tempLow x) := if_neg (by simp [hq 0 (by omega)])
  have hdraw : t'.busDraw 0 = s.busDraw 1 := exec_busDraw hx htaken 0
  rw [hpair] at hmem
  obtain ⟨u, hu, -, -, hrsp⟩ := exec_getThreshold hget hamb (s := t') (by rwa [cfg_of_exec hx])
    (by rw [hdraw]; exact hbus 1 (by omega))
  refine ⟨u, hu, ?_⟩
  rw [hrsp, hdraw, if_neg (by simp [hq 1 (by omega)]), tmpHi_of_writePair hmem, tmpLo_of_writePair hmem,
    tempDecode_high_low hc hmin hmax]
  rfl

/-! ### The ambient temperature (R181) -/

/-- Settles O24: a read that succeeds finds the drawn sample in the pair, and one that fails leaves the sensor alone. -/
theorem gambDecodesTheSensorsSample : Obligations.GambDecodesTheSensorsSample := by
  refine ⟨by decide, fun s hc ⟨hbus, _⟩ => ?_⟩
  have hf := hbus 0 Nat.one_pos
  obtain ⟨t, hx, htaken, hmem, hrsp⟩ := exec_getTemp (i := .tmpGamb) (q := .amb) rfl s
  rw [tmpHi_of_writePair sensed_amb_mem, tmpLo_of_writePair sensed_amb_mem, t16Bits_tempDecode] at hrsp
  have hsampled : s.gap.SameOutside t (if (s.busDraw 0).fails then [] else pairKeys s.cfg .amb) := fun a ha => by
    rw [hmem]
    split_ifs at ha ⊢
    · rfl
    · rw [sensed_amb_mem, sensed_cfg, read_writePair_outside ha]
  have hpair : s.gap.SameOutside t (pairKeys s.cfg .amb) := fun a ha => hsampled a (by split_ifs <;> simp [ha])
  obtain ⟨htime, hstopped⟩ := sameOutside_of_gap hc hf hpair
  refine ⟨t, hx, blockFrame_of_exec hx, hrsp, htaken, htime, hstopped, hsampled, fun hfails => ?_⟩
  rw [if_pos hfails] at hsampled
  exact (sameOutside_of_gap hc hf hsampled).1

end Sys2Proof.Machine
end

section
/-! PROOFS. The device between two transactions (42_rtc.md R156; 60_exceptions.md R217 to R220): what a tick writes and what it
keeps, idle time, and that each carry of the chain is so many seconds of the calendar, counted modulo the century the clock
can show. -/

namespace Sys2Proof.Machine

/-! ### What a tick keeps (60_exceptions.md R217 to R219) -/

/-- Settles O49: with `SEC` bit 7 clear no tick is enabled, however many are asked for. -/
theorem stoppedClockDoesNotTick : Obligations.StoppedClockDoesNotTick := fun _ k h => ticks_stopped h k

/-- Settles O52: `OSC_EN` is the preserved bit of `SEC`, and a tick writes time registers only. -/
theorem tickKeepsPreservedBits : Obligations.TickKeepsPreservedBits := by
  intro s hc
  have h := aged_tick hc
  exact ⟨h.osc, h.kept .hour, h.kept .month, h.drifted.wkday hc, h.outside⟩

/-- Settles O54: an idle block lets the device tick, and a stopped clock does not. -/
theorem idleTimeIsTicks : Obligations.IdleTimeIsTicks := by
  intro s k rest h hb
  have hstep : step s = .next (State.ticks k { s with agenda := rest }) := by
    rw [step_wait h, hostWaits, if_neg (by simp [hb]), pop_of_cons h]
  refine ⟨hstep, fun ho => ?_⟩
  rw [hstep, ticks_stopped (s := { s with agenda := rest }) ho]

/-! ### The seconds and their carry into the minutes (60_exceptions.md R217, R218) -/

/-- The registers after a tick of a running clock. -/
theorem tick_clock {s : State} (hc : s.cfg.Legal) (ho : s.oscEn = true) :
    s.tick.clock = tickRegs (s.tickDraw 0) s.clock := by
  rw [tick_running ho]
  simp only [State.clock, State.rtc, takeTick_cfg, read_writeClock hc]

/-- A tick changes no cell outside these if it changes no time register outside them. -/
theorem tick_sameOutside {s : State} {ks : List Nat} (hc : s.cfg.Legal)
    (h : ∀ r, rtcKey s.cfg r ∉ ks → s.tick.rtc r = s.rtc r) : s.SameOutside s.tick ks := by
  have haged := aged_tick hc
  intro a ha
  by_cases htime : a ∈ timeKeys s.cfg
  · obtain ⟨r, rfl⟩ : ∃ r, a = rtcKey s.cfg r := by
      simp only [timeKeys, List.mem_cons, List.not_mem_nil, or_false] at htime
      rcases htime with rfl | rfl | rfl | rfl | rfl | rfl <;> exact ⟨_, rfl⟩
    have hr := h r ha
    rwa [State.rtc, haged.cfg] at hr
  · exact haged.outside a htime

/-- From the last second a tick carries into the minutes, and before the minutes wrap no further. -/
theorem tickRegs_minute {j c : ClockRegs} (hs : fieldWithin .second c.sec 0 59 = true)
    (h59 : fieldOf .second c.sec = 59) (hm : fieldWithin .minute c.min 0 59 = true) (h58 : fieldOf .minute c.min ≤ 58) :
    tickRegs j c = { c with
      sec := putField .second c.sec 0
      min := putField .minute c.min (fieldOf .minute c.min + 1) } := by
  rw [tickRegs, if_pos hs, if_neg (by omega), carryMinute, if_pos hm, if_pos h58]

/-- Of two writes of a field the later one counts. -/
theorem putField_putField (f : TimeField) (b : Byte) (v w : Nat) : putField f (putField f b v) w = putField f b w :=
  putField_congr w (putField_kept f b v)

/-- The seconds register of a running clock. -/
theorem runningSeconds_eq {v : Nat} (h : v ≤ fieldMax .second) :
    0x80 ||| BitVec.ofNat 8 (v / 10 * 16 + v % 10) = putField .second 0x80 v := by
  rw [putField_eq _ h, bcdByte_eq]
  rfl

theorem minutes_eq {v : Nat} (h : v ≤ fieldMax .minute) (b : Byte) :
    BitVec.ofNat 8 (v / 10 * 16 + v % 10) = putField .minute b v := by
  rw [putField_eq _ h, bcdByte_eq]
  exact (and_zero_or _ _).symm

/-- A clock whose seconds register is that of a running clock. -/
theorem running_of_seconds {s : State} {v : Nat} (h : s.rtc .sec = putField .second 0x80 v) : s.oscEn = true :=
  (congrArg (·.getLsbD 7) h).trans (bit7_eq_of_and (b := 0x80) (putField_kept .second _ v))

/-- Before the wrap the tick writes `SEC` alone. -/
theorem tick_seconds {s : State} {v : Nat} (hc : s.cfg.Legal) (hv : v ≤ 58) (hs : s.rtc .sec = putField .second 0x80 v) :
    s.tick.rtc .sec = putField .second 0x80 (v + 1) ∧ s.SameOutside s.tick [rtcKey s.cfg .sec] := by
  have hmax : v ≤ fieldMax .second := hv.trans (by decide)
  have ho := running_of_seconds hs
  have hwithin : fieldWithin .second (s.rtc .sec) 0 59 = true := by
    rw [hs]
    exact fieldWithin_putField _ hmax (Nat.zero_le _) (by omega)
  have hfield : fieldOf .second (s.rtc .sec) = v := by rw [hs, fieldOf_putField _ hmax]
  refine ⟨?_, tick_below_wrap hc ho hwithin (by omega)⟩
  have hclock := tick_clock hc ho
  rw [tickRegs_below_wrap (c := s.clock) hwithin (hfield.trans_le hv)] at hclock
  refine (congrArg ClockRegs.sec hclock).trans ?_
  show putField .second (s.rtc .sec) (fieldOf .second (s.rtc .sec) + 1) = _
  rw [hfield, hs, putField_putField]

/-- At the wrap the tick writes `SEC` and `MIN`. -/
theorem tick_minutes {s : State} {v : Nat} (hc : s.cfg.Legal) (hv : v ≤ 58) (hs : s.rtc .sec = putField .second 0x80 59)
    (hm : s.rtc .min = putField .minute 0 v) :
    s.tick.rtc .sec = putField .second 0x80 0 ∧ s.tick.rtc .min = putField .minute 0 (v + 1) ∧
      s.SameOutside s.tick [rtcKey s.cfg .sec, rtcKey s.cfg .min] := by
  have hmax : v ≤ fieldMax .minute := hv.trans (by decide)
  have hsecond : fieldOf .second (s.rtc .sec) = 59 := by rw [hs, fieldOf_putField _ (by decide)]
  have hminute : fieldOf .minute (s.rtc .min) = v := by rw [hm, fieldOf_putField _ hmax]
  have hclock := tick_clock hc (running_of_seconds hs)
  rw [tickRegs_minute (c := s.clock)
    (by show fieldWithin _ (s.rtc .sec) 0 59 = true; rw [hs]; decide) hsecond
    (by show fieldWithin _ (s.rtc .min) 0 59 = true; rw [hm]; exact fieldWithin_putField _ hmax (Nat.zero_le _) (by omega))
    (hminute.trans_le hv)] at hclock
  refine ⟨(congrArg ClockRegs.sec hclock).trans ?_, (congrArg ClockRegs.min hclock).trans ?_, tick_sameOutside hc fun r hr => ?_⟩
  · show putField .second (s.rtc .sec) 0 = _
    rw [hs, putField_putField]
  · show putField .minute (s.rtc .min) (fieldOf .minute (s.rtc .min) + 1) = _
    rw [hminute, hm, putField_putField]
  · cases r with
    | sec => simp at hr
    | min => simp at hr
    | hour => exact congrArg ClockRegs.hour hclock
    | wkday => exact (aged_tick hc).drifted.wkday hc
    | day => exact congrArg ClockRegs.day hclock
    | month => exact congrArg ClockRegs.month hclock
    | year => exact congrArg ClockRegs.year hclock

/-- Settles O50: below 59 the seconds alone are written, and from 59 on the minutes too. -/
theorem tickAdvancesTheSecondsRegister : Obligations.TickAdvancesTheSecondsRegister := by
  refine fun s v hc => ⟨fun hv hs => ?_, fun hv hs hm => ?_⟩
  · have hmax : v + 1 ≤ fieldMax .second := (Nat.succ_le_succ hv).trans (by decide)
    rw [runningSeconds_eq (by omega)] at hs
    rw [runningSeconds_eq hmax]
    exact tick_seconds hc hv hs
  · have hmax : v + 1 ≤ fieldMax .minute := (Nat.succ_le_succ hv).trans (by decide)
    rw [minutes_eq (by omega) 0] at hm
    rw [minutes_eq hmax 0]
    exact tick_minutes hc hv (hs.trans (by decide)) hm

/-! ### A clock that shows a legal date-time -/

/-- A legal date-time in BCD is what the guards of the carry chain ask for. -/
theorem clockValid_iff {c : ClockRegs} : ClockValid c ↔
    fieldWithin .second c.sec 0 59 = true ∧ fieldWithin .minute c.min 0 59 = true ∧
      fieldWithin .hour c.hour 0 23 = true ∧ fieldWithin .day c.day 1 (monthLength c) = true ∧
      fieldWithin .month c.month 1 12 = true ∧ fieldWithin .year c.year 0 99 = true := by
  simp only [fieldWithin_iff, ClockValid, DateTimeLegal, shownDateTime, monthLength, fieldMask, byte_and_full]
  constructor
  · rintro ⟨hs, hmi, hh, hd, hmo, hy, -, hyear, hmo1, hmo12, hd1, hdays, hhour, hmin, hsec⟩
    exact ⟨⟨hs, Nat.zero_le _, hsec⟩, ⟨hmi, Nat.zero_le _, hmin⟩, ⟨hh, Nat.zero_le _, hhour⟩, ⟨hd, hd1, hdays⟩,
      ⟨hmo, hmo1, hmo12⟩, ⟨hy, Nat.zero_le _, by omega⟩⟩
  · rintro ⟨⟨hs, -, hsec⟩, ⟨hmi, -, hmin⟩, ⟨hh, -, hhour⟩, ⟨hd, hd1, hdays⟩, ⟨hmo, hmo1, hmo12⟩, ⟨hy, -, hyear⟩⟩
    exact ⟨hs, hmi, hh, hd, hmo, hy, by omega, by omega, hmo1, hmo12, hd1, hdays, hhour, hmin, hsec⟩

/-! ### The days of the calendar (R156) -/

/-- The days of a year before a month of it. -/
def daysBefore (y m : Nat) : Nat := ((List.range (m - 1)).map fun k => daysInMonth y (k + 1)).sum

/-- The days from 2000-01-01 to the first of a year. -/
def daysTo (y : Nat) : Nat := 365 * (y - 2000) + (y - 2000 + 3) / 4

theorem dayNumber_eq (dt : DateTime) :
    dayNumber dt = daysTo dt.year + daysBefore dt.year dt.month + (dt.day - 1) := rfl

@[simp] theorem daysBefore_one (y : Nat) : daysBefore y 1 = 0 := rfl

theorem daysBefore_succ {m : Nat} (y : Nat) (h : 1 ≤ m) : daysBefore y (m + 1) = daysBefore y m + daysInMonth y m := by
  obtain ⟨k, rfl⟩ := Nat.exists_eq_add_of_le' h
  simp [daysBefore, List.range_succ]

/-- A year's twelve months, December having 31 days, take it to the next year. -/
theorem daysTo_succ {y : Nat} (h : 2000 ≤ y) : daysTo (y + 1) = daysTo y + daysBefore y 12 + 31 := by
  obtain ⟨k, rfl⟩ := Nat.exists_eq_add_of_le h
  have hmonths : daysBefore (2000 + k) 12 = 306 + daysInMonth (2000 + k) 2 := by
    simp [daysBefore, List.range_succ, daysInMonth]
    omega
  have hfebruary : daysInMonth (2000 + k) 2 = if k % 4 = 0 then 29 else 28 := by
    simp [daysInMonth, isLeap, Nat.add_mod]
  rw [hmonths, hfebruary, daysTo, daysTo]
  split <;> omega

theorem daysTo_first : daysTo 2000 = 0 := rfl

theorem daysTo_century : daysTo 2100 = 36525 := rfl

theorem one_le_daysInMonth (y : Nat) {m : Nat} (h1 : 1 ≤ m) (h12 : m ≤ 12) : 1 ≤ daysInMonth y m := by
  interval_cases m <;> simp [daysInMonth]
  split <;> decide

/-! ### The carries in seconds of the calendar (60_exceptions.md R218) -/

/-- The seconds of the calendar the registers show. -/
def clockSeconds (c : ClockRegs) : Nat := secondNumber (shownDateTime c)

/-- The seconds of the hundred years the clock can show. -/
def centurySeconds : Nat := 36525 * 86400

/-- `c'` is a well-formed clock `n` seconds after `c`, where after the century's last second comes its first. -/
def Advanced (n : Nat) (c c' : ClockRegs) : Prop :=
  ClockValid c' ∧ (clockSeconds c' = clockSeconds c + n ∨ clockSeconds c' + centurySeconds = clockSeconds c + n)

section Carries
variable {j c : ClockRegs}

theorem clockSeconds_eq (c : ClockRegs) : clockSeconds c =
    (((daysTo (2000 + fieldOf .year c.year) + daysBefore (2000 + fieldOf .year c.year) (fieldOf .month c.month) +
      (fieldOf .day c.day - 1)) * 24 + fieldOf .hour c.hour) * 60 + fieldOf .minute c.min) * 60 +
      fieldOf .second c.sec := rfl

/-- A carry that first sets a field back by `k` seconds, and then advances the field above it. -/
theorem Advanced.after_reset {n k m : Nat} {c₀ c' : ClockRegs} (h : Advanced m c₀ c')
    (hk : clockSeconds c₀ + k = clockSeconds c) (hm : m = n + k) : Advanced n c c' := by
  obtain ⟨hv, heq⟩ := h
  exact ⟨hv, by omega⟩

theorem carryYear_advanced (h : ClockValid c) (hmonth : fieldOf .month c.month = 1) :
    Advanced ((daysBefore (2000 + fieldOf .year c.year) 12 + 31) * 86400) c (carryYear j c) := by
  obtain ⟨hs, hmi, hh, hd, hmo, hy⟩ := clockValid_iff.mp h
  obtain ⟨-, -, hle⟩ := fieldWithin_iff.mp hy
  have hvalid {v : Nat} (hv : v ≤ 99) : ClockValid { c with year := putField .year c.year v } := by
    refine clockValid_iff.mpr ⟨hs, hmi, hh, ?_, hmo, fieldWithin_putField _ hv (Nat.zero_le _) hv⟩
    simpa only [monthLength, hmonth, daysInMonth] using hd
  have hsucc := daysTo_succ (y := 2000 + fieldOf .year c.year) (Nat.le_add_right _ _)
  unfold carryYear
  rw [if_pos hy]
  by_cases h98 : fieldOf .year c.year ≤ 98
  · have hv : fieldOf .year c.year + 1 ≤ 99 := by omega
    rw [if_pos h98]
    refine ⟨hvalid hv, .inl ?_⟩
    simp only [clockSeconds_eq, fieldOf_putField (f := .year) _ hv, hmonth, daysBefore_one, ← Nat.add_assoc, hsucc]
    omega
  · have h99 : fieldOf .year c.year = 99 := by omega
    rw [if_neg h98]
    refine ⟨hvalid (Nat.zero_le _), .inr ?_⟩
    rw [h99, show 2000 + 99 + 1 = 2100 from rfl, daysTo_century] at hsucc
    simp only [clockSeconds_eq, fieldOf_putField (f := .year) _ (Nat.zero_le _), hmonth, daysBefore_one, h99,
      Nat.add_zero, daysTo_first, centurySeconds]
    omega

theorem carryMonth_advanced (h : ClockValid c) (hday : fieldOf .day c.day = 1) :
    Advanced (monthLength c * 86400) c (carryMonth j c) := by
  obtain ⟨hs, hmi, hh, hd, hmo, hy⟩ := clockValid_iff.mp h
  obtain ⟨hbcd, -, -⟩ := fieldWithin_iff.mp hd
  obtain ⟨-, hone, hle⟩ := fieldWithin_iff.mp hmo
  have hvalid {v : Nat} (hv1 : 1 ≤ v) (hv12 : v ≤ 12) : ClockValid { c with month := putField .month c.month v } := by
    have hmax : v ≤ fieldMax .month := hv12.trans (by decide)
    refine clockValid_iff.mpr ⟨hs, hmi, hh, fieldWithin_iff.mpr ⟨hbcd, hday.ge, ?_⟩,
      fieldWithin_putField _ hmax hv1 hv12, hy⟩
    simp only [monthLength, fieldOf_putField _ hmax, hday]
    exact one_le_daysInMonth _ hv1 hv12
  unfold carryMonth
  rw [if_pos hmo]
  by_cases h11 : fieldOf .month c.month ≤ 11
  · have hmax : fieldOf .month c.month + 1 ≤ fieldMax .month := by simp only [fieldMax]; omega
    rw [if_pos h11]
    refine ⟨hvalid (Nat.le_add_left _ _) (by omega), .inl ?_⟩
    simp only [clockSeconds_eq, fieldOf_putField _ hmax, daysBefore_succ _ hone, monthLength]
    omega
  · have h12 : fieldOf .month c.month = 12 := by omega
    have hmax : 1 ≤ fieldMax .month := by decide
    rw [if_neg h11]
    refine (carryYear_advanced (hvalid (Nat.le_refl 1) (by decide)) (fieldOf_putField _ hmax)).after_reset
      (k := daysBefore (2000 + fieldOf .year c.year) 12 * 86400) ?_ ?_
    · simp only [clockSeconds_eq, fieldOf_putField _ hmax, h12, daysBefore_one]
      omega
    · simp only [monthLength, h12, daysInMonth]
      omega

/-- The day after a date of a well-formed clock. -/
theorem carryDay_advanced (h : ClockValid c) : Advanced 86400 c (carryDay j c) := by
  obtain ⟨hs, hmi, hh, hd, hmo, hy⟩ := clockValid_iff.mp h
  obtain ⟨-, hone, hle⟩ := fieldWithin_iff.mp hd
  have hlength : monthLength c ≤ 31 := daysInMonth_le _ _
  have hmax {v : Nat} (hv : v ≤ monthLength c) : v ≤ fieldMax .day := by simp only [fieldMax]; omega
  have hvalid {v : Nat} (hv1 : 1 ≤ v) (hv : v ≤ monthLength c) :
      ClockValid { c with day := putField .day c.day v } :=
    clockValid_iff.mpr ⟨hs, hmi, hh, fieldWithin_putField _ (hmax hv) hv1 hv, hmo, hy⟩
  unfold carryDay
  rw [if_pos (by simp only [hy, hmo, hd, Bool.and_self])]
  by_cases hlast : fieldOf .day c.day < monthLength c
  · rw [if_pos hlast]
    refine ⟨hvalid (Nat.le_add_left _ _) hlast, .inl ?_⟩
    simp only [clockSeconds_eq, fieldOf_putField _ (hmax hlast)]
    omega
  · rw [if_neg hlast]
    have hfirst := hmax (hone.trans hle)
    refine (carryMonth_advanced (hvalid (Nat.le_refl 1) (hone.trans hle)) (fieldOf_putField _ hfirst)).after_reset
      (k := (monthLength c - 1) * 86400) ?_ ?_
    · simp only [clockSeconds_eq, fieldOf_putField _ hfirst]
      omega
    · show monthLength c * 86400 = _
      omega

theorem carryHour_advanced (h : ClockValid c) : Advanced 3600 c (carryHour j c) := by
  obtain ⟨hs, hmi, hh, hd, hmo, hy⟩ := clockValid_iff.mp h
  obtain ⟨-, -, hle⟩ := fieldWithin_iff.mp hh
  have hmax {v : Nat} (hv : v ≤ 23) : v ≤ fieldMax .hour := hv.trans (by decide)
  have hvalid {v : Nat} (hv : v ≤ 23) : ClockValid { c with hour := putField .hour c.hour v } :=
    clockValid_iff.mpr ⟨hs, hmi, fieldWithin_putField _ (hmax hv) (Nat.zero_le _) hv, hd, hmo, hy⟩
  unfold carryHour
  rw [if_pos hh]
  by_cases h22 : fieldOf .hour c.hour ≤ 22
  · have hv : fieldOf .hour c.hour + 1 ≤ 23 := by omega
    rw [if_pos h22]
    refine ⟨hvalid hv, .inl ?_⟩
    simp only [clockSeconds_eq, fieldOf_putField _ (hmax hv)]
    omega
  · rw [if_neg h22]
    refine (carryDay_advanced (hvalid (Nat.zero_le _))).after_reset (k := 82800) ?_ rfl
    simp only [clockSeconds_eq, fieldOf_putField _ (hmax (Nat.zero_le _))]
    omega

theorem carryMinute_advanced (h : ClockValid c) : Advanced 60 c (carryMinute j c) := by
  obtain ⟨hs, hmi, hh, hd, hmo, hy⟩ := clockValid_iff.mp h
  obtain ⟨-, -, hle⟩ := fieldWithin_iff.mp hmi
  have hmax {v : Nat} (hv : v ≤ 59) : v ≤ fieldMax .minute := hv.trans (by decide)
  have hvalid {v : Nat} (hv : v ≤ 59) : ClockValid { c with min := putField .minute c.min v } :=
    clockValid_iff.mpr ⟨hs, fieldWithin_putField _ (hmax hv) (Nat.zero_le _) hv, hh, hd, hmo, hy⟩
  unfold carryMinute
  rw [if_pos hmi]
  by_cases h58 : fieldOf .minute c.min ≤ 58
  · have hv : fieldOf .minute c.min + 1 ≤ 59 := by omega
    rw [if_pos h58]
    refine ⟨hvalid hv, .inl ?_⟩
    simp only [clockSeconds_eq, fieldOf_putField _ (hmax hv)]
    omega
  · rw [if_neg h58]
    refine (carryHour_advanced (hvalid (Nat.zero_le _))).after_reset (k := 3540) ?_ rfl
    simp only [clockSeconds_eq, fieldOf_putField _ (hmax (Nat.zero_le _))]
    omega

theorem tickRegs_advanced (h : ClockValid c) : Advanced 1 c (tickRegs j c) := by
  obtain ⟨hs, hmi, hh, hd, hmo, hy⟩ := clockValid_iff.mp h
  obtain ⟨-, -, hle⟩ := fieldWithin_iff.mp hs
  have hmax {v : Nat} (hv : v ≤ 59) : v ≤ fieldMax .second := hv.trans (by decide)
  have hvalid {v : Nat} (hv : v ≤ 59) : ClockValid { c with sec := putField .second c.sec v } :=
    clockValid_iff.mpr ⟨fieldWithin_putField _ (hmax hv) (Nat.zero_le _) hv, hmi, hh, hd, hmo, hy⟩
  unfold tickRegs
  rw [if_pos hs]
  by_cases h58 : fieldOf .second c.sec ≤ 58
  · have hv : fieldOf .second c.sec + 1 ≤ 59 := by omega
    rw [if_pos h58]
    refine ⟨hvalid hv, .inl ?_⟩
    simp only [clockSeconds_eq, fieldOf_putField _ (hmax hv)]
    omega
  · rw [if_neg h58]
    refine (carryMinute_advanced (hvalid (Nat.zero_le _))).after_reset (k := 59) ?_ rfl
    simp only [clockSeconds_eq, fieldOf_putField _ (hmax (Nat.zero_le _))]
    omega

end Carries

/-! ### The ends of the century -/

theorem daysBefore_mono {m n : Nat} (y : Nat) (h1 : 1 ≤ m) (h : m ≤ n) : daysBefore y m ≤ daysBefore y n := by
  induction n, h using Nat.le_induction with
  | base => exact Nat.le_refl _
  | succ n hmn ih => exact ih.trans (by rw [daysBefore_succ y (h1.trans hmn)]; exact Nat.le_add_right _ _)

/-- A date is counted at the first day of its year only on 1 January, and at the last only on 31 December. -/
theorem dayNumber_bounds {dt : DateTime} (h : DateTimeLegal dt) :
    daysTo dt.year ≤ dayNumber dt ∧ dayNumber dt + 1 ≤ daysTo (dt.year + 1) ∧
      (dayNumber dt ≤ daysTo dt.year → dt.month = 1 ∧ dt.day = 1) ∧
      (daysTo (dt.year + 1) ≤ dayNumber dt + 1 → dt.month = 12 ∧ dt.day = 31) := by
  obtain ⟨hy1, -, hm1, hm12, hd1, hdays, -⟩ := h
  have hstart : dt.month = 1 ∨ 31 ≤ daysBefore dt.year dt.month := by
    rcases Nat.eq_or_lt_of_le hm1 with hm | hm
    · exact .inl hm.symm
    · exact .inr (daysBefore_mono dt.year (Nat.le_add_left 1 1) hm)
  have hend : dt.month = 12 ∧ dt.day ≤ 31 ∨ daysBefore dt.year dt.month + dt.day ≤ daysBefore dt.year 12 := by
    rcases Nat.eq_or_lt_of_le hm12 with hm | hm
    · rw [hm] at hdays
      exact .inl ⟨hm, hdays⟩
    · have hnext := daysBefore_mono dt.year (Nat.le_add_left 1 dt.month) hm
      rw [daysBefore_succ _ hm1] at hnext
      exact .inr (by omega)
  rw [dayNumber_eq, daysTo_succ hy1]
  refine ⟨by omega, ?_, fun hfirst => by omega, fun hlast => ?_⟩
  · rcases hend with ⟨hm, hd⟩ | hend
    · rw [hm]
      omega
    · omega
  · rcases hend with ⟨hm, hd⟩ | hend
    · rw [hm] at hlast ⊢
      omega
    · omega

theorem epoch_of_secondNumber {dt : DateTime} (h : DateTimeLegal dt) (h0 : secondNumber dt = 0) :
    dt = ⟨2000, 1, 1, 0, 0, 0⟩ := by
  obtain ⟨hday, -, hfirst, -⟩ := dayNumber_bounds h
  obtain ⟨hy1, -⟩ := h
  obtain ⟨year, month, day, hour, minute, second⟩ := dt
  simp only [secondNumber] at *
  obtain ⟨rfl, rfl⟩ := hfirst (by omega)
  simp only [daysTo] at hday
  congr <;> omega

theorem last_of_secondNumber {dt : DateTime} (h : DateTimeLegal dt) (hlast : centurySeconds ≤ secondNumber dt + 1) :
    secondNumber dt + 1 = centurySeconds ∧ dt = ⟨2099, 12, 31, 23, 59, 59⟩ := by
  obtain ⟨-, hday, -, hend⟩ := dayNumber_bounds h
  obtain ⟨-, hy2, -, -, -, -, hhour, hminute, hsecond⟩ := h
  obtain ⟨year, month, day, hour, minute, second⟩ := dt
  simp only [secondNumber, centurySeconds] at *
  have hyear : year = 2099 := by simp only [daysTo] at hday; omega
  subst hyear
  rw [show 2099 + 1 = 2100 from rfl, daysTo_century] at hday hend
  obtain ⟨rfl, rfl⟩ := hend (by omega)
  refine ⟨by omega, ?_⟩
  congr <;> omega

/-- Settles O51: a tick is one second modulo the century, whose last second and first one are told by their numbers. -/
theorem tickAdvancesTheCalendarByOneSecond : Obligations.TickAdvancesTheCalendarByOneSecond := by
  intro s hc ho h
  obtain ⟨hv, heq⟩ := tickRegs_advanced (j := s.tickDraw 0) h
  rw [← tick_clock hc ho] at hv heq
  obtain ⟨-, -, -, -, -, -, hlegal⟩ := id h
  obtain ⟨-, -, -, -, -, -, hlegal'⟩ := id hv
  refine ⟨hv, heq.imp_right fun hwrap => ?_⟩
  obtain ⟨hsum, hlast⟩ := last_of_secondNumber hlegal (hwrap ▸ Nat.le_add_left _ _)
  exact ⟨hlast, epoch_of_secondNumber hlegal' (by simp only [clockSeconds] at hwrap; omega)⟩

end Sys2Proof.Machine
end

section
/-! PROOFS. How a command ends (60_exceptions.md R200 to R211; 30_encoding.md R103): which errors each command answers, what a
`RangeError` leaves, and that no command sees the response before it or a scratch register it has not written. -/

namespace Sys2Proof.Machine

/-! ### The errors of each command (60_exceptions.md R201 to R203) -/

/-- The tables of R201 to R203: the command answers this error in some state. RTC.RST answers none (R211). -/
inductive ErrorOf : Instr → Err → Prop
  | bcdEnc (v : Nat) : ErrorOf (.bcdEnc v) (.range .bcdValue)
  | tempEnc (x : Int) : ErrorOf (.tempEnc x) (.range .tempValue)
  | tmpSupr (x : Int) : ErrorOf (.tmpSupr x) (.range .tempValue)
  | tmpSlwr (x : Int) : ErrorOf (.tmpSlwr x) (.range .tempValue)
  | tmpScrt (x : Int) : ErrorOf (.tmpScrt x) (.range .tempValue)
  | rtcSdt (dt : DateTime) {d : RangeDetail} (h : rangeCode d ∈ [(0x10 : Byte), 0x11, 0x12, 0x13, 0x14, 0x15]) :
      ErrorOf (.rtcSdt dt) (.range d)
  | bcdDec (b : Byte) : ErrorOf (.bcdDec b) (.format .bcdNibble)
  | rtcGdt (f : TimeField) : ErrorOf .rtcGdt (.format (.field f))
  | bus {i : Instr} (hbus : 0 < busCount i) (hrst : i ≠ .rtcRst) : ErrorOf i busFault
  | rtcSclk (d : ClockState) : ErrorOf (.rtcSclk d) (.hardware .tickVerify)

theorem errorOf_start {i : Instr} {e : Err} (h : e ∈ startErrs i) : ErrorOf i e := by
  cases i with
  | bcdEnc v => obtain rfl := List.mem_singleton.mp h; exact .bcdEnc v
  | bcdDec b => obtain rfl := List.mem_singleton.mp h; exact .bcdDec b
  | tempEnc x => obtain rfl := List.mem_singleton.mp h; exact .tempEnc x
  | tmpSupr x => obtain rfl := List.mem_singleton.mp h; exact .tmpSupr x
  | tmpSlwr x => obtain rfl := List.mem_singleton.mp h; exact .tmpSlwr x
  | tmpScrt x => obtain rfl := List.mem_singleton.mp h; exact .tmpScrt x
  | rtcSdt dt =>
    simp only [startErrs, List.mem_cons, List.not_mem_nil, or_false] at h
    rcases h with rfl | rfl | rfl | rfl | rfl | rfl <;> exact .rtcSdt dt (by decide)
  | _ => cases h

/-- Of the steps only those of RTC.GDT and the last one of a tick verification have a check of their own. -/
theorem shape_check {i : Instr} {k : StepShape} {e : Err} (hk : k ∈ shape i) (he : e ∈ k.2) :
    (i = .rtcGdt ∧ ∃ f, e = .format (.field f)) ∨
      (((∃ d, i = .rtcSclk d) ∨ i = .rtcRst) ∧ e = .hardware .tickVerify) := by
  cases i with
  | rtcGdt =>
    simp only [shape, List.mem_cons, List.not_mem_nil, or_false] at hk
    rcases hk with rfl | rfl | rfl | rfl | rfl | rfl <;> exact .inl ⟨rfl, _, List.mem_singleton.mp he⟩
  | rtcSclk d =>
    simp only [shape, List.mem_cons, List.not_mem_nil, or_false] at hk
    rcases hk with rfl | rfl | rfl | rfl | rfl <;> simp_all
  | rtcRst =>
    simp only [shape, List.mem_append, List.mem_replicate, List.mem_cons, List.not_mem_nil, or_false] at hk
    rcases hk with ⟨-, rfl⟩ | rfl | rfl | rfl | rfl | rfl | rfl | rfl <;> simp_all
  | _ => simp_all [shape]

/-- How a command ends: with `OK`; with an error of its operand check, before which it has done nothing; or with an error of
one of its steps, which is no `RangeError`. -/
theorem exec_ends {i : Instr} {s t : State} (hx : exec i s = .next t) :
    (∃ p, t.rsp = okResponse p) ∨
    (∃ e, ErrorOf i e ∧ t = { s with rsp := errResponse e, busy := false, seq := .idle }) ∨
    (∃ e, ErrorOf i e ∧ errStatus e ≠ .rangeError ∧ t.rsp = errResponse e) := by
  rcases exec_cases i s with ⟨e, -, he, h⟩ | ⟨p, -, u, e, hd, h⟩
  · obtain rfl := Host.Outcome.next.inj (h.symm.trans hx)
    exact .inr (.inl ⟨e, errorOf_start he, rfl⟩)
  · obtain rfl := Host.Outcome.next.inj (h.symm.trans hx)
    cases e with
    | none => exact .inl ⟨u.acc, rfl⟩
    | some e =>
      have herr := doSteps_error (commandOf_shaped i) (congrArg Prod.snd hd)
      by_cases hrst : i = .rtcRst
      · subst hrst
        rcases herr with ⟨rfl, -⟩ | ⟨k, hk, he⟩
        · exact .inl ⟨0, rfl⟩
        · rcases shape_check hk he with ⟨hi, -⟩ | ⟨-, rfl⟩
          · cases hi
          · exact .inl ⟨0, rfl⟩
      · have hrsp : raisedResponse (commandOf i).catches e = errResponse e := by
          rw [catches_false hrst, raisedResponse_false]
        refine .inr (.inr ⟨e, ?_, ?_, hrsp⟩)
        · rcases herr with ⟨rfl, hbus⟩ | ⟨k, hk, he⟩
          · exact .bus (by rwa [← busOf_shape]) hrst
          · rcases shape_check hk he with ⟨rfl, f, rfl⟩ | ⟨⟨d, rfl⟩ | hi, rfl⟩
            · exact .rtcGdt f
            · exact .rtcSclk d
            · exact absurd hi hrst
        · rcases herr with ⟨rfl, -⟩ | ⟨k, hk, he⟩
          · decide
          · rcases shape_check hk he with ⟨-, f, rfl⟩ | ⟨-, rfl⟩ <;> simp [errStatus]

theorem detail_errResponse (e : Err) : (errResponse e).extractLsb' 0 8 = errDetail e := by
  apply BitVec.eq_of_getLsbD_eq
  intro k hk
  simp only [errResponse, responseWord, payloadB8, BitVec.getLsbD_extractLsb', BitVec.getLsbD_append]
  simp [hk, show k < 56 by omega]

theorem above_detail_errResponse (e : Err) : (errResponse e).extractLsb' 8 48 = 0 := by
  apply BitVec.eq_of_getLsbD_eq
  intro k hk
  simp only [errResponse, responseWord, payloadB8, BitVec.getLsbD_extractLsb', BitVec.getLsbD_append]
  simp [show 8 + k < 56 by omega]

/-- Settles O39: a command ends with `OK` or with an error of the tables, which are gone through line by line. -/
theorem errorKindsByCommand : Obligations.ErrorKindsByCommand := by
  intro i s t hx
  have hends : (∃ p, t.rsp = okResponse p) ∨ ∃ e, ErrorOf i e ∧ t.rsp = errResponse e := by
    rcases exec_ends hx with hok | ⟨e, he, ht⟩ | ⟨e, he, -, ht⟩
    · exact .inl hok
    · exact .inr ⟨e, he, congrArg State.rsp ht⟩
    · exact .inr ⟨e, he, ht⟩
  rcases hends with ⟨p, hp⟩ | ⟨e, he, hrsp⟩
  · have hstatus : t.rsp.extractLsb' 56 8 = 0x00 := by rw [hp]; exact statusOf_ok p
    rw [hstatus]
    simp
  · have hstatus : t.rsp.extractLsb' 56 8 = statusCode (errStatus e) := by rw [hrsp]; exact statusOf_err e
    rw [hstatus, hrsp, detail_errResponse, above_detail_errResponse]
    cases he with
    | rtcSdt dt h => simpa [errStatus, statusCode, errDetail] using h
    | rtcGdt f => cases f <;> simp [errStatus, statusCode, errDetail, formatCode]
    | bus hbus hrst => simp [busFault, errStatus, statusCode, errDetail, faultCode, hbus, hrst]
    | _ => simp [errStatus, statusCode, errDetail, rangeCode, formatCode, faultCode]

/-- Settles O40: only an operand check raises a `RangeError`, and before it nothing has been done. -/
theorem rangeErrorChangesOnlyTheResponse : Obligations.RangeErrorChangesOnlyTheResponse := by
  intro i s t hx hrange
  rcases exec_ends hx with ⟨p, hp⟩ | ⟨e, -, rfl⟩ | ⟨e, -, hne, he⟩
  · rw [hp] at hrange
    exact absurd ((statusOf_ok p).symm.trans hrange) (by decide)
  · rfl
  · rw [he] at hrange
    have hcode : statusCode (errStatus e) = 0x01 := (statusOf_err e).symm.trans hrange
    cases e <;> simp [errStatus, statusCode] at hne hcode

/-! ### What a command does not see (60_exceptions.md R210; 10_state.md R26) -/

/-- The state without `RSP`, `OLD`, `S1` and `S2`. -/
def State.visible (s : State) : State := { s with rsp := 0, old := 0, s1 := 0, s2 := 0 }

/-- Two states that differ in `RSP`, `OLD`, `S1` and `S2` at most. -/
abbrev Alike (s u : State) : Prop := s.visible = u.visible

/-- Two results of a step that differ no more, and raise the same. -/
abbrev AlikeOut (a b : StepOut) : Prop := Alike a.1 b.1 ∧ a.2 = b.2

section Alike
variable {s u : State} (h : Alike s u)
include h

/-- What is told of the visible part alone is the same of both. -/
theorem Alike.congr {α : Type} (g : State → α) : g s.visible = g u.visible := congrArg g h

theorem Alike.mem : s.mem = u.mem := h.congr State.mem
theorem Alike.cfg : s.cfg = u.cfg := h.congr State.cfg
theorem Alike.env : s.env = u.env := h.congr State.env
theorem Alike.acc : s.acc = u.acc := h.congr State.acc
theorem Alike.rtc (r : RtcReg) : s.rtc r = u.rtc r := rtc_congr h.mem h.cfg r
theorem Alike.busDraw (k : Nat) : s.busDraw k = u.busDraw k := busDraw_congr (congrArg Env.bus h.env) k

theorem Alike.takeBus : Alike s.takeBus u.takeBus := h.congr State.takeBus

theorem Alike.with_mem {m n : Memory} (hm : m = n) : Alike { s with mem := m } { u with mem := n } := by
  subst hm
  exact h.congr fun v => { v with mem := m }

theorem Alike.with_acc {a b : Payload} (ha : a = b) : Alike { s with acc := a } { u with acc := b } := by
  subst ha
  exact h.congr fun v => { v with acc := a }

end Alike

theorem tick_visible (s : State) : s.visible.tick = s.tick.visible := by
  unfold State.tick
  show (if s.oscEn then _ else _) = _
  split <;> rfl

theorem ticks_visible (k : Nat) (s : State) : State.ticks k s.visible = (State.ticks k s).visible := by
  induction k generalizing s with
  | zero => rfl
  | succ k ih => rw [State.ticks, State.ticks, tick_visible, ih]

theorem advance_visible (s : State) : s.visible.advance = s.advance.visible := by
  cases hs : s.seq <;> simp [State.advance, State.visible, hs]

theorem gap_visible (s : State) : s.visible.gap = s.gap.visible := by
  unfold State.gap
  dsimp only
  rw [ticks_visible]
  rfl

theorem settle_visible (s : State) : s.visible.settle = s.settle.visible := by
  unfold State.settle
  dsimp only
  rw [ticks_visible]
  rfl

theorem Alike.gap {s u : State} (h : Alike s u) : Alike s.gap u.gap := by
  rw [Alike, ← gap_visible, ← gap_visible, h]

theorem Alike.settle {s u : State} (h : Alike s u) : Alike s.settle u.settle := by
  rw [Alike, ← settle_visible, ← settle_visible, h]

theorem Alike.advance {s u : State} (h : Alike s u) : Alike s.advance u.advance := by
  rw [Alike, ← advance_visible, ← advance_visible, h]

/-! ### Steps that see no more than the visible part -/

/-- From states that are alike the steps lead to states that are alike, and raise the same. -/
def Clean (fs : List SeqStep) : Prop := ∀ s u, Alike s u → AlikeOut (doSteps fs s) (doSteps fs u)

theorem Clean.nil : Clean [] := fun _ _ h => ⟨h, rfl⟩

theorem Clean.append {fs gs : List SeqStep} (hf : Clean fs) (hg : Clean gs) : Clean (fs ++ gs) := by
  intro s u h
  obtain ⟨hstate, herr⟩ := hf s u h
  rw [doSteps_append, doSteps_append, ← herr]
  cases (doSteps fs s).2 with
  | none => exact hg _ _ hstate
  | some e => exact ⟨hstate, rfl⟩

/-- One step, its result alike from states that are alike. -/
theorem alikeOut_singleton {f g : SeqStep} {s u : State} (h : AlikeOut (f s) (g u)) :
    AlikeOut (doSteps [f] s) (doSteps [g] u) := by
  obtain ⟨hstate, herr⟩ := h
  simp only [doSteps, ← herr]
  cases (f s).2 with
  | none => exact ⟨hstate.advance, rfl⟩
  | some e => exact ⟨hstate, rfl⟩

theorem clean_singleton {f : SeqStep} (h : ∀ s u, Alike s u → AlikeOut (f s) (f u)) : Clean [f] :=
  fun s u hsu => alikeOut_singleton (h s u hsu)

theorem alikeOut_readReg {s u : State} (h : Alike s u) (r : RtcReg) {use : Byte → State → StepOut}
    (huse : ∀ b t v, Alike t v → AlikeOut (use b t) (use b v)) : AlikeOut (readReg r use s) (readReg r use u) := by
  rw [readReg_gap, readReg_gap, h.busDraw 0, h.gap.rtc r]
  split
  · exact ⟨h.gap.takeBus, rfl⟩
  · exact huse _ _ _ h.gap.takeBus

theorem alikeOut_writeReg {s u : State} (h : Alike s u) (r : RtcReg) (b : Byte) :
    AlikeOut (writeReg r b s) (writeReg r b u) := by
  rw [writeReg_gap, writeReg_gap, h.busDraw 0, h.cfg, h.gap.mem]
  split <;> exact ⟨h.gap.takeBus.with_mem rfl, rfl⟩

theorem clean_writeReg (r : RtcReg) (b : Byte) : Clean [writeReg r b] :=
  clean_singleton fun _ _ h => alikeOut_writeReg h r b

theorem clean_readBit (r : RtcReg) (i : Nat) : Clean [readBit r i] :=
  clean_singleton fun _ _ h => alikeOut_readReg h r fun _ _ _ ht => ⟨ht.with_acc rfl, rfl⟩

theorem clean_readField (f : TimeField) : Clean [readField f] :=
  clean_singleton fun _ _ h => alikeOut_readReg h _ fun b _ _ ht => by
    split
    · exact ⟨ht.with_acc (by rw [ht.acc]), rfl⟩
    · exact ⟨ht, rfl⟩

theorem Alike.sensed {s u : State} (h : Alike s u) (q : TmpPair) : Alike (s.sensed q) (u.sensed q) := by
  unfold State.sensed
  rw [h.busDraw 0]
  split
  · exact h.gap.with_mem (by rw [h.gap.mem, h.gap.cfg])
  · exact h.gap

theorem clean_getTemp (q : TmpPair) : Clean [getTemp q] :=
  clean_singleton fun s u h => by
    have hq := h.sensed q
    cases hf : (u.busDraw 0).fails with
    | true =>
      rw [getTemp_failed hf, getTemp_failed ((congrArg BusDraw.fails (h.busDraw 0)).trans hf)]
      exact ⟨h.gap.takeBus, rfl⟩
    | false =>
      rw [getTemp_ok hf, getTemp_ok ((congrArg BusDraw.fails (h.busDraw 0)).trans hf)]
      exact ⟨hq.takeBus.with_acc (by rw [tmpHi_congr hq.mem hq.cfg, tmpLo_congr hq.mem hq.cfg]), rfl⟩

theorem clean_setTemp (q : TmpPair) (x : Int) : Clean [setTemp q x] :=
  clean_singleton fun s u h => by
    have hpair : s.pairSet x = u.pairSet x := by rw [State.pairSet, State.pairSet, h.busDraw 0]
    rw [setTemp_eq, setTemp_eq, hpair, h.busDraw 0, h.cfg, h.gap.mem]
    exact ⟨h.gap.takeBus.with_mem rfl, rfl⟩

/-- A read-modify-write sees `OLD` only after it has read it: it then writes a byte that both states agree on. -/
theorem clean_rmwBits (r : RtcReg) (m v : Byte) : Clean (rmwBits r m v) := by
  intro s u h
  have hfails := congrArg BusDraw.fails (h.busDraw 0)
  cases hf : (u.busDraw 0).fails with
  | true =>
    rw [rmwBits, doSteps_raise (f := rmwRead r) (readReg_failed (hfails.trans hf) r _),
      doSteps_raise (f := rmwRead r) (readReg_failed hf r _)]
    exact ⟨h.gap.takeBus, rfl⟩
  | false =>
    have hread : Alike (s.remember r) (u.remember r) :=
      Alike.advance (s := { s.gap.takeBus with old := s.gap.rtc r }) (u := { u.gap.takeBus with old := u.gap.rtc r })
        h.gap.takeBus
    rw [rmwBits, doSteps_rmwRead (hfails.trans hf), doSteps_rmwRead hf]
    refine alikeOut_singleton ?_
    show AlikeOut (writeReg r (mergeBits (s.remember r).old m v) _) (writeReg r (mergeBits (u.remember r).old m v) _)
    rw [remember_old, remember_old, h.gap.rtc r]
    exact alikeOut_writeReg hread r _

theorem alikeOut_sampleSecond {s u : State} (h : Alike s u) (hs1 : s.s1 = u.s1) (d : ClockState) :
    AlikeOut (sampleSecond d s) (sampleSecond d u) := by
  rw [sampleSecond_spec, sampleSecond_spec, h.busDraw 0, h.rtc .sec, hs1]
  split <;> exact ⟨h.takeBus, rfl⟩

/-- Tick verification compares the second sample with a first one that it has read. -/
theorem clean_tickVerify (d : ClockState) : Clean (tickVerify d) := by
  intro s u h
  have hfails := congrArg BusDraw.fails (h.busDraw 0)
  cases hf : (u.busDraw 0).fails with
  | true =>
    rw [tickVerify, doSteps_raise (f := sampleFirst) (readReg_failed (hfails.trans hf) .sec _),
      doSteps_raise (f := sampleFirst) (readReg_failed hf .sec _)]
    exact ⟨h.gap.takeBus, rfl⟩
  | false =>
    have hfirst : Alike s.sampleS1 u.sampleS1 :=
      Alike.advance (s := { s.gap.takeBus with s1 := secondsSample (s.gap.rtc .sec) })
        (u := { u.gap.takeBus with s1 := secondsSample (u.gap.rtc .sec) }) h.gap.takeBus
    rw [tickVerify, doSteps_sampleFirst (hfails.trans hf), doSteps_sampleFirst hf, doSteps_waitSettle, doSteps_waitSettle]
    refine alikeOut_singleton (alikeOut_sampleSecond hfirst.settle.advance ?_ d)
    simp only [advance_s1, settle_s1, sampleS1_s1, h.gap.rtc .sec]

theorem clean_writeField (r : RtcReg) (m v : Byte) : Clean (writeField r m v) := by
  unfold writeField
  split
  · exact clean_writeReg r v
  · exact clean_rmwBits r m v

theorem clean_dateTimeSteps (dt : DateTime) : Clean (dateTimeSteps dt) := by
  have h (f : TimeField) : Clean (writeFieldBcd f (dateTimeField dt f)) := clean_writeField _ _ _
  exact (((((h .second).append (h .minute)).append (h .hour)).append (h .day)).append (h .month)).append (h .year)

theorem commandOf_clean (i : Instr) : Clean (commandOf i).steps := by
  cases i with
  | bcdEnc v => exact .nil
  | bcdDec b => exact .nil
  | tempDec h l => exact .nil
  | tempEnc x => exact .nil
  | rtcGclk => exact clean_readBit _ _
  | rtcSclk d => exact (clean_rmwBits _ _ _).append (clean_tickVerify d)
  | rtcGbat => exact clean_readBit _ _
  | rtcSbat b => exact clean_rmwBits _ _ _
  | rtcGdt =>
    have h (f : TimeField) := clean_readField f
    exact (h .second).append ((h .minute).append ((h .hour).append ((h .day).append ((h .month).append (h .year)))))
  | rtcSdt dt => exact clean_dateTimeSteps dt
  | rtcRst =>
    exact (((clean_dateTimeSteps epoch).append (clean_rmwBits _ _ _)).append (clean_rmwBits _ _ _)).append
      (clean_tickVerify _)
  | tmpGamb => exact clean_getTemp _
  | tmpGupr => exact clean_getTemp _
  | tmpSupr x => exact clean_setTemp _ x
  | tmpGlwr => exact clean_getTemp _
  | tmpSlwr x => exact clean_setTemp _ x
  | tmpGcrt => exact clean_getTemp _
  | tmpScrt x => exact clean_setTemp _ x

theorem finish_alike (c : Bool) {a b : StepOut} (h : AlikeOut a b) :
    (finish c a).rsp = (finish c b).rsp ∧ Alike (finish c a) (finish c b) := by
  obtain ⟨hstate, herr⟩ := h
  rw [finish_respond, finish_respond, herr, hstate.acc]
  exact ⟨rfl, hstate.congr fun v => v.respond 0⟩

theorem exec_of_start_error {i : Instr} {s : State} {e : Err} (h : (commandOf i).start s.cfg = .error e) :
    exec i s = .next ((s.begin i.opcode).respond (raisedResponse (commandOf i).catches e)) := by
  rw [exec_eq_run, runCommand_error h, raised_respond]

/-- Commands that start in states alike but for `ACC` end in states that are alike, `ACC` aside, with the same response. -/
theorem exec_alike {i : Instr} {s u t : State} {a : Payload} (h : Alike s { u with acc := a }) (hx : exec i s = .next t) :
    ∃ v, exec i u = .next v ∧ v.rsp = t.rsp ∧ v.mem = t.mem ∧ v.env = t.env := by
  have hcfg : s.cfg = u.cfg := h.cfg
  cases hp : (commandOf i).start u.cfg with
  | error e =>
    obtain rfl := Host.Outcome.next.inj ((exec_of_start_error (hcfg ▸ hp)).symm.trans hx)
    exact ⟨_, exec_of_start_error hp, rfl, h.mem.symm, h.env.symm⟩
  | ok p =>
    obtain rfl := Host.Outcome.next.inj ((exec_of_start (hcfg ▸ hp)).symm.trans hx)
    have hstart : Alike (s.accept i.opcode p) (u.accept i.opcode p) := h.congr (State.accept i.opcode p)
    obtain ⟨hrsp, hend⟩ := finish_alike (commandOf i).catches (commandOf_clean i _ _ hstart)
    exact ⟨_, exec_of_start hp, hrsp.symm, hend.mem.symm, hend.env.symm⟩

/-- Settles O43: every step sees the visible part alone, but for `OLD` and `S1` after the command's own reads. -/
theorem commandsStartClean : Obligations.CommandsStartClean := by
  intro i s t r o x y a hx
  obtain ⟨v, hv, hrsp, hmem, henv⟩ :=
    exec_alike (s := s) (u := { s with rsp := r, old := o, s1 := x, s2 := y, acc := a }) (a := s.acc) rfl hx
  obtain ⟨hcmd, -, -, hbusy, hseq⟩ := blockFrame_of_exec hx
  obtain ⟨hcmd', -, -, hbusy', hseq'⟩ := blockFrame_of_exec hv
  exact ⟨v, hv, hrsp, hmem, henv, hbusy'.trans hbusy.symm, hseq'.trans hseq.symm, hcmd'.trans hcmd.symm⟩

end Sys2Proof.Machine
end

section
/-! PROOFS. The frame of a command where no tick falls (60_exceptions.md R216, R217, R220; 20_memory.md R63): command by command,
from what each does with its gap. -/

namespace Sys2Proof.Machine

theorem State.Still.mono {s : State} {m n : Nat} (h : s.Still n) (hmn : m ≤ n) : s.Still m :=
  h.imp_right fun hg k hk => hg k (hk.trans_le hmn)

/-- Of transactions that do not all succeed one is the first to fail. -/
theorem exists_first_failure {s : State} {n : Nat} (h : ¬ s.NoFailure n) :
    ∃ k < n, s.NoFailure k ∧ (s.busDraw k).fails = true := by
  induction n with
  | zero => exact absurd (noFailure_zero s) h
  | succ n ih =>
    by_cases hq : s.NoFailure n
    · exact ⟨n, Nat.lt_succ_self n, hq, by simpa using mt (noFailure_succ hq) h⟩
    · obtain ⟨k, hk, hfirst⟩ := ih hq
      exact ⟨k, hk.trans (Nat.lt_succ_self n), hfirst⟩

/-- What leaves every cell as the gap before it does, but for some, leaves it as it was where no tick falls. -/
theorem sameOutside_of_still {s t : State} {ks : List Nat} (hstill : s.Still 1) (hf : (s.busDraw 0).foreign = [])
    (h : s.gap.SameOutside t ks) : s.SameOutside t ks := by
  rwa [hstill.gap Nat.one_pos hf] at h

/-- RTC.SCLK: the clock stands still up to its write, and after it too where it is stopped or no tick falls. -/
theorem sclk_still_frame {s t : State} {d : ClockState} (hc : s.cfg.Legal) (hn : s.NoOtherBusMaster 4)
    (hstill : s.Still 2) (hafter : d = .stopped ∨ (s.NoGapTick 2 3 ∧ (s.settleDraw 0).ticks = 0))
    (hx : exec (.rtcSclk d) s = .next t) : s.SameOutside t [rtcKey s.cfg .sec] := by
  obtain ⟨hforeign, -⟩ := id hn
  by_cases hq : s.NoFailure 4
  · obtain ⟨u, hu, hmem, -⟩ := exec_sclk d hq
    obtain rfl := Host.Outcome.next.inj (hu.symm.trans hx)
    intro a ha
    rw [hmem, second_sample_mem hc hn (hafter.imp_right And.right), first_sample_mem hn (hafter.imp_right And.left)]
    exact oscWritten_still hc (fun k hk => hforeign k (by omega)) hstill a ha
  · obtain ⟨k, hk, hfirst, hfails⟩ := exists_first_failure hq
    obtain ⟨u, hu, -, -, -, hread, hwrite, hsample, -⟩ := sclkBusFailureLeavesWhatWasWritten s d k hc hn hk hfirst hfails
    obtain rfl := Host.Outcome.next.inj (hu.symm.trans hx)
    obtain rfl | rfl | hk2 : k = 0 ∨ k = 1 ∨ 2 ≤ k := by omega
    · obtain ⟨-, hsame⟩ := hread rfl
      exact fun a _ => hsame (hstill.mono one_le_two) a List.not_mem_nil
    · obtain ⟨-, hsame⟩ := hwrite rfl
      exact hsame hstill
    · obtain ⟨-, hrest⟩ := hsample hk2
      obtain ⟨-, hsame⟩ := hrest (hafter.imp_right fun ⟨hg, hticks⟩ => ⟨hg, .inr hticks⟩)
      exact hsame hstill

/-- RTC.SBAT writes `WKDAY` or nothing. -/
theorem sbat_still_frame {s t : State} {b : BatteryState} (hc : s.cfg.Legal) (hn : s.NoOtherBusMaster 2)
    (hstill : s.Still 2) (hx : exec (.rtcSbat b) s = .next t) : s.SameOutside t [rtcKey s.cfg .wkday] := by
  obtain ⟨u, g, hu, -, hsame, hmem, -⟩ := exec_sbat b hc hn
  obtain rfl := Host.Outcome.next.inj (hu.symm.trans hx)
  intro a ha
  rw [hmem, hsame hstill]
  split
  · rfl
  · exact read_write_ne _ _ (List.ne_of_not_mem_cons ha)

theorem steps_nil_frame {i : Instr} {s t : State} (hi : (commandOf i).steps = []) (hx : exec i s = .next t) :
    s.SameOutside t [] := by
  obtain ⟨a, h⟩ := exec_of_steps_nil hi s
  obtain rfl := Host.Outcome.next.inj (h.symm.trans hx)
  exact fun _ _ => rfl

section Gap
variable {i : Instr} {s t : State} (hstill : s.Still 1) (hf : (s.busDraw 0).foreign = []) (hx : exec i s = .next t)
include hstill hf hx

theorem readBit_still_frame {r : RtcReg} {n : Nat} (hi : commandOf i = ⟨noCheck, [readBit r n], false⟩) :
    s.SameOutside t [] := by
  obtain ⟨u, hu, hmem, -⟩ := exec_readBit hi s
  obtain rfl := Host.Outcome.next.inj (hu.symm.trans hx)
  exact sameOutside_of_still hstill hf fun a _ => by rw [hmem]

theorem getTemp_still_frame {q : TmpPair} (hi : commandOf i = getCommand q) :
    s.SameOutside t (if q = .amb then pairKeys s.cfg .amb else []) := by
  obtain ⟨u, hu, -, hmem, -⟩ := exec_getTemp hi s
  obtain rfl := Host.Outcome.next.inj (hu.symm.trans hx)
  refine sameOutside_of_still hstill hf fun a ha => ?_
  rw [hmem]
  split
  · rfl
  · by_cases hq : q = .amb
    · subst hq
      rw [if_pos rfl] at ha
      rw [sensed_amb_mem, sensed_cfg, read_writePair_outside ha]
    · rw [sensed_threshold hq]

theorem setTemp_still_frame {q : TmpPair} {x : Int} (hi : commandOf i = setCommand q x) :
    s.SameOutside t (pairKeys s.cfg q) := by
  by_cases hrange : s.cfg.tempMin16 ≤ x ∧ x ≤ s.cfg.tempMax16
  · obtain ⟨hmin, hmax⟩ := hrange
    obtain ⟨u, hu, -, hmem, -⟩ := exec_setTemp hi hmin hmax
    obtain rfl := Host.Outcome.next.inj (hu.symm.trans hx)
    exact sameOutside_of_still hstill hf fun a ha => by rw [hmem, cfg_of_exec hx, read_writePair_outside ha]
  · obtain rfl := Host.Outcome.next.inj ((exec_setTemp_refused hi (by omega)).symm.trans hx)
    exact fun _ _ => rfl

end Gap

/-- Settles O46. RTC.SDT and RTC.RST store to every time register, so that ticks add nothing to their frame; every other command
is still up to its last write. -/
theorem commandsWithoutTicksStoreOnlyToTheirCells : Obligations.CommandsWithoutTicksStoreOnlyToTheirCells := by
  intro i s t hc hn hquiet hx
  obtain ⟨hforeign, hsettle⟩ := id hn
  have hstill : s.Still 15 := hquiet.imp And.left And.left
  have hstill1 := hstill.mono (m := 1) (by omega)
  have hf := hforeign 0 (by omega)
  have hno {n : Nat} (h15 : n ≤ 15) : s.NoOtherBusMaster n := ⟨fun k hk => hforeign k (by omega), hsettle⟩
  cases i with
  | bcdEnc v => exact steps_nil_frame rfl hx
  | bcdDec b => exact steps_nil_frame rfl hx
  | tempDec h l => exact steps_nil_frame rfl hx
  | tempEnc x => exact steps_nil_frame rfl hx
  | rtcGclk => exact readBit_still_frame hstill1 hf hx rfl
  | rtcGbat => exact readBit_still_frame hstill1 hf hx rfl
  | rtcSclk d =>
    refine sclk_still_frame hc (hno (by omega)) (hstill.mono (by omega)) ?_ hx
    rcases hquiet with ⟨-, hd⟩ | ⟨hg, hticks⟩
    · cases d with
      | stopped => exact .inl rfl
      | running => exact absurd rfl hd
    · exact .inr ⟨fun k hk _ => hg k (by omega) (Nat.zero_le k), hticks⟩
  | rtcSbat b => exact sbat_still_frame hc (hno (by omega)) (hstill.mono (by omega)) hx
  | rtcGdt =>
    obtain ⟨u, hu, hmem, -⟩ := exec_gdt (fun k hk => hforeign k (by omega)) (hstill.mono (by omega))
    obtain rfl := Host.Outcome.next.inj (hu.symm.trans hx)
    exact fun a _ => by rw [hmem]
  | rtcSdt dt => exact fun a ha => exec_sameOutside (i := .rtcSdt dt) hc (hno (n := 9) (by omega)) hx ha ha
  | rtcRst => exact fun a ha => exec_sameOutside (i := .rtcRst) hc hn hx ha (List.not_mem_of_not_mem_cons ha)
  | tmpGamb => exact getTemp_still_frame (q := .amb) hstill1 hf hx rfl
  | tmpGupr => exact getTemp_still_frame (q := .upper) hstill1 hf hx rfl
  | tmpGlwr => exact getTemp_still_frame (q := .lower) hstill1 hf hx rfl
  | tmpGcrt => exact getTemp_still_frame (q := .crit) hstill1 hf hx rfl
  | tmpSupr x => exact setTemp_still_frame hstill1 hf hx rfl
  | tmpSlwr x => exact setTemp_still_frame hstill1 hf hx rfl
  | tmpScrt x => exact setTemp_still_frame hstill1 hf hx rfl

end Sys2Proof.Machine
end

section
/-! PROOFS. RTC.SDT and RTC.RST with a failing transaction (60_exceptions.md R209, R211; 42_rtc.md R154, R162, R163; 20_memory.md
R62, R63): field writes up to the first that fails, and the verification of RTC.RST on every device. -/

namespace Sys2Proof.Machine

/-! ### Registers that do not change by themselves -/

/-- No gap of the next `n` changes the register: it is no time register, or no tick falls. -/
abbrev State.Lasting (r : RtcReg) (n : Nat) (s : State) : Prop := r = .wkday ∨ s.Still n

/-- Where time passes and nothing is written, a lasting register is as before. -/
theorem Drifted.lasting {s t : State} {r : RtcReg} {n : Nat} (h : Drifted s t) (hc : s.cfg.Legal)
    (hstill : s.Still n → t.mem = s.mem) (hr : s.Lasting r n) : t.rtc r = s.rtc r := by
  rcases hr with rfl | hs
  · exact h.wkday hc
  · exact rtc_congr (hstill hs) h.cfg r

theorem gap_lasting {s : State} {r : RtcReg} {n : Nat} (hc : s.cfg.Legal) (hf : (s.busDraw 0).foreign = [])
    (hn : 0 < n) (hr : s.Lasting r n) : s.gap.rtc r = s.rtc r :=
  (drifted_gap hc hf).lasting hc (fun h => by rw [h.gap hn hf]) hr

/-- A register after the write of a byte to `q`. -/
theorem rtc_of_write {s t : State} {m : Memory} {q : RtcReg} {b : Byte} (hc : s.cfg.Legal) (hcfg : t.cfg = s.cfg)
    (hmem : t.mem = m.write (rtcKey s.cfg q) b) (r : RtcReg) :
    t.rtc r = if q = r then b else m.read (rtcKey s.cfg r) := by
  rw [State.rtc, hcfg, hmem, read_write]
  exact if_congr (by rw [rtcKey_inj hc, eq_comm]) rfl rfl

section Writes
variable {s : State} {w : FieldWrite} {r : RtcReg}

/-- What a field write makes of a lasting register. -/
theorem writeField_lasting (hc : s.cfg.Legal) (hf : ∀ k < w.cost, (s.busDraw k).foreign = [])
    (hr : s.Lasting r w.cost) : (s.writeField w).rtc r = FieldWrite.onReg r (s.rtc r) w := by
  by_cases hm : w.mask = 0xFF
  · rw [cost_whole hm] at hf hr
    have hgap := gap_lasting hc (hf 0 (by omega)) (by omega) hr
    rw [writeField_whole hm, rtc_of_write hc (store_cfg s _ _) (store_mem s _ _), FieldWrite.onReg, hm, mergeBits_full]
    exact if_congr Iff.rfl rfl (by rw [← hgap, State.rtc, gap_cfg])
  · rw [cost_bits hm] at hf hr
    have hf0 := hf 0 (by omega)
    obtain ⟨hdrift, hstill⟩ := remember_gap_spec hc hf0 (hf 1 (by omega)) w.reg
    have hgap := hdrift.lasting hc hstill hr
    rw [writeField_bits hm, rtc_of_write (s := s) hc (by simp) (by rw [store_mem, remember_cfg]), FieldWrite.onReg]
    refine ite_congr rfl (fun hreg => ?_) fun _ => by rw [← hgap, State.rtc, gap_cfg, remember_cfg]
    rw [hreg, gap_lasting hc hf0 (by omega) hr]

/-- A field write with a failing transaction: at its write the register takes the draw, at its read nothing is written. -/
theorem doSteps_writeField_fails {k : Nat} (hc : s.cfg.Legal) (hf : ∀ k < w.cost, (s.busDraw k).foreign = [])
    (hk : k < w.cost) (hq : s.NoFailure k) (hfail : (s.busDraw k).fails = true) :
    ∃ t, doSteps (writeField w.reg w.mask w.value) s = (t, some busFault) ∧
      ∀ r, s.Lasting r w.cost → t.rtc r = if k + 1 = w.cost ∧ w.reg = r then (s.busDraw k).lo else s.rtc r := by
  by_cases hm : w.mask = 0xFF
  · rw [cost_whole hm] at hf hk ⊢
    obtain rfl : k = 0 := by omega
    refine ⟨_, by rw [writeField, if_pos hm, doSteps_raise (writeReg_failed hfail _ _)], fun r hr => ?_⟩
    have hgap := gap_lasting hc (hf 0 hk) hk hr
    rw [rtc_of_write (s := s) hc (by simp) rfl, ← hgap, State.rtc, gap_cfg]
    simp
  · rw [cost_bits hm] at hf hk ⊢
    have hf0 := hf 0 (by omega)
    rw [writeField, if_neg hm]
    obtain rfl | rfl : k = 0 ∨ k = 1 := by omega
    · have hd := doSteps_rmwBits_readFails hfail w.reg w.mask w.value []
      rw [List.append_nil] at hd
      exact ⟨_, hd, fun r hr => by simp [gap_lasting hc hf0 (by omega) hr]⟩
    · have hd := doSteps_rmwBits_writeFails (hq 0 (by omega)) hfail w.reg w.mask w.value []
      rw [List.append_nil] at hd
      obtain ⟨hdrift, hstill⟩ := remember_gap_spec hc hf0 (hf 1 (by omega)) w.reg
      refine ⟨_, hd, fun r hr => ?_⟩
      have hgap := hdrift.lasting hc hstill hr
      rw [rtc_of_write (s := s) hc (by simp) rfl, ← hgap, State.rtc, gap_cfg, remember_cfg]
      simp

end Writes

/-! ### Field writes up to a failing transaction (60_exceptions.md R209) -/

/-- A register's byte after field writes of which transaction number `k` fails and leaves the byte `lo`: those before are done,
the one it belongs to has written nothing or `lo`, and those after it are not done. -/
def failedWrites (r : RtcReg) (lo : Byte) : List FieldWrite → Nat → Byte → Byte
  | [], _, b => b
  | w :: l, k, b =>
    if k < w.cost then (if k + 1 = w.cost ∧ w.reg = r then lo else b)
    else failedWrites r lo l (k - w.cost) (FieldWrite.onReg r b w)

/-- The writes leave `OSC_EN` off where it is off. -/
abbrev KeepStopped (l : List FieldWrite) : Prop := ∀ w ∈ l, w.reg = .sec → (w.value &&& w.mask).getLsbD 7 = false

section Lists
variable {s : State} {l : List FieldWrite}

theorem State.Lasting.writeField {w : FieldWrite} {r : RtcReg} {n : Nat} (h : s.Lasting r (w.cost + n)) (hc : s.cfg.Legal)
    (hf : ∀ k < w.cost, (s.busDraw k).foreign = []) (hw : w.reg = .sec → (w.value &&& w.mask).getLsbD 7 = false) :
    s.Lasting r w.cost ∧ (s.writeField w).Lasting r n :=
  ⟨h.imp_right fun hs => hs.mono (Nat.le_add_right _ _), h.imp_right fun hs => hs.writeField hc hf hw⟩

/-- Field writes that do not fail, in terms of a lasting register. -/
theorem writeFields_lasting (hc : s.cfg.Legal) (hf : ∀ k < writesCost l, (s.busDraw k).foreign = []) (hl : KeepStopped l)
    {r : RtcReg} (hr : s.Lasting r (writesCost l)) :
    (l.foldl State.writeField s).rtc r = l.foldl (FieldWrite.onReg r) (s.rtc r) := by
  induction l generalizing s with
  | nil => rfl
  | cons w l ih =>
    simp only [writesCost, List.map_cons, List.sum_cons] at hf hr
    obtain ⟨hw, hl⟩ := List.forall_mem_cons.mp hl
    have hfw : ∀ k < w.cost, (s.busDraw k).foreign = [] := fun k hk => hf k (by omega)
    obtain ⟨hfirst, hrest⟩ := State.Lasting.writeField hr hc hfw hw
    rw [List.foldl_cons, List.foldl_cons, ← writeField_lasting hc hfw hfirst]
    exact ih (by simpa using hc) (fun k hk => by
      simp only [writesCost] at hk
      simpa using hf (k + w.cost) (by omega)) hl hrest

theorem doSteps_writeSteps_fails {k : Nat} (hc : s.cfg.Legal) (hf : ∀ k < writesCost l, (s.busDraw k).foreign = [])
    (hl : KeepStopped l) (hk : k < writesCost l) (hq : s.NoFailure k) (hfail : (s.busDraw k).fails = true) :
    ∃ t, doSteps (writeSteps l) s = (t, some busFault) ∧
      ∀ r, s.Lasting r (writesCost l) → t.rtc r = failedWrites r (s.busDraw k).lo l k (s.rtc r) := by
  induction l generalizing s k with
  | nil => exact absurd hk (Nat.not_lt_zero k)
  | cons w l ih =>
    simp only [writesCost, List.map_cons, List.sum_cons] at hf hk
    obtain ⟨hw, hl⟩ := List.forall_mem_cons.mp hl
    have hfw : ∀ k < w.cost, (s.busDraw k).foreign = [] := fun k hk => hf k (by omega)
    by_cases hkw : k < w.cost
    · obtain ⟨t, hd, hreg⟩ := doSteps_writeField_fails hc hfw hkw hq hfail
      refine ⟨t, doSteps_append_raise hd, fun r hr => ?_⟩
      obtain ⟨hfirst, -⟩ := State.Lasting.writeField (n := writesCost l) hr hc hfw hw
      rw [hreg r hfirst, failedWrites, if_pos hkw]
    · have hdraw : (s.writeField w).busDraw (k - w.cost) = s.busDraw k := by
        rw [writeField_busDraw, Nat.sub_add_cancel (Nat.le_of_not_lt hkw)]
      obtain ⟨t, hd, hreg⟩ := ih (s := s.writeField w) (k := k - w.cost) (by simpa using hc)
        (fun j hj => by
          simp only [writesCost] at hj
          simpa using hf (j + w.cost) (by omega))
        hl (by simp only [writesCost]; omega)
        (fun j hj => by simpa using hq (j + w.cost) (by omega)) (by rwa [hdraw])
      have hok := doSteps_writeField (s := s) (w := w) fun j hj => hq j (by omega)
      refine ⟨t, (doSteps_append_ok hok).trans hd, fun r hr => ?_⟩
      obtain ⟨hfirst, hrest⟩ := State.Lasting.writeField hr hc hfw hw
      rw [hreg r hrest, hdraw, writeField_lasting hc hfw hfirst, failedWrites, if_neg hkw]

end Lists

/-! ### RTC.SDT with a failing transaction (42_rtc.md R162) -/

/-- The transaction of RTC.SDT, counted from 0, that writes a field. -/
def writeIndex : TimeField → Nat
  | .second => 1
  | .minute => 2
  | .hour => 4
  | .day => 5
  | .month => 7
  | .year => 8

theorem keepStopped_fieldWrites (v : TimeField → Nat) : KeepStopped (fieldWrites v) := by
  intro w hw hr
  rcases List.mem_cons.mp hw with rfl | hw
  · show (bcdByte (v .second) &&& 0x7F).getLsbD 7 = false
    simp
  · exact absurd hr (laterWrites_reg hw)

/-- The register of a field, the writes of the six fields in their order. -/
theorem failedWrites_fieldWrites (s : State) (v : TimeField → Nat) (f : TimeField) (b : Byte) {k : Nat} (hk : k < 9) :
    failedWrites (fieldReg f) (s.busDraw k).lo (fieldWrites v) k b =
      s.afterFailure k (writeIndex f) b (putField f b (v f)) := by
  cases f <;> interval_cases k <;> rfl

/-- The registers after RTC.SDT was ended by its transaction number `k`, where no tick falls. -/
theorem sdt_failed_registers {s t : State} {dt : DateTime} {k : Nat} (hc : s.cfg.Legal) (hdt : DateTimeLegal dt)
    (hforeign : ∀ k < 9, (s.busDraw k).foreign = []) (hk : k < 9) (hq : s.NoFailure k)
    (hfail : (s.busDraw k).fails = true) (hstill : s.Still 9) (hx : exec (.rtcSdt dt) s = .next t) (f : TimeField) :
    t.rtc (fieldReg f) = s.afterFailure k (writeIndex f) (s.rtc (fieldReg f))
      ((s.rtc (fieldReg f) &&& preservedMask (fieldReg f)) ||| bcdByte (dateTimeField dt f)) := by
  obtain ⟨u, hd, hreg⟩ := doSteps_writeSteps_fails (s := s.accept 0x25 0) (l := fieldWrites (dateTimeField dt)) hc hforeign
    (keepStopped_fieldWrites _) hk hq hfail
  obtain rfl := Host.Outcome.next.inj
    ((exec_raise (i := .rtcSdt dt) (rtcSdt_start_ok hdt s.cfg) hd).symm.trans hx)
  rw [← putField_eq _ (dateTimeField_le hdt f), ← failedWrites_fieldWrites s _ f _ hk]
  exact hreg (fieldReg f) (.inr hstill)

/-- Settles O19: the writes before the failing transaction are done, its own register takes the draw, and the rest is as it
was. -/
theorem sdtAbortedByFailureLeavesMixture : Obligations.SdtAbortedByFailureLeavesMixture := by
  intro s dt k hc hdt hn hk hq hfail
  obtain ⟨t, hx, hframe⟩ := exec_blockFrame (.rtcSdt dt) s
  obtain ⟨htaken, hrsp⟩ := exec_first_failure (i := .rtcSdt dt) (rtcSdt_start_ok hdt s.cfg) rfl hk hq hfail hx
  refine ⟨t, hx, hframe, hrsp, htaken, fun a ha => exec_sameOutside (i := .rtcSdt dt) hc hn hx ha ha, fun hstill => ?_⟩
  obtain ⟨hforeign, -⟩ := hn
  have hreg := sdt_failed_registers hc hdt hforeign hk hq hfail hstill hx
  simp only [bcdByte_eq] at hreg
  refine ⟨hreg .second, (hreg .minute).trans ?_, hreg .hour, (hreg .day).trans ?_, hreg .month, (hreg .year).trans ?_⟩
  all_goals exact congrArg _ (and_zero_or _ _)

/-! ### RTC.RST up to its verification (42_rtc.md R163) -/

@[simp] theorem rstWritten_cfg (s : State) : s.rstWritten.cfg = s.cfg := by simp [State.rstWritten]
@[simp] theorem rstWritten_busDraw (s : State) (k : Nat) : s.rstWritten.busDraw k = s.busDraw (k + 13) := by
  simp [State.rstWritten, rstWrites_cost]
@[simp] theorem rstWritten_settleDraw (s : State) (k : Nat) : s.rstWritten.settleDraw k = s.settleDraw k := by
  simp [State.rstWritten]
@[simp] theorem rstWritten_acc (s : State) : s.rstWritten.acc = payloadS1 true := by simp [State.rstWritten]

theorem doSteps_rstWrites {s : State} (hq : s.NoFailure 13) :
    doSteps rtcRst.steps (s.accept 0x26 (payloadS1 true)) = doSteps (tickVerify .stopped) s.rstWritten := by
  rw [rtcRst_steps]
  exact doSteps_append_ok (doSteps_writeSteps (s := s.accept 0x26 (payloadS1 true)) hq)

theorem rstWritten_lasting {s : State} {r : RtcReg} (hc : s.cfg.Legal) (hforeign : ∀ k < 15, (s.busDraw k).foreign = [])
    (hr : s.Lasting r 13) : s.rstWritten.rtc r = rstWrites.foldl (FieldWrite.onReg r) (s.rtc r) :=
  writeFields_lasting (s := s.accept 0x26 (payloadS1 true)) hc
    (fun k hk => hforeign k (by rw [rstWrites_cost] at hk; omega)) rstWrites_stopped hr

/-- The last write of the seconds register leaves the epoch's seconds and the clock stopped. -/
theorem rst_sec (b : Byte) : mergeBits (putField .second b 0) maskOsc (oscByte .stopped) = 0x00 := by
  have hepoch : putField .second b 0 &&& 0x7F = bcdByte 0 := putField_field b (Nat.zero_le _)
  rw [mergeBits_osc, hepoch]
  decide

theorem rstWritten_sec {s : State} (hc : s.cfg.Legal) (hforeign : ∀ k < 15, (s.busDraw k).foreign = [])
    (hstill : s.Still 13) : s.rstWritten.rtc .sec = 0x00 :=
  (rstWritten_lasting hc hforeign (.inr hstill)).trans (rst_sec _)

theorem rstWritten_oscEn {s : State} (hc : s.cfg.Legal) (hforeign : ∀ k < 15, (s.busDraw k).foreign = [])
    (hstill : s.Still 13) : s.rstWritten.oscEn = false := by
  rw [State.oscEn, rstWritten_sec hc hforeign hstill]
  decide

/-! ### RTC.RST without a failing transaction, on every device (42_rtc.md R154) -/

/-- Success is that the two samples agree. -/
theorem exec_rst {s : State} (hq : s.NoFailure 15) :
    ∃ t, exec .rtcRst s = .next t ∧ t.mem = s.rstWritten.sampleS1.settle.mem ∧
      t.s1 = secondsSample (s.rstWritten.gap.rtc .sec) ∧ t.s2 = secondsSample (t.rtc .sec) ∧
      t.rsp = if t.s1 = t.s2 then 1 else 0 := by
  have hwritten := doSteps_rstWrites (s := s) fun k hk => hq k (by omega)
  obtain ⟨u, hverify, hmem, -, hacc, hs1, hs2, -, -⟩ := doSteps_tickVerify .stopped (s := s.rstWritten)
    fun k hk => by rw [rstWritten_busDraw]; exact hq _ (by omega)
  rw [rstWritten_acc] at hacc
  have hsteps := hwritten.trans hverify
  by_cases hsame : u.s1 = u.s2
  · rw [if_pos (by simpa [confirms] using hsame)] at hsteps
    refine ⟨_, exec_ok (i := .rtcRst) rfl hsteps, hmem, hs1, hs2, ?_⟩
    rw [respond_rsp, respond_s1, respond_s2, if_pos hsame, hacc, okResponse_payloadS1, if_pos rfl]
  · rw [if_neg (by simpa [confirms] using hsame)] at hsteps
    refine ⟨_, exec_raise (i := .rtcRst) rfl hsteps, hmem, hs1, hs2, ?_⟩
    rw [respond_rsp, respond_s1, respond_s2, if_neg hsame]
    exact okResponse_zero

/-- A device that writes `SEC` during the wait of RTC.RST: the first sample is the epoch's, the second the byte it wrote. -/
theorem exec_rst_disturbed {s t : State} {b : Byte} (hc : s.cfg.Legal) (hq : s.NoFailure 15)
    (hforeign : ∀ k < 15, (s.busDraw k).foreign = []) (hstill : s.Still 13)
    (hb : (s.settleDraw 0).foreign = [(rtcKey s.cfg .sec, b)]) (hx : exec .rtcRst s = .next t) :
    t.rsp = if b &&& 0x7F = 0 then 1 else 0 := by
  obtain ⟨u, hu, hmem, hs1, hs2, hrsp⟩ := exec_rst hq
  obtain rfl := Host.Outcome.next.inj (hu.symm.trans hx)
  have hstopped := rstWritten_oscEn hc hforeign hstill
  have hf : (s.rstWritten.busDraw 0).foreign = [] := by rw [rstWritten_busDraw]; exact hforeign _ (by omega)
  have hfirst := sampleS1_still_mem (.inl hstopped) hf
  have hwait := settle_stopped_foreign (s := s.rstWritten.sampleS1) ((oscEn_congr hfirst (by simp)).trans hstopped)
  simp only [sampleS1_settleDraw, rstWritten_settleDraw, hb] at hwait
  have hsec : u.rtc .sec = b := by
    rw [State.rtc, cfg_of_exec hx, hmem, hwait]
    exact read_write_same _ _ _
  rw [gap_still (.inl hstopped) hf, rstWritten_sec hc hforeign hstill] at hs1
  rw [hrsp, hs1, hs2, hsec]
  exact if_congr (secondsSample_eq_iff.trans eq_comm) rfl rfl

/-! ### RTC.RST with a failing transaction (60_exceptions.md R209, R211) -/

/-- Tick verification with a failing sample: only time has passed. -/
theorem doSteps_tickVerify_fails {s : State} {k : Nat} (d : ClockState) (hc : s.cfg.Legal)
    (hf : (s.busDraw 0).foreign = []) (hsettle : (s.settleDraw 0).foreign = []) (hk : k < 2) (hq : s.NoFailure k)
    (hfail : (s.busDraw k).fails = true) : ∃ t, doSteps (tickVerify d) s = (t, some busFault) ∧ Drifted s t := by
  obtain rfl | rfl : k = 0 ∨ k = 1 := by omega
  · refine ⟨_, doSteps_raise (f := sampleFirst) (readReg_failed hfail .sec _), ?_⟩
    exact (drifted_gap hc hf).trans (.of_mem rfl rfl)
  · have hsecond := sampleSecond_spec d s.sampleS1.settle.advance
    rw [if_pos (by simpa using hfail)] at hsecond
    refine ⟨s.sampleS1.settle.advance.takeBus, ?_, ?_⟩
    · rw [tickVerify, doSteps_sampleFirst (hq 0 Nat.one_pos), doSteps_waitSettle, doSteps_raise hsecond]
    · have hwait := drifted_settle (s := s.sampleS1) (by simpa using hc) (by simpa using hsettle)
      exact ((drifted_sampleS1 hc hf).trans hwait).trans (.of_mem (by simp) (by simp))

/-- The registers after RTC.RST was ended by its transaction number `k`: the writes up to it, since on a stopped clock, and in
`WKDAY` at all times, the verification finds what they left. -/
theorem rst_failed_registers {s t : State} {k : Nat} (hc : s.cfg.Legal) (hn : s.NoOtherBusMaster 15) (hk : k < 15)
    (hq : s.NoFailure k) (hfail : (s.busDraw k).fails = true) (hx : exec .rtcRst s = .next t) {r : RtcReg}
    (hr : s.Lasting r 13) : t.rtc r = failedWrites r (s.busDraw k).lo rstWrites k (s.rtc r) := by
  obtain ⟨hforeign, hsettle⟩ := hn
  by_cases hwrites : k < 13
  · obtain ⟨u, hd, hreg⟩ := doSteps_writeSteps_fails (s := s.accept 0x26 (payloadS1 true)) (l := rstWrites) hc
      (fun j hj => hforeign j (by rw [rstWrites_cost] at hj; omega)) rstWrites_stopped hwrites hq hfail
    have hsteps := doSteps_append_raise (gs := tickVerify .stopped) hd
    obtain rfl := Host.Outcome.next.inj ((exec_raise (i := .rtcRst) rfl hsteps).symm.trans hx)
    exact hreg r hr
  · have hverify : failedWrites r (s.busDraw k).lo rstWrites k (s.rtc r) = s.rstWritten.rtc r := by
      rw [rstWritten_lasting hc hforeign hr]
      obtain rfl | rfl : k = 13 ∨ k = 14 := by omega
      · rfl
      · rfl
    obtain ⟨u, hd, hdrift⟩ := doSteps_tickVerify_fails (s := s.rstWritten) (k := k - 13) .stopped (by simpa using hc)
      (by rw [rstWritten_busDraw]; exact hforeign _ (by omega)) (by simpa using hsettle) (by omega)
      (fun j hj => by rw [rstWritten_busDraw]; exact hq _ (by omega))
      (by rwa [rstWritten_busDraw, Nat.sub_add_cancel (Nat.le_of_not_lt hwrites)])
    have hsteps := (doSteps_rstWrites (s := s) fun j hj => hq j (by omega)).trans hd
    obtain rfl := Host.Outcome.next.inj ((exec_raise (i := .rtcRst) rfl hsteps).symm.trans hx)
    rw [hverify]
    rcases hr with rfl | hstill
    · exact hdrift.wkday (by simpa using hc)
    · exact rtc_congr (hdrift.stopped (rstWritten_oscEn hc hforeign hstill)) hdrift.cfg r

theorem failedWrites_rst_wkday (s : State) (b : Byte) {k : Nat} (hk : k < 15) :
    failedWrites .wkday (s.busDraw k).lo rstWrites k b = s.afterFailure k 10 b (b &&& 0xF7) := by
  have hoff : mergeBits b maskBat (batByte .off) = b &&& 0xF7 := (mergeBits_bat b .off).trans BitVec.or_zero
  rw [← hoff]
  interval_cases k <;> rfl

theorem failedWrites_rst_field (s : State) (b : Byte) {f : TimeField} (hf : f ≠ .second) {k : Nat} (hk : k < 15) :
    failedWrites (fieldReg f) (s.busDraw k).lo rstWrites k b =
      s.afterFailure k (writeIndex f) b ((b &&& preservedMask (fieldReg f)) ||| bcdByte (dateTimeField epoch f)) := by
  rw [← putField_eq _ (dateTimeField_le (by decide) f)]
  cases f with
  | second => exact absurd rfl hf
  | _ => interval_cases k <;> rfl

/-- `SEC` is written twice: with the seconds of the epoch, and to stop the clock. -/
theorem failedWrites_rst_sec (s : State) (b : Byte) {k : Nat} (hk : k < 15) :
    failedWrites .sec (s.busDraw k).lo rstWrites k b =
      if k < 12 then s.afterFailure k 1 b (b &&& 0x80) else s.afterFailure k 12 (b &&& 0x80) 0x00 := by
  have hseconds : putField .second b 0 = b &&& 0x80 :=
    (putField_eq b (Nat.zero_le _)).trans BitVec.or_zero
  rw [← hseconds, ← rst_sec b]
  interval_cases k <;> rfl

/-- RTC.RST with a failing transaction answers success 0. -/
theorem rst_fails {s t : State} {k : Nat} (hk : k < 15) (hfail : (s.busDraw k).fails = true)
    (hx : exec .rtcRst s = .next t) : t.rsp = 0 := exec_fails (i := .rtcRst) rfl rfl hk hfail hx

/-- Settles O22: without a failing transaction the samples decide, and the first one to fail ends the writes where it is. -/
theorem rstAlwaysOkAndFirstFaultSkipsTheRest : Obligations.RstAlwaysOkAndFirstFaultSkipsTheRest := by
  intro s
  obtain ⟨t, hx, hframe⟩ := exec_blockFrame .rtcRst s
  refine ⟨t, hx, hframe, ?_, fun ⟨k, hk, hfail⟩ => rst_fails hk hfail hx, fun hq => ?_,
    fun b hc hq hforeign hstill hb => exec_rst_disturbed hc hq hforeign hstill hb hx, fun k hk hq hfail => ?_⟩
  · by_cases hq : s.NoFailure 15
    · obtain ⟨u, hu, -, -, -, hrsp⟩ := exec_rst hq
      obtain rfl := Host.Outcome.next.inj (hu.symm.trans hx)
      rw [hrsp]
      split
      · exact .inr rfl
      · exact .inl rfl
    · obtain ⟨k, hk, -, hfail⟩ := exists_first_failure hq
      exact .inl (rst_fails hk hfail hx)
  · obtain ⟨u, hu, -, -, hs2, hrsp⟩ := exec_rst hq
    obtain rfl := Host.Outcome.next.inj (hu.symm.trans hx)
    refine ⟨hs2, ?_⟩
    rw [hrsp]
    split <;> simp_all
  · obtain ⟨htaken, -⟩ := exec_first_failure (i := .rtcRst) rfl rfl hk hq hfail hx
    refine ⟨htaken, fun hc hn => ?_⟩
    have hreg {r : RtcReg} (hr : s.Lasting r 13) := rst_failed_registers hc hn hk hq hfail hx hr
    refine ⟨fun a ha => exec_sameOutside (i := .rtcRst) hc hn hx ha (List.not_mem_of_not_mem_cons ha),
      (hreg (.inl rfl)).trans (failedWrites_rst_wkday s _ hk), fun hstill => ?_⟩
    have hfield {f : TimeField} (hf : f ≠ .second) :=
      (hreg (.inr hstill)).trans (failedWrites_rst_field s (s.rtc (fieldReg f)) hf hk)
    refine ⟨(hreg (.inr hstill)).trans (failedWrites_rst_sec s _ hk), (hfield (f := .minute) (by decide)).trans ?_,
      (hfield (f := .hour) (by decide)).trans ?_, (hfield (f := .day) (by decide)).trans ?_, hfield (f := .month) (by decide),
      (hfield (f := .year) (by decide)).trans ?_⟩
    · exact congrArg _ (and_zero_or _ _)
    · exact congrArg _ BitVec.or_zero
    · exact congrArg _ (and_zero_or _ _)
    · exact congrArg _ (and_zero_or _ _)

end Sys2Proof.Machine
end

section
/-! PROOFS. Reset and hazards (70_reset_and_hazards.md R240 to R260): power-on, a word that meets a busy block, the lengths of
the commands, and RTC.RST on a clock that ticks in its gaps. -/

namespace Sys2Proof.Machine

/-! ### Reset of the block (R240 to R242) -/

/-- Settles O56: power-on leaves no command to run, and a reset is a power-on with the devices and the draws as they are. -/
theorem powerOnResetValues : Obligations.PowerOnResetValues := by
  refine ⟨fun c m e => ⟨rfl, rfl, rfl, rfl, rfl, rfl, rfl, ?_⟩, fun s rest h => ⟨0, 0, 0, 0, ?_⟩⟩
  · rw [step_none rfl, sequencerStep_idle rfl]
  · rw [step_reset h, pop_of_cons h]
    rfl

/-- Settles O57: a power-on state is its own reset. -/
theorem resetMeetsTheInvariant : Obligations.ResetMeetsTheInvariant :=
  ⟨resetBlock_inv (s := State.reset) wf_reset, fun c m e a hm => resetBlock_inv (s := State.powerOn c m e a) hm⟩

/-! ### A word that meets a busy block (R254) -/

/-- Settles O33: a busy block drops the word, and the host's action is gone. -/
theorem wordPresentedWhileBusyIsNotAccepted : Obligations.WordPresentedWhileBusyIsNotAccepted := by
  intro s w rest h hb
  have hbusy : s.pop.busy = true := (pop_busy s).trans hb
  rcases h with h | h
  · rw [step_present h, present_busy hbusy, pop_of_cons h]
  · rw [step_call h, blockingCall_busy hbusy, pop_of_cons h]

/-! ### The lengths of the commands (R260) -/

/-- After an error only RTC.RST answers `OK`, with success 0 (60_exceptions.md R211). -/
theorem raisedResponse_of_ok {i : Instr} {e : Err}
    (h : statusOf (raisedResponse (commandOf i).catches e) = 0x00) :
    i = .rtcRst ∧ raisedResponse (commandOf i).catches e = 0 := by
  by_cases hrst : i = .rtcRst
  · subst hrst
    cases e with
    | hardware d => exact ⟨rfl, okResponse_zero⟩
    | range d => exact absurd h (statusOf_err_ne_ok _)
    | format d => exact absurd h (statusOf_err_ne_ok _)
    | illegal d => exact absurd h (statusOf_err_ne_ok _)
  · rw [catches_false hrst, raisedResponse_false] at h
    exact absurd h (statusOf_err_ne_ok e)

/-- Settles O42: the steps take the draws of their shape, and after an error the answer is not success. -/
theorem commandsMakeTheTablesTransactions : Obligations.CommandsMakeTheTablesTransactions := by
  intro i s t hx
  rcases exec_cases i s with ⟨e, -, -, h⟩ | ⟨p, -, u, e, hd, h⟩
  · obtain rfl := Host.Outcome.next.inj (h.symm.trans hx)
    exact ⟨Nat.le_refl _, Nat.le_add_right _ _, Nat.le_add_right _ _, fun hok => absurd hok (statusOf_err_ne_ok e)⟩
  · obtain rfl := Host.Outcome.next.inj (h.symm.trans hx)
    have hdraws := doSteps_draws (commandOf_shaped i) { s.begin i.opcode with acc := p }
    rw [hd, busOf_shape, settleOf_shape] at hdraws
    obtain ⟨hge, hle, -, hsettle, hall⟩ := hdraws
    refine ⟨hge, hle, hsettle, fun hok hrst => ?_⟩
    cases e with
    | none => exact hall rfl
    | some e =>
      obtain ⟨hi, h0⟩ := raisedResponse_of_ok hok
      exact absurd (h0.symm.trans (hrst hi)) (by decide)

/-! ### Ticks within the minute (R250; 60_exceptions.md R217, R220) -/

/-- The seconds are well formed and at most `n`. -/
abbrev State.SecondsWithin (n : Nat) (s : State) : Prop := fieldWithin .second (s.rtc .sec) 0 n = true

/-- From `s` to `u` only the seconds have changed, and they are at most `n`. -/
structure OnlySeconds (n : Nat) (s u : State) : Prop where
  cfg : u.cfg = s.cfg
  others : ∀ r, r ≠ .sec → u.rtc r = s.rtc r
  seconds : u.SecondsWithin n

theorem OnlySeconds.trans {m n : Nat} {s t u : State} (h : OnlySeconds m s t) (g : OnlySeconds n t u) : OnlySeconds n s u :=
  ⟨g.cfg.trans h.cfg, fun r hr => (g.others r hr).trans (h.others r hr), g.seconds⟩

theorem OnlySeconds.of_mem {n : Nat} {s u : State} (hs : s.SecondsWithin n) (hm : u.mem = s.mem) (hc : u.cfg = s.cfg) :
    OnlySeconds n s u :=
  ⟨hc, fun r _ => rtc_congr hm hc r, by rwa [State.SecondsWithin, rtc_congr hm hc]⟩

/-- Ticks that end within the minute. -/
theorem ticks_onlySeconds {s : State} {n k : Nat} (hc : s.cfg.Legal) (hs : s.SecondsWithin n) (hk : n + k ≤ 59) :
    OnlySeconds (n + k) s (State.ticks k s) := by
  have haged := aged_ticks hc k
  obtain ⟨hbcd, -, hle⟩ := fieldWithin_iff.mp hs
  have h59 : s.SecondsWithin 59 := fieldWithin_iff.mpr ⟨hbcd, Nat.zero_le _, by omega⟩
  obtain ⟨hbcd', -, -⟩ := fieldWithin_iff.mp (haged.second h59)
  cases ho : s.oscEn with
  | false =>
    rw [ticks_stopped ho]
    exact .of_mem (fieldWithin_iff.mpr ⟨hbcd, Nat.zero_le _, by omega⟩) rfl rfl
  | true =>
    refine ⟨haged.cfg, fun r hr => ?_, fieldWithin_iff.mpr ⟨hbcd', Nat.zero_le _, ?_⟩⟩
    · rw [State.rtc, haged.cfg]
      exact ticks_below_wrap hc ho h59 (by omega) _ (by simp [rtcKey_inj hc, hr])
    · rw [ticks_second hc ho h59 k]
      omega

/-- A gap that ends within the minute. -/
theorem gap_onlySeconds {s : State} {n : Nat} (hc : s.cfg.Legal) (hf : (s.busDraw 0).foreign = []) (hs : s.SecondsWithin n)
    (hn : n + s.cfg.gapTicksMax ≤ 59) : OnlySeconds (n + s.cfg.gapTicksMax) s s.gap := by
  have hgap : s.gap = State.ticks (min (s.busDraw 0).gap s.cfg.gapTicksMax) s := by simp [State.gap, hf]
  rw [hgap]
  obtain ⟨hcfg, hothers, hsec⟩ := ticks_onlySeconds hc hs
    (k := min (s.busDraw 0).gap s.cfg.gapTicksMax) (by omega)
  obtain ⟨hbcd, -, hle⟩ := fieldWithin_iff.mp hsec
  exact ⟨hcfg, hothers, fieldWithin_iff.mpr ⟨hbcd, Nat.zero_le _, by omega⟩⟩

/-! ### Field writes within the minute -/

section Early
variable {s : State} {w : FieldWrite} {n : Nat}

/-- A field write gives its register the bits of the mask, the others as they were at the read. -/
theorem writeField_reg : (s.writeField w).rtc w.reg = mergeBits (s.gap.rtc w.reg) w.mask w.value := by
  by_cases hm : w.mask = 0xFF
  · rw [writeField_whole hm, store_rtc_same, hm, mergeBits_full]
  · rw [writeField_bits hm, store_rtc_same]

theorem cost_pos (w : FieldWrite) : 0 < w.cost := by
  unfold FieldWrite.cost
  split <;> decide

/-- Just before the byte of a field write is written, only the seconds have changed, within the minute. -/
theorem writeField_onlySeconds (hc : s.cfg.Legal) (hf : ∀ k < w.cost, (s.busDraw k).foreign = [])
    (hs : s.SecondsWithin n) (hn : n + w.cost * s.cfg.gapTicksMax ≤ 59) :
    ∃ u b, OnlySeconds (n + w.cost * s.cfg.gapTicksMax) s u ∧
      (s.writeField w).mem = u.mem.write (rtcKey s.cfg w.reg) b := by
  by_cases hm : w.mask = 0xFF
  · rw [cost_whole hm] at hf hn ⊢
    rw [Nat.one_mul] at hn ⊢
    exact ⟨s.gap, _, gap_onlySeconds hc (hf 0 Nat.one_pos) hs hn, by rw [writeField_whole hm, store_mem]⟩
  · rw [cost_bits hm] at hf hn ⊢
    rw [Nat.two_mul, ← Nat.add_assoc] at hn ⊢
    have hgap := gap_onlySeconds hc (hf 0 (by omega)) hs (by omega)
    have hread := hgap.trans (.of_mem hgap.seconds (remember_mem s w.reg) (by simp))
    have hwrite := gap_onlySeconds (s := s.remember w.reg) (by simpa using hc) (by simpa using hf 1 (by omega))
      hread.seconds (by simpa using hn)
    rw [remember_cfg] at hwrite
    exact ⟨_, _, hread.trans hwrite, by rw [writeField_bits hm, store_mem, remember_cfg]⟩

/-- Within the minute a field write changes of the registers beside `SEC` only its own. -/
theorem writeField_others (hc : s.cfg.Legal) (hf : ∀ k < w.cost, (s.busDraw k).foreign = []) (hs : s.SecondsWithin n)
    (hn : n + w.cost * s.cfg.gapTicksMax ≤ 59) {r : RtcReg} (hr : r ≠ .sec) :
    (s.writeField w).rtc r = FieldWrite.onReg r (s.rtc r) w := by
  obtain ⟨u, b, hu, hmem⟩ := writeField_onlySeconds hc hf hs hn
  by_cases hw : w.reg = r
  · have hcost : s.cfg.gapTicksMax ≤ w.cost * s.cfg.gapTicksMax := Nat.le_mul_of_pos_left _ (cost_pos w)
    have hgap := gap_onlySeconds hc (hf 0 (cost_pos w)) hs (by omega)
    rw [FieldWrite.onReg, if_pos hw, ← hw, writeField_reg, hgap.others _ (by rwa [hw])]
  · rw [FieldWrite.onReg, if_neg hw, rtc_of_write hc writeField_cfg hmem, if_neg hw, ← hu.others r hr, State.rtc, hu.cfg]

/-- A write of a field that is not the seconds leaves the seconds within the minute. -/
theorem writeField_seconds (hc : s.cfg.Legal) (hf : ∀ k < w.cost, (s.busDraw k).foreign = []) (hs : s.SecondsWithin n)
    (hn : n + w.cost * s.cfg.gapTicksMax ≤ 59) (hw : w.reg ≠ .sec) :
    (s.writeField w).SecondsWithin (n + w.cost * s.cfg.gapTicksMax) := by
  obtain ⟨u, b, hu, hmem⟩ := writeField_onlySeconds hc hf hs hn
  have hsec : (s.writeField w).rtc .sec = u.rtc .sec := by
    rw [rtc_of_write hc writeField_cfg hmem, if_neg hw, State.rtc, hu.cfg]
  rw [State.SecondsWithin, hsec]
  exact hu.seconds

/-- Field writes one after the other, all within the minute. -/
theorem writeFields_within_minute {l : List FieldWrite} (hc : s.cfg.Legal)
    (hf : ∀ k < writesCost l, (s.busDraw k).foreign = []) (hl : ∀ w ∈ l, w.reg ≠ .sec) (hs : s.SecondsWithin n)
    (hn : n + writesCost l * s.cfg.gapTicksMax ≤ 59) :
    (∀ r, r ≠ .sec → (l.foldl State.writeField s).rtc r = l.foldl (FieldWrite.onReg r) (s.rtc r)) ∧
      (l.foldl State.writeField s).SecondsWithin (n + writesCost l * s.cfg.gapTicksMax) := by
  induction l generalizing s n with
  | nil => exact ⟨fun _ _ => rfl, by simpa [writesCost] using hs⟩
  | cons w l ih =>
    have hcost : writesCost (w :: l) = w.cost + writesCost l := rfl
    rw [hcost] at hf hn ⊢
    rw [Nat.add_mul, ← Nat.add_assoc] at hn ⊢
    obtain ⟨hw, hl⟩ := List.forall_mem_cons.mp hl
    have hfw : ∀ k < w.cost, (s.busDraw k).foreign = [] := fun k hk => hf k (by omega)
    obtain ⟨hothers, hseconds⟩ := ih (s := s.writeField w) (by simpa using hc)
      (fun k hk => by simpa using hf (k + w.cost) (by omega)) hl
      (writeField_seconds hc hfw hs (by omega) hw) (by simpa using hn)
    rw [writeField_cfg] at hseconds
    exact ⟨fun r hr => (hothers r hr).trans (by rw [writeField_others hc hfw hs (by omega) hr]; rfl), hseconds⟩

end Early

/-! ### RTC.RST on any clock (R250; 42_rtc.md R163) -/

/-- What the writes of RTC.RST make of a register of a field after the seconds. -/
theorem rstWrites_onReg_field {f : TimeField} (hf : fieldReg f ≠ .sec) (b : Byte) :
    rstWrites.foldl (FieldWrite.onReg (fieldReg f)) b =
      (b &&& preservedMask (fieldReg f)) ||| bcdByte (dateTimeField epoch f) := by
  rw [← putField_eq _ (dateTimeField_le (by decide) f)]
  cases f with
  | second => exact absurd rfl hf
  | _ => rfl

/-- What they make of `WKDAY`: the battery is off. -/
theorem rstWrites_onReg_wkday (b : Byte) : rstWrites.foldl (FieldWrite.onReg .wkday) b = b &&& 0xF7 :=
  (mergeBits_bat b .off).trans BitVec.or_zero

/-- The writes of RTC.RST after the seconds and before the clock is stopped. -/
def rstMiddleWrites : List FieldWrite := laterWrites (dateTimeField epoch) ++ [batWrite .off]

theorem rstMiddleWrites_cost : writesCost rstMiddleWrites = 9 := rfl

theorem rstWrites_eq :
    rstWrites = fieldWrite (dateTimeField epoch) .second :: (rstMiddleWrites ++ [oscWrite .stopped]) := rfl

theorem rstMiddleWrites_reg {w : FieldWrite} (h : w ∈ rstMiddleWrites) : w.reg ≠ .sec := by
  rcases List.mem_append.mp h with h | h
  · exact laterWrites_reg h
  · obtain rfl := List.mem_singleton.mp h
    decide

/-- RTC.RST after its write of the seconds, where no transaction has failed. -/
def State.rstSeconds (s : State) : State :=
  (s.accept 0x26 (payloadS1 true)).writeField (fieldWrite (dateTimeField epoch) .second)

/-- RTC.RST before it stops the clock. -/
def State.rstBeforeStop (s : State) : State := rstMiddleWrites.foldl State.writeField s.rstSeconds

theorem rstWritten_eq (s : State) : s.rstWritten = s.rstBeforeStop.writeField (oscWrite .stopped) := by
  rw [State.rstWritten, rstWrites_eq, List.foldl_cons, List.foldl_append, List.foldl_cons, List.foldl_nil]
  rfl

@[simp] theorem rstSeconds_cfg (s : State) : s.rstSeconds.cfg = s.cfg := by simp [State.rstSeconds]

@[simp] theorem rstSeconds_busDraw (s : State) (k : Nat) : s.rstSeconds.busDraw k = s.busDraw (k + 2) := by
  rw [State.rstSeconds, writeField_busDraw, secondWrite_cost, accept_busDraw]

@[simp] theorem rstBeforeStop_cfg (s : State) : s.rstBeforeStop.cfg = s.cfg := by simp [State.rstBeforeStop]

@[simp] theorem rstBeforeStop_busDraw (s : State) (k : Nat) : s.rstBeforeStop.busDraw k = s.busDraw (k + 11) := by
  simp [State.rstBeforeStop, rstMiddleWrites_cost]

/-- Written, the seconds are those of the epoch. -/
theorem rstSeconds_within (s : State) : s.rstSeconds.SecondsWithin 0 := by
  have hsec : s.rstSeconds.rtc .sec = putField .second _ 0 := writeField_reg
  rw [State.SecondsWithin, hsec]
  exact fieldWithin_putField _ (Nat.zero_le _) (Nat.le_refl 0) (Nat.le_refl 0)

/-- The last write of RTC.RST stops the clock. -/
theorem rstWritten_stopped (s : State) : s.rstWritten.oscEn = false := by
  rw [State.oscEn, rstWritten_eq]
  exact (congrArg (·.getLsbD 7) (writeField_reg (w := oscWrite .stopped))).trans (getLsbD_osc _ .stopped)

section Rst
variable {s : State} (hc : s.cfg.Legal) (hforeign : ∀ k < 15, (s.busDraw k).foreign = [])
  (hgap : 11 * s.cfg.gapTicksMax ≤ 59)

include hc hforeign

/-- The write of the seconds and its two gaps keep the preserved bits of every register. -/
theorem rstSeconds_kept (r : RtcReg) : s.rstSeconds.rtc r &&& preservedMask r = s.rtc r &&& preservedMask r :=
  writeField_kept (s := s.accept 0x26 (payloadS1 true)) (w := fieldWrite (dateTimeField epoch) .second) hc
    (fun k hk => hforeign k (by rw [secondWrite_cost] at hk; omega))
    (by rintro rfl; exact dateTimeFields_mask _ List.mem_cons_self)

include hgap

/-- Nine gaps pass from the write of the seconds to that of the battery bit, all within the minute. -/
theorem rstBeforeStop_spec :
    (∀ r, r ≠ .sec → s.rstBeforeStop.rtc r = rstMiddleWrites.foldl (FieldWrite.onReg r) (s.rstSeconds.rtc r)) ∧
      s.rstBeforeStop.SecondsWithin (9 * s.cfg.gapTicksMax) := by
  have h := writeFields_within_minute (s := s.rstSeconds) (l := rstMiddleWrites) (by simpa using hc)
    (fun k hk => by
      rw [rstMiddleWrites_cost] at hk
      rw [rstSeconds_busDraw]
      exact hforeign _ (by omega))
    (fun _ => rstMiddleWrites_reg) (rstSeconds_within s) (by rw [rstMiddleWrites_cost, rstSeconds_cfg]; omega)
  rwa [rstMiddleWrites_cost, rstSeconds_cfg, Nat.zero_add] at h

/-- The two gaps of the write that stops the clock, the tenth and the eleventh, end within the minute too. -/
theorem rstWritten_others {r : RtcReg} (hr : r ≠ .sec) :
    s.rstWritten.rtc r = rstWrites.foldl (FieldWrite.onReg r) (s.rstSeconds.rtc r) := by
  obtain ⟨hothers, hseconds⟩ := rstBeforeStop_spec hc hforeign hgap
  have hcost : (oscWrite .stopped).cost = 2 := cost_bits maskOsc_ne_full
  have hfirst : FieldWrite.onReg r (s.rstSeconds.rtc r) (fieldWrite (dateTimeField epoch) .second) = s.rstSeconds.rtc r :=
    if_neg hr.symm
  rw [rstWritten_eq, writeField_others (by simpa using hc)
    (fun k hk => by
      rw [hcost] at hk
      rw [rstBeforeStop_busDraw]
      exact hforeign _ (by omega))
    hseconds (by rw [hcost, rstBeforeStop_cfg]; omega) hr, hothers r hr, rstWrites_eq, List.foldl_cons, hfirst,
    List.foldl_append, List.foldl_cons, List.foldl_nil]

/-- The seconds written back are those read after the tenth gap. -/
theorem rstWritten_seconds : isBcd (s.rstWritten.rtc .sec) = true ∧
    bcdValue (s.rstWritten.rtc .sec) ≤ 10 * s.cfg.gapTicksMax := by
  obtain ⟨-, hseconds⟩ := rstBeforeStop_spec hc hforeign hgap
  have hread := (gap_onlySeconds (s := s.rstBeforeStop) (by simpa using hc)
    (by rw [rstBeforeStop_busDraw]; exact hforeign _ (by omega)) hseconds (by rw [rstBeforeStop_cfg]; omega)).seconds
  obtain ⟨hbcd, -, hle⟩ := fieldWithin_iff.mp hread
  have hsec : s.rstWritten.rtc .sec = s.rstBeforeStop.gap.rtc .sec &&& fieldMask .second := by
    rw [rstWritten_eq]
    exact (writeField_reg (w := oscWrite .stopped)).trans ((mergeBits_osc _ .stopped).trans BitVec.or_zero)
  rw [rstBeforeStop_cfg] at hle
  rw [hsec]
  refine ⟨hbcd, ?_⟩
  show fieldOf .second _ ≤ _
  omega

end Rst

/-- On a stopped clock the verification confirms, and finds the registers as the writes left them. -/
theorem exec_rst_confirmed {s : State} (hq : s.NoFailure 15) (hn : s.NoOtherBusMaster 15) :
    ∃ t, exec .rtcRst s = .next t ∧ t.rsp = 1 ∧ ∀ r, t.rtc r = s.rstWritten.rtc r := by
  obtain ⟨hforeign, hsettle⟩ := hn
  obtain ⟨t, hx, hmem, hs1, hs2, hrsp⟩ := exec_rst hq
  have hstopped := rstWritten_stopped s
  have hf : (s.rstWritten.busDraw 0).foreign = [] := by rw [rstWritten_busDraw]; exact hforeign _ (by omega)
  have hfirst := sampleS1_still_mem (.inl hstopped) hf
  have hwait : s.rstWritten.sampleS1.settle.mem = s.rstWritten.sampleS1.mem :=
    settle_still_mem (.inl ((oscEn_congr hfirst (by simp)).trans hstopped)) (by simpa using hsettle)
  have hreg (r : RtcReg) : t.rtc r = s.rstWritten.rtc r :=
    rtc_congr (hmem.trans (hwait.trans hfirst)) ((cfg_of_exec hx).trans (rstWritten_cfg s).symm) r
  refine ⟨t, hx, ?_, hreg⟩
  rw [hrsp, if_pos (by rw [hs1, hs2, hreg, gap_still (.inl hstopped) hf])]

/-- Settles O21: from the write of the seconds to the stop of the clock eleven gaps pass, which together end within the minute,
and the last of them is undone. -/
theorem rstOnRunningClockEndsNearEpoch : Obligations.RstOnRunningClockEndsNearEpoch := by
  intro s hc hq hn hgap
  obtain ⟨t, hx, hrsp, hreg⟩ := exec_rst_confirmed hq hn
  obtain ⟨hforeign, -⟩ := id hn
  have hkept := rstSeconds_kept hc hforeign
  have hfield {f : TimeField} (hf : fieldReg f ≠ .sec) : t.rtc (fieldReg f) =
      (s.rtc (fieldReg f) &&& preservedMask (fieldReg f)) ||| bcdByte (dateTimeField epoch f) := by
    rw [hreg, rstWritten_others hc hforeign hgap hf, rstWrites_onReg_field hf, hkept]
  have hwkday : t.rtc .wkday = s.rtc .wkday &&& 0xF7 := by
    rw [hreg, rstWritten_others hc hforeign hgap (by decide), rstWrites_onReg_wkday]
    exact hkept .wkday
  have hosc : t.oscEn = false := by
    rw [State.oscEn, hreg]
    exact rstWritten_stopped s
  obtain ⟨hbcd, hle⟩ := rstWritten_seconds hc hforeign hgap
  rw [← hreg .sec] at hbcd hle
  refine ⟨t, hx, blockFrame_of_exec hx, hrsp, hosc, hbcd, hle, ?_, ?_, hwkday, ?_,
    hfield (f := .month) (by decide), ?_, fun a ha => ?_⟩
  · exact (hfield (f := .minute) (by decide)).trans (and_zero_or _ _)
  · exact (hfield (f := .hour) (by decide)).trans BitVec.or_zero
  · exact (hfield (f := .day) (by decide)).trans (and_zero_or _ _)
  · exact (hfield (f := .year) (by decide)).trans (and_zero_or _ _)
  · exact exec_sameOutside (i := .rtcRst) hc hn hx ha (List.not_mem_of_not_mem_cons ha)

end Sys2Proof.Machine
end
